-- ==== Sys2Proof/Word.lean ====
section
/-! DEFINITION. The word types of BSR-INFL: 32-bit registers and command words (00_scope.md R5, REG_W), bytes (R6). -/

namespace Sys2Proof

/-- A host-visible register, a command word (00_scope.md R5: REG_W = 32; 30_encoding.md R56). -/
abbrev Word := BitVec 32

/-- A byte is 8 bits (00_scope.md R6). -/
abbrev Byte := BitVec 8

end Sys2Proof
end

