-- ==== Sys2Proof/Syntax.lean ====
section
/-! DEFINITION. The commands of BSR-INFL, "the instructions of this hardware" (00_scope.md glossary):
one constructor per row of the opcode table (30_encoding.md R58). -/

namespace Sys2Proof

/-- The four tree slots T0..T3 (10_state.md R36); SLOT names one and has no out-of-range value (30_encoding.md R57, R61). -/
inductive Slot where
  | t0 | t1 | t2 | t3
deriving DecidableEq, Repr

/-- The nine commands (30_encoding.md R58). N, MAXLEN and COUNT are unsigned numbers (R57); which of them an
encoding can hold is WellFormed's. -/
inductive Instr where
  /-- NOP, OP 0x0 (43_checksum_and_control.md R113). -/
  | nop
  /-- BS_INIT, OP 0x1 (40_bitstream.md R74). -/
  | bsInit
  /-- BS_GET N, OP 0x2 (40_bitstream.md R75). -/
  | bsGet (n : Nat)
  /-- BS_SKIP N, OP 0x3 (40_bitstream.md R76). -/
  | bsSkip (n : Nat)
  /-- BS_ALIGN, OP 0x4 (40_bitstream.md R77). -/
  | bsAlign
  /-- TREE_BUILD SLOT, COUNT, MAXLEN, OP 0x5 (41_huffman.md R84). -/
  | treeBuild (slot : Slot) (count : Nat) (maxlen : Nat)
  /-- TREE_DECODE SLOT, OP 0x6 (41_huffman.md R87). -/
  | treeDecode (slot : Slot)
  /-- INFLATE, OP 0x7 (42_inflate.md R89). -/
  | inflate
  /-- ADLER32, OP 0x8 (43_checksum_and_control.md R112). -/
  | adler32
deriving DecidableEq, Repr

end Sys2Proof
end

