-- ==== Sys2Proof/WellFormed.lean ====
section
/-! DEFINITION. Which commands a command word can hold: the widths of the fields N, MAXLEN and COUNT
(30_encoding.md R56). A value that fits its field but is out of the command's range is well formed: the command
itself raises the argument error (R61). -/

namespace Sys2Proof

/-- N is a 6-bit field, w[15:10] (30_encoding.md R56). -/
def fitsN (n : Nat) : Bool := n < 64

/-- MAXLEN is a 5-bit field, w[20:16] (30_encoding.md R56). -/
def fitsMaxlen (m : Nat) : Bool := m < 32

/-- COUNT is a 10-bit field, w[31:22] (30_encoding.md R56). -/
def fitsCount (c : Nat) : Bool := c < 1024

/-- Every operand fits its field of the command word (30_encoding.md R56, R57). -/
def WellFormed : Instr → Bool
  | .nop => true
  | .bsInit => true
  | .bsGet n => fitsN n
  | .bsSkip n => fitsN n
  | .bsAlign => true
  | .treeBuild _ count maxlen => fitsCount count && fitsMaxlen maxlen
  | .treeDecode _ => true
  | .inflate => true
  | .adler32 => true

end Sys2Proof
end

