-- ==== Sys2Proof/Decode.lean ====
section
/-! DEFINITION. The command word's decoder, total on all 2^32 words and rejecting by name (30_encoding.md R56 to R62),
and after it the encoder, written from the same format. -/

namespace Sys2Proof

/-- Why a command word is illegal; either way the command completes with ARG_ILLEGAL_CMD. -/
inductive Illegal where
  /-- OP is 0x9..0xF (30_encoding.md R60). -/
  | reservedOp (op : Nat)
  /-- a 1 in a bit outside OP and the opcode's used fields (30_encoding.md R59). -/
  | reservedBits (op : Nat)
deriving DecidableEq, Repr

/-- The field w[hi:lo] of width n = hi - lo + 1, an unsigned number (30_encoding.md R57). -/
def field (w : Word) (lo n : Nat) : Nat := (w.extractLsb' lo n).toNat

/-- SLOT names tree slot T<SLOT> (30_encoding.md R57). -/
def slotOfField : Nat → Slot
  | 0 => .t0
  | 1 => .t1
  | 2 => .t2
  | _ => .t3

/-- The number of a slot. -/
def slotField : Slot → Nat
  | .t0 => 0
  | .t1 => 1
  | .t2 => 2
  | .t3 => 3

/-- The bits of the fields an opcode uses, outside OP (30_encoding.md R62); none for a reserved OP. -/
def usedMask : Nat → Option Word
  | 0x0 => some 0
  | 0x1 => some 0
  | 0x2 => some 0x0000FC00
  | 0x3 => some 0x0000FC00
  | 0x4 => some 0
  | 0x5 => some 0xFFDF0300
  | 0x6 => some 0x00000300
  | 0x7 => some 0
  | 0x8 => some 0
  | _ => none

/-- The command an OP of the map selects, with its fields (30_encoding.md R58, R62). -/
def selectOp (op slot n maxlen count : Nat) : Option Instr :=
  match op with
  | 0x0 => some .nop
  | 0x1 => some .bsInit
  | 0x2 => some (.bsGet n)
  | 0x3 => some (.bsSkip n)
  | 0x4 => some .bsAlign
  | 0x5 => some (.treeBuild (slotOfField slot) count maxlen)
  | 0x6 => some (.treeDecode (slotOfField slot))
  | 0x7 => some .inflate
  | 0x8 => some .adler32
  | _ => none

/-- Decode of the accepted word w (30_encoding.md R62): a reserved OP, then a 1 outside OP and the used fields, is illegal. -/
def decode (w : Word) : Except Illegal Instr :=
  let op := field w 0 4
  match usedMask op with
  | none => .error (.reservedOp op)
  | some used =>
    if ((w >>> 4) <<< 4) &&& ~~~used ≠ 0 then .error (.reservedBits op)
    else
      match selectOp op (field w 8 2) (field w 10 6) (field w 16 5) (field w 22 10) with
      | some i => .ok i
      | none => .error (.reservedOp op)

/-- A command word from its fields: OP, SLOT << 8, N << 10, MAXLEN << 16, COUNT << 22 (30_encoding.md R56, R64). -/
def packWord (op slot n maxlen count : Nat) : Word :=
  BitVec.ofNat 32 op ||| (BitVec.ofNat 32 slot <<< 8) ||| (BitVec.ofNat 32 n <<< 10)
    ||| (BitVec.ofNat 32 maxlen <<< 16) ||| (BitVec.ofNat 32 count <<< 22)

/-- The word of a well-formed command, as the assembler table writes it (30_encoding.md R64). -/
def encode : Instr → Word
  | .nop => packWord 0x0 0 0 0 0
  | .bsInit => packWord 0x1 0 0 0 0
  | .bsGet n => packWord 0x2 0 n 0 0
  | .bsSkip n => packWord 0x3 0 n 0 0
  | .bsAlign => packWord 0x4 0 0 0 0
  | .treeBuild slot count maxlen => packWord 0x5 (slotField slot) 0 maxlen count
  | .treeDecode slot => packWord 0x6 (slotField slot) 0 0 0
  | .inflate => packWord 0x7 0 0 0 0
  | .adler32 => packWord 0x8 0 0 0 0

/-- A row of the opcode map: its OP, match and mask (30_encoding.md R58). -/
structure OpcodeRow where
  op : Nat
  pattern : Word
  mask : Word
deriving DecidableEq, Repr

/-- The opcode map (30_encoding.md R58), in its order. -/
def opcodeMap : List OpcodeRow :=
  [⟨0x0, 0x00000000, 0xFFFFFFFF⟩, ⟨0x1, 0x00000001, 0xFFFFFFFF⟩, ⟨0x2, 0x00000002, 0xFFFF03FF⟩,
   ⟨0x3, 0x00000003, 0xFFFF03FF⟩, ⟨0x4, 0x00000004, 0xFFFFFFFF⟩, ⟨0x5, 0x00000005, 0x0020FCFF⟩,
   ⟨0x6, 0x00000006, 0xFFFFFCFF⟩, ⟨0x7, 0x00000007, 0xFFFFFFFF⟩, ⟨0x8, 0x00000008, 0xFFFFFFFF⟩]

/-- A word w selects a row when (w & mask) == match (30_encoding.md R58). -/
def OpcodeRow.selects (r : OpcodeRow) (w : Word) : Bool := w &&& r.mask == r.pattern

/-- The OP of a command (30_encoding.md R58). -/
def opOf : Instr → Nat
  | .nop => 0x0
  | .bsInit => 0x1
  | .bsGet _ => 0x2
  | .bsSkip _ => 0x3
  | .bsAlign => 0x4
  | .treeBuild _ _ _ => 0x5
  | .treeDecode _ => 0x6
  | .inflate => 0x7
  | .adler32 => 0x8

/-- The instruction the decoder reads from an opcode-table word of nbits bits; every bit above nbits is 0. A command is
exactly one 32-bit word (30_encoding.md R63). -/
def decodeTableWord (nbits w : Nat) : Option Instr :=
  match decode (BitVec.ofNat 32 (w % 2 ^ nbits)) with
  | .ok i => some i
  | .error _ => none

end Sys2Proof
end

