-- ==== Sys2Proof/Config.lean ====
section
/-! DEFINITION. What an implementation of BSR-INFL fixes (00_scope.md R5, 10_state.md R11) and the free values:
opaque constants with no body, for what the spec leaves to any value (93_implementation_defined.md I2, I9). -/

namespace Sys2Proof.Config

/-- IN_MAX, the bytes of the input RAM: the default of 00_scope.md R5 (log 5: DESIGN CHOICE, the default of an open parameter). -/
def inMax : Nat := 65536

/-- OUT_MAX, the bytes of the output RAM: the default of 00_scope.md R5 (log 5: DESIGN CHOICE, the default of an open parameter). -/
def outMax : Nat := 65536

/-- TREE_CAP: symbols per tree slot and entries of CLEN (00_scope.md R5, fixed). -/
def treeCap : Nat := 512

/-- MAXLEN_LIMIT: the largest legal configured maximum code length (00_scope.md R5, fixed). -/
def maxlenLimit : Nat := 16

/-- NMAX_GET: the largest n of one bit-stream read (00_scope.md R5, fixed). -/
def nmaxGet : Nat := 32

/-- The ID register: the ASCII string "BRI1" read as a big-endian word (10_state.md R15). -/
def idWord : Word := 0x42524931

/-- Free value: what the k-th unspecified host read answers (20_memory.md R52, 93 I2; log 3). -/
opaque busyRead : Nat → Word

/-- Free value: how many host accesses go between the k-th draw's acceptance and the engine's step
(70_reset_and_hazards.md R133, 93 I9: any finite number; log 2). -/
opaque engineDelay : Nat → Nat

end Sys2Proof.Config
end

