-- ==== Sys2Proof/Machine/State.lean ====
section
/-! DEFINITION. The state of BSR-INFL as plain data (10_state.md), the reasons a step can stop, and the state right
after reset (10_state.md R40). -/

namespace Sys2Proof.Machine

/-- Sparse memory: (address, value) pairs, addresses strictly rising (Ops.lean: Memory.wf). An unlisted address is
unwritten: it has no value (10_state.md R40, log 8). -/
abbrev Memory (α : Type) := List (Nat × α)

/-- The bit order of the reader, CTRL.MODE and BS_MODE: 0 = DEFLATE order, 1 = LZX order (10_state.md R16, R26). -/
inductive BitOrder where
  | deflate
  | lzx
deriving DecidableEq, Repr

/-- CTRL's two fields; bits 31:2 read 0 and ignore writes (10_state.md R16). -/
structure Ctrl where
  mode : BitOrder
  ie : Bool
deriving DecidableEq, Repr

/-- The values of STATUS.ERRCODE, one per row of 60_exceptions.md R117; no other value is ever produced. -/
inductive ErrCode where
  | ok
  | argIllegalCmd | argNRange | argTreeParam | argTreeInvalid | argLenRange
  | bndOutTooSmall | bndDistTooFar
  | fmtInputExhausted | fmtBadMethod | fmtBadWindow | fmtReservedBtype | fmtStoredNlen | fmtBadHlit | fmtBadHdist
  | fmtLenTooLong | fmtOversubscribed | fmtInvalidCode | fmtRepeatNoPrev | fmtRepeatOverrun | fmtEobZeroLen
  | fmtInvalidSymbol
  | chkAdlerMismatch
deriving DecidableEq, Repr

/-- STATUS's stored fields (10_state.md R18). BUSY is not here: it is 1 exactly while an accepted command is held in
`State.cmd` (log 7). Reserved bits read 0. -/
structure Status where
  done : Bool
  err : Bool
  ovr : Bool
  errcode : ErrCode
  ckpres : Bool
  ckok : Bool
  fdict : Bool
deriving DecidableEq, Repr

/-- The bit reader: BS_MODE (10_state.md R26), BS_OFFSET (R23), BS_BITCNT (R24) and ACC (R35). Counters are exact
numbers (00_scope.md R7, log 13). -/
structure Reader where
  mode : BitOrder
  offset : Nat
  bitcnt : Nat
  acc : BitVec 64
deriving DecidableEq, Repr

/-- A tree slot: VALID, COUNT, MAXLEN, LMAX and LEN[0..COUNT-1] (10_state.md R36). -/
structure TreeSlot where
  valid : Bool
  count : Nat
  maxlen : Nat
  lmax : Nat
  lens : List Nat
deriving DecidableEq, Repr

/-- A cleared slot: VALID = 0 and every field 0 (10_state.md R36). -/
def TreeSlot.cleared : TreeSlot := ⟨false, 0, 0, 0, []⟩

/-- The four tree slots (10_state.md R36). -/
structure Trees where
  t0 : TreeSlot
  t1 : TreeSlot
  t2 : TreeSlot
  t3 : TreeSlot
deriving DecidableEq, Repr

/-- The widths of a host access: 8, 16 or 32 bits (20_memory.md R44). -/
inductive Width where
  | w8 | w16 | w32
deriving DecidableEq, Repr

/-- What the host can do to the block: a read or a write of a host address (20_memory.md R41 to R48), or the
assertion of the reset input (70_reset_and_hazards.md R129). -/
inductive HostAction where
  | read (w : Width) (addr : BitVec 24)
  | write (w : Width) (addr : BitVec 24) (value : Word)
  | reset
deriving DecidableEq, Repr

/-- The three RAMs, each its own address space (10_state.md R39). -/
inductive RamName where
  | inRam | outRam | clen
deriving DecidableEq, Repr

/-- The state of BSR-INFL (10_state.md R14 to R40). The last four fields are the model's own (logs 1 to 4). -/
structure State where
  /-- CTRL (R16) -/
  ctrl : Ctrl
  /-- STATUS but for BUSY (R18) -/
  status : Status
  /-- the accepted command in progress; STATUS.BUSY = 1 exactly when there is one (R17, R18) -/
  cmd : Option Word
  /-- CTRL.MODE as it stood when the command in progress was accepted; later writes of CTRL.MODE do not reach that command
  (70_reset_and_hazards.md R135, 20_memory.md R54). BS_INIT alone reads it; only an acceptance writes it. -/
  cmdMode : BitOrder
  /-- RESULT (R19) -/
  result : Word
  /-- ARG (R20) -/
  arg : Word
  /-- IN_LEN (R21) -/
  inLen : Word
  /-- OUT_CAP (R22) -/
  outCap : Word
  /-- the bit reader: BS_OFFSET, BS_BITCNT, BS_MODE, ACC (R23, R24, R26, R35) -/
  bs : Reader
  /-- OUT_POS (R27) -/
  outPos : Nat
  /-- ZHDR (R28) -/
  zhdr : Word
  /-- DICTID (R29) -/
  dictid : Word
  /-- ADLER_CALC (R30) -/
  adlerCalc : Word
  /-- ADLER_STORED (R31) -/
  adlerStored : Word
  /-- BLKINFO (R32) -/
  blkinfo : Word
  /-- the tree slots (R36), seen as TREE_INFO0..3 (R33) -/
  trees : Trees
  /-- IN (R39) -/
  inRam : Memory Byte
  /-- OUT (R39) -/
  outRam : Memory Byte
  /-- CLEN: 5-bit entries (R39, 20_memory.md R45) -/
  clen : Memory (BitVec 5)
  /-- the model's own: the host actions still to come (log 1) -/
  host : List HostAction
  /-- the model's own: what the last host read returned (log 1) -/
  rdata : Word
  /-- the model's own: how many host actions go before the engine's step (log 2) -/
  wait : Nat
  /-- the model's own: how many free values have been drawn (logs 2, 3) -/
  free : Nat
deriving DecidableEq, Repr

/-- Why the machine stops. -/
inductive Fault where
  /-- raised by a command or a host read that reads an unwritten location of a RAM (93_implementation_defined.md I1:
  fault); safe: the model stops where hardware would go on with some value. -/
  | unwritten (ram : RamName) (index : Nat)
  /-- raised by INFLATE when one of its loops runs past 8 * IN_LEN + 1 turns; never reached, since every turn consumes
  a bit (70_reset_and_hazards.md R133; log 11); safe. -/
  | loopBound
deriving DecidableEq, Repr

/-- Why a step has no meaning. -/
inductive Refusal where
  /-- raised by exec's arm of a command that has no meaning yet (none in this model); safe. -/
  | notModelled (mnemonic : String)
  /-- raised by a host access outside the host's contract: wrong width, misaligned (20_memory.md R46, 93 I3), or running out
  of a reserved range (log 9); safe: the spec gives the access no step. -/
  | hostAccess (w : Width) (addr : BitVec 24)
  /-- raised by a host write while BUSY to ARG, IN_LEN, OUT_CAP or a RAM window (20_memory.md R52, 93 I4); safe: the
  spec gives the access no step. -/
  | hostWriteBusy (addr : BitVec 24)
deriving DecidableEq, Repr

/-- The machine right after reset (10_state.md R40): every register of R14 at its reset value, ACC = 0, every slot
cleared, no command in progress, the RAMs unwritten. The model's own fields: log 4; `cmdMode`: log 17. -/
def State.reset : State where
  ctrl := ⟨.deflate, false⟩
  status := ⟨false, false, false, .ok, false, false, false⟩
  cmd := none
  cmdMode := .deflate
  result := 0
  arg := 0
  inLen := 0
  outCap := 0
  bs := ⟨.deflate, 0, 0, 0⟩
  outPos := 0
  zhdr := 0
  dictid := 0
  adlerCalc := 0
  adlerStored := 0
  blkinfo := 0
  trees := ⟨.cleared, .cleared, .cleared, .cleared⟩
  inRam := []
  outRam := []
  clen := []
  host := []
  rdata := 0
  wait := 0
  free := 0

end Sys2Proof.Machine
end

