-- ==== Sys2Proof/Machine/Ops.lean ====
section
/-! DEFINITION. The shared operations: the RAMs' reads and writes, the engine's way of running a command
("raise E", 00_scope.md R8), the acceptance of a command (10_state.md R17) and its completion, with or without an error
(60_exceptions.md R115, R116): the one thing BSR-INFL has in the place of taking an exception (R114, R124). -/

namespace Sys2Proof.Machine

open Host (Outcome)

/-! ## The RAMs -/

/-- The canonical form of a RAM: addresses strictly rising (each listed once). -/
abbrev Memory.wf {α : Type} (m : Memory α) : Prop := (m.map Prod.fst).Pairwise (· < ·)

/-- MemRead of one element; none: unwritten since reset (10_state.md R40, 93 I1). -/
def Memory.read {α : Type} : Memory α → Nat → Option α
  | [], _ => none
  | (b, v) :: rest, a => if a = b then some v else Memory.read rest a

/-- MemWrite of one element (00_scope.md R8), keeping the canonical form. -/
def Memory.write {α : Type} : Memory α → Nat → α → Memory α
  | [], a, v => [(a, v)]
  | (b, u) :: rest, a, v =>
    if a < b then (a, v) :: (b, u) :: rest
    else if a = b then (a, v) :: rest
    else (b, u) :: Memory.write rest a v

/-! ## Running a command -/

/-- How a command's run ends early: `raise E` (00_scope.md R8, 60_exceptions.md R116), or a fault of the machine. -/
inductive Stop where
  | raise (e : ErrCode)
  | fault (f : Fault)
deriving DecidableEq, Repr

/-- A piece of a command: it changes the state and answers a value, or stops with the state as it stood at the stop
("state changes made before the raise stay made", 60_exceptions.md R116). -/
abbrev Engine (α : Type) := EStateM Stop State α

/-- `raise E` (00_scope.md R8). -/
def raise {α : Type} (e : ErrCode) : Engine α := fun s => .error (.raise e) s

/-- A fault of the machine (93_implementation_defined.md: treatment `fault`). -/
def stopFault {α : Type} (f : Fault) : Engine α := fun s => .error (.fault f) s

/-- `if c then raise E`. -/
def failIf (c : Bool) (e : ErrCode) : Engine Unit := fun s => if c then .error (.raise e) s else .ok () s

/-- MemRead(IN, i, 1) (20_memory.md R49). -/
def readIn (i : Nat) : Engine Byte := fun s =>
  match s.inRam.read i with
  | some b => .ok b s
  | none => .error (.fault (.unwritten .inRam i)) s

/-- MemRead(OUT, i, 1) (20_memory.md R49). -/
def readOut (i : Nat) : Engine Byte := fun s =>
  match s.outRam.read i with
  | some b => .ok b s
  | none => .error (.fault (.unwritten .outRam i)) s

/-- CLEN[i] (20_memory.md R49), a number 0..31. -/
def readClen (i : Nat) : Engine Nat := fun s =>
  match s.clen.read i with
  | some l => .ok l.toNat s
  | none => .error (.fault (.unwritten .clen i)) s

/-- MemWrite(OUT, OUT_POS, 1, b); OUT_POS <- OUT_POS + 1 (42_inflate.md R95, R102, R105). -/
def pushOut (b : Byte) : Engine Unit := fun s =>
  .ok () { s with outRam := s.outRam.write s.outPos b, outPos := s.outPos + 1 }

/-! ## Acceptance and completion -/

/-- STATUS.BUSY: 1 from the acceptance of a command until its completion (10_state.md R18). -/
def State.busy (s : State) : Bool := s.cmd.isSome

/-- The acceptance of command w (10_state.md R17). The command is taken whole, the CTRL.MODE of now with it: later host writes
cannot change it (20_memory.md R54, 70_reset_and_hazards.md R135). The host makes a free number of accesses before the
engine's step (R133; log 2). -/
def accept (w : Word) (s : State) : State :=
  { s with
    status := { s.status with done := false, err := false, errcode := .ok }
    result := 0
    cmd := some w
    cmdMode := s.ctrl.mode
    wait := Config.engineDelay s.free
    free := s.free + 1 }

/-- Completion of a command with a code and the RESULT it leaves (60_exceptions.md R115; 10_state.md R19; log 10). -/
def complete (e : ErrCode) (result : Word) (s : State) : State :=
  { s with
    cmd := none
    status := { s.status with done := true, err := e != .ok, errcode := e }
    result := result }

/-- Runs a command to its one completion: with success RESULT is the value answered, with an error it is 0
(10_state.md R19, 60_exceptions.md R121). -/
def runCommand (m : Engine Word) (s : State) : Outcome State Fault Refusal :=
  match m s with
  | .ok v t => .next (complete .ok v t)
  | .error (.raise e) t => .next (complete e 0 t)
  | .error (.fault f) _ => .fault f

/-- The argument check of a command that reads input: IN_LEN > IN_MAX raises ARG_LEN_RANGE (10_state.md R21). -/
def checkInLen : Engine Unit := fun s => failIf (Config.inMax < s.inLen.toNat) .argLenRange s

end Sys2Proof.Machine
end

