-- ==== Sys2Proof/Machine/Control.lean ====
section
/-! DEFINITION. The control command NOP (43_checksum_and_control.md R113) and the completion of an illegal word
(30_encoding.md R59, R60). -/

namespace Sys2Proof.Machine

open Host (Outcome)

/-- NOP does nothing but complete (43_checksum_and_control.md R113). -/
def execNop (s : State) : Outcome State Fault Refusal := .next (complete .ok 0 s)

/-- An illegal command word completes at once with ARG_ILLEGAL_CMD and changes nothing else (30_encoding.md R59, R60). -/
def illegalCommand (s : State) : State := complete .argIllegalCmd 0 s

end Sys2Proof.Machine
end

