-- ==== Sys2Proof/Machine/Operands.lean ====
section
/-! DEFINITION. The operand forms of the commands: a tree slot (30_encoding.md R57), the lists CLEN[0..COUNT-1]
(41_huffman.md R84), IN[0..IN_LEN-1] (43_checksum_and_control.md R112) and OUT[0..OUT_POS-1] (42_inflate.md R107). -/

namespace Sys2Proof.Machine

/-- The tree slot SLOT names (30_encoding.md R57). -/
def Trees.get (t : Trees) : Slot → TreeSlot
  | .t0 => t.t0
  | .t1 => t.t1
  | .t2 => t.t2
  | .t3 => t.t3

/-- The slots with slot k replaced. -/
def Trees.set (t : Trees) (k : Slot) (v : TreeSlot) : Trees :=
  match k with
  | .t0 => { t with t0 := v }
  | .t1 => { t with t1 := v }
  | .t2 => { t with t2 := v }
  | .t3 => { t with t3 := v }

/-- Writes slot Tk. -/
def writeSlot (k : Slot) (v : TreeSlot) : Engine Unit := fun s => .ok () { s with trees := s.trees.set k v }

/-- [CLEN[i], ..., CLEN[i+n-1]] (41_huffman.md R84). -/
def clenList (i : Nat) : Nat → Engine (List Nat)
  | 0 => pure []
  | n + 1 => do
    let l ← readClen i
    let ls ← clenList (i + 1) n
    pure (l :: ls)

/-- The bytes IN[i..i+n-1] (43_checksum_and_control.md R112), one byte at a time (20_memory.md R49). -/
def inList (i : Nat) : Nat → Engine (List Byte)
  | 0 => pure []
  | n + 1 => do
    let b ← readIn i
    let bs ← inList (i + 1) n
    pure (b :: bs)

/-- The bytes OUT[i..i+n-1] (42_inflate.md R107). -/
def outList (i : Nat) : Nat → Engine (List Byte)
  | 0 => pure []
  | n + 1 => do
    let b ← readOut i
    let bs ← outList (i + 1) n
    pure (b :: bs)

end Sys2Proof.Machine
end

