-- ==== Sys2Proof/Machine/Adler.lean ====
section
/-! DEFINITION. The Adler-32 unit (43_checksum_and_control.md R110 to R112): the checksum function and ADLER32. -/

namespace Sys2Proof.Machine

open Host (Outcome)

/-- The modulus of both sums (43_checksum_and_control.md R110). -/
def adlerBase : Nat := 65521

/-- The two running sums (lower, upper) over the bytes, as exact integers (43_checksum_and_control.md R110). -/
def adlerSums : List Byte → Nat → Nat → Nat × Nat
  | [], lower, upper => (lower, upper)
  | b :: bs, lower, upper => adlerSums bs (lower + b.toNat) (upper + (lower + b.toNat))

/-- ((upper mod 65521) << 16) | (lower mod 65521), a 32-bit value (43_checksum_and_control.md R110). -/
def adlerPack (sums : Nat × Nat) : Word :=
  (BitVec.ofNat 32 (sums.2 % adlerBase) <<< 16) ||| BitVec.ofNat 32 (sums.1 % adlerBase)

/-- Adler32(seed, bytes): lower starts at seed[15:0], upper at seed[31:16] (43_checksum_and_control.md R110). -/
def adler32 (seed : Word) (bytes : List Byte) : Word :=
  adlerPack (adlerSums bytes (seed.extractLsb' 0 16).toNat (seed.extractLsb' 16 16).toNat)

/-- ADLER32: the checksum of IN[0..IN_LEN-1] with seed ARG, into ADLER_CALC and RESULT (43_checksum_and_control.md R112). -/
def execAdler32 (s : State) : Outcome State Fault Refusal :=
  runCommand (do
    checkInLen
    let bytes ← inList 0 s.inLen.toNat
    let v := adler32 s.arg bytes
    modify fun s => { s with adlerCalc := v }
    pure v) s

end Sys2Proof.Machine
end

