-- ==== Sys2Proof/Machine/BitReader.lean ====
section
/-! DEFINITION. The bit-stream reader (40_bitstream.md): the primitives BsGet and BsAlign and the commands BS_INIT,
BS_GET, BS_SKIP and BS_ALIGN. -/

namespace Sys2Proof.Machine

open Host (Outcome)

/-- A reader at the start of a stream: BS_OFFSET, BS_BITCNT and ACC 0 (40_bitstream.md R74). -/
def Reader.start (mode : BitOrder) : Reader := ⟨mode, 0, 0, 0⟩

/-- Avail, the bits available to a read (40_bitstream.md R67); Nat subtraction is `rem`'s 0 when IN_LEN ≤ BS_OFFSET. -/
def Reader.avail (r : Reader) (inLen : Nat) : Nat :=
  let rem := inLen - r.offset
  match r.mode with
  | .deflate => r.bitcnt + 8 * rem
  | .lzx => r.bitcnt + 16 * (rem / 2)

/-- One turn of the DEFLATE-order refill: loads byte b above the pending bits (40_bitstream.md R69). -/
def Reader.loadByte (r : Reader) (b : Byte) : Reader :=
  { r with
    acc := r.acc ||| (b.setWidth 64 <<< r.bitcnt)
    bitcnt := r.bitcnt + 8
    offset := r.offset + 1 }

/-- One turn of the LZX-order refill: loads the little-endian word of bytes lo, hi below the pending bits
(40_bitstream.md R70). -/
def Reader.loadWord (r : Reader) (lo hi : Byte) : Reader :=
  { r with
    acc := r.acc ||| ((lo.setWidth 64 ||| (hi.setWidth 64 <<< 8)) <<< (48 - r.bitcnt))
    bitcnt := r.bitcnt + 16
    offset := r.offset + 2 }

/-- One turn of the lazy refill: a byte in DEFLATE order, a 16-bit word in LZX order (40_bitstream.md R69, R70). -/
def refillOne : Engine Unit := do
  let s ← get
  match s.bs.mode with
  | .deflate =>
    let b ← readIn s.bs.offset
    modify fun s => { s with bs := s.bs.loadByte b }
  | .lzx =>
    let lo ← readIn s.bs.offset
    let hi ← readIn (s.bs.offset + 1)
    modify fun s => { s with bs := s.bs.loadWord lo hi }

/-- The loop "while BS_BITCNT < n" of the lazy refill (40_bitstream.md R69, R70). Each turn adds at least 8 bits, so n
turns always suffice. -/
def refill (n : Nat) : Nat → Engine Unit
  | 0 => pure ()
  | fuel + 1 => do
    let s ← get
    if s.bs.bitcnt < n then do
      refillOne
      refill n fuel
    else pure ()

/-- The next n pending bits as a value: ACC[n-1:0] in DEFLATE order, ACC[63:64-n] in LZX order (40_bitstream.md R69, R70). -/
def Reader.peek (r : Reader) (n : Nat) : Word :=
  match r.mode with
  | .deflate => BitVec.ofNat 32 (r.acc.toNat % 2 ^ n)
  | .lzx => (r.acc >>> (64 - n)).setWidth 32

/-- The reader with the next n pending bits consumed (40_bitstream.md R69, R70, R73). -/
def Reader.drop (r : Reader) (n : Nat) : Reader :=
  { r with
    acc := match r.mode with
      | .deflate => r.acc >>> n
      | .lzx => r.acc <<< n
    bitcnt := r.bitcnt - n }

/-- Takes the next n pending bits as a value and consumes them (40_bitstream.md R69, R70). -/
def consume (n : Nat) : Engine Word := fun s => .ok (s.bs.peek n) { s with bs := s.bs.drop n }

/-- The part of BsGet after its checks: refill, take n bits, consume them (40_bitstream.md R69, R70). -/
def takeBits (n : Nat) : Engine Word := do
  refill n n
  consume n

/-- BsGet(n), all-or-nothing (40_bitstream.md R68). -/
def bsGet (n : Nat) : Engine Word := fun s =>
  if s.bs.avail s.inLen.toNat < n then raise .fmtInputExhausted s
  else if n = 0 then .ok 0 s
  else takeBits n s

/-- BsAlign() (40_bitstream.md R73). -/
def Reader.align (r : Reader) : Reader :=
  match r.mode with
  | .deflate => r.drop (r.bitcnt % 8)
  | .lzx => r.drop (r.bitcnt % 16)

/-- BsAlign() as a piece of a command (40_bitstream.md R73). -/
def bsAlign : Engine Unit := fun s => .ok () { s with bs := s.bs.align }

/-- The checks and the read that BS_GET and BS_SKIP share: N, then IN_LEN, then BsGet (40_bitstream.md R75, R76;
60_exceptions.md R119). -/
def getBits (n : Nat) : Engine Word := do
  failIf (Config.nmaxGet < n) .argNRange
  checkInLen
  bsGet n

/-- BS_INIT: BS_MODE gets the CTRL.MODE its acceptance took (40_bitstream.md R74, 70_reset_and_hazards.md R135). -/
def execBsInit (s : State) : Outcome State Fault Refusal :=
  .next (complete .ok 0 { s with bs := Reader.start s.cmdMode })

/-- BS_GET N (40_bitstream.md R75). -/
def execBsGet (n : Nat) (s : State) : Outcome State Fault Refusal :=
  runCommand (getBits n) s

/-- BS_SKIP N: RESULT stays 0 (40_bitstream.md R76). -/
def execBsSkip (n : Nat) (s : State) : Outcome State Fault Refusal :=
  runCommand (do let _ ← getBits n; pure 0) s

/-- BS_ALIGN (40_bitstream.md R77). -/
def execBsAlign (s : State) : Outcome State Fault Refusal :=
  .next (complete .ok 0 { s with bs := s.bs.align })

end Sys2Proof.Machine
end

