-- ==== Sys2Proof/Machine/Huffman.lean ====
section
/-! DEFINITION. The canonical-Huffman unit (41_huffman.md): HufBuild, HufDecode and the commands TREE_BUILD and
TREE_DECODE. -/

namespace Sys2Proof.Machine

open Host (Outcome)

/-- bl_count[L]: the number of symbols of length L, and bl_count[0] = 0 (41_huffman.md R81). -/
def blCount (lens : List Nat) (l : Nat) : Nat := if l = 0 then 0 else lens.count l

/-- next_code[L]: the first code of length L (41_huffman.md R81). -/
def firstCode (lens : List Nat) : Nat → Nat
  | 0 => 0
  | l + 1 => (firstCode lens l + blCount lens l) * 2

/-- The second loop of the code assignment: symbols in ascending order take the next code of their length
(41_huffman.md R81); an absent symbol has no code, written 0. -/
def assignCodes : List Nat → List Nat → List Nat
  | _, [] => []
  | next, l :: lens =>
    if l = 0 then 0 :: assignCodes next lens
    else next.getD l 0 :: assignCodes (next.set l (next.getD l 0 + 1)) lens

/-- CODE[s] for each symbol s, lengths 1..16 (41_huffman.md R81). -/
def codes (lens : List Nat) : List Nat :=
  assignCodes ((List.range (Config.maxlenLimit + 1)).map (firstCode lens)) lens

/-- The over-subscription check from length L on, with `left` code strings left: left <- 2 * left - bl_count[L] goes
below 0 (41_huffman.md R82). -/
def oversubscribedFrom (lens : List Nat) : Nat → Nat → Int → Bool
  | 0, _, _ => false
  | n + 1, l, left =>
    let left' := 2 * left - (blCount lens l : Int)
    decide (left' < 0) || oversubscribedFrom lens n (l + 1) left'

/-- The lengths are over-subscribed: left < 0 at some L = 1..maxlen (41_huffman.md R82). -/
def oversubscribed (lens : List Nat) (maxlen : Nat) : Bool := oversubscribedFrom lens maxlen 1 1

/-- Some code length exceeds the configured maximum (41_huffman.md R82). -/
def lenTooLong (lens : List Nat) (maxlen : Nat) : Bool := lens.any (fun l => maxlen < l)

/-- The slot a successful build writes (41_huffman.md R83). -/
def TreeSlot.built (lens : List Nat) (maxlen : Nat) : TreeSlot :=
  ⟨true, lens.length, maxlen, lens.foldl max 0, lens⟩

/-- HufBuild(k, lens, maxlen): clear the slot, check, write it (41_huffman.md R82, R83). -/
def hufBuild (k : Slot) (lens : List Nat) (maxlen : Nat) : Engine Unit := do
  writeSlot k .cleared
  failIf (lenTooLong lens maxlen) .fmtLenTooLong
  failIf (oversubscribed lens maxlen) .fmtOversubscribed
  writeSlot k (.built lens maxlen)

/-- The slot's code book: (LEN[s], CODE[s]) for s = 0..COUNT-1 (10_state.md R36, 41_huffman.md R81). -/
def TreeSlot.book (t : TreeSlot) : List (Nat × Nat) := (t.lens.zip (codes t.lens)).take t.count

/-- The symbol s < COUNT with LEN[s] == L and CODE[s] == c, if any (41_huffman.md R85). -/
def symbolOf : List (Nat × Nat) → Nat → Nat → Option Nat
  | [], _, _ => none
  | (l', c') :: book, l, c => if l' = l ∧ c' = c then some 0 else (symbolOf book l c).map (· + 1)

/-- The loop of HufDecode from the state (c, L), with `fuel` = LMAX - L bits still allowed (41_huffman.md R85). With no bit
left the string is no code: at L = LMAX after a bit, or at once in an empty tree. -/
def hufWalk (book : List (Nat × Nat)) : Nat → Nat → Nat → Engine Nat
  | 0, _, _ => raise .fmtInvalidCode
  | fuel + 1, c, l => do
    let b ← bsGet 1
    match symbolOf book (l + 1) (2 * c + b.toNat) with
    | some sym => pure sym
    | none => hufWalk book fuel (2 * c + b.toNat) (l + 1)

/-- HufDecode(k), the first bit consumed being the most significant of the code (41_huffman.md R85, R86). -/
def hufDecode (k : Slot) : Engine Nat := fun s =>
  hufWalk (s.trees.get k).book (s.trees.get k).lmax 0 0 s

/-- TREE_BUILD's operand check (41_huffman.md R84): MAXLEN is 0 or above 16, or COUNT is above 512. -/
def treeParamBad (count maxlen : Nat) : Bool :=
  decide (maxlen < 1) || decide (Config.maxlenLimit < maxlen) || decide (Config.treeCap < count)

/-- TREE_BUILD SLOT, COUNT, MAXLEN (41_huffman.md R84). -/
def execTreeBuild (slot : Slot) (count maxlen : Nat) (s : State) : Outcome State Fault Refusal :=
  runCommand (do
    failIf (treeParamBad count maxlen) .argTreeParam
    let lens ← clenList 0 count
    hufBuild slot lens maxlen
    pure 0) s

/-- TREE_DECODE's slot check: VALID = 0 raises ARG_TREE_INVALID (41_huffman.md R87). -/
def checkValid (slot : Slot) : Engine Unit := fun s => failIf (!(s.trees.get slot).valid) .argTreeInvalid s

/-- TREE_DECODE SLOT: slot validity, then IN_LEN, then one symbol (41_huffman.md R87, 60_exceptions.md R119). -/
def execTreeDecode (slot : Slot) (s : State) : Outcome State Fault Refusal :=
  runCommand (do
    checkValid slot
    checkInLen
    let sym ← hufDecode slot
    pure (BitVec.ofNat 32 sym)) s

end Sys2Proof.Machine
end

