-- ==== Sys2Proof/Machine/Tables.lean ====
section
/-! DEFINITION. The constant tables of the DEFLATE engine (10_state.md R11; 42_inflate.md R96, R98, R103, R104). -/

namespace Sys2Proof.Machine

/-- The fixed lit/len code lengths: 8 for 0..143, 9 for 144..255, 7 for 256..279, 8 for 280..287 (42_inflate.md R96). -/
def fixLit : List Nat :=
  List.replicate 144 8 ++ List.replicate 112 9 ++ List.replicate 24 7 ++ List.replicate 8 8

/-- The fixed distance code lengths: 30 symbols of length 5 (42_inflate.md R96). -/
def fixDist : List Nat := List.replicate 30 5

/-- ORDER, the order the pre-code lengths are read in (42_inflate.md R98). -/
def preOrder : List Nat := [16, 17, 18, 0, 8, 7, 9, 6, 10, 5, 11, 4, 12, 3, 13, 2, 14, 1, 15]

/-- LBASE for symbols 257..285 (42_inflate.md R103). -/
def lBase : List Nat :=
  [3, 4, 5, 6, 7, 8, 9, 10, 11, 13, 15, 17, 19, 23, 27,
   31, 35, 43, 51, 59, 67, 83, 99, 115, 131, 163, 195, 227, 258]

/-- LEXTRA for symbols 257..285 (42_inflate.md R103). -/
def lExtra : List Nat :=
  [0, 0, 0, 0, 0, 0, 0, 0, 1, 1, 1, 1, 2, 2, 2,
   2, 3, 3, 3, 3, 4, 4, 4, 4, 5, 5, 5, 5, 0]

/-- DBASE for distance symbols 0..29 (42_inflate.md R104). -/
def dBase : List Nat :=
  [1, 2, 3, 4, 5, 7, 9, 13, 17, 25, 33, 49, 65, 97, 129,
   193, 257, 385, 513, 769, 1025, 1537, 2049, 3073, 4097, 6145, 8193, 12289, 16385, 24577]

/-- DEXTRA for distance symbols 0..29 (42_inflate.md R104). -/
def dExtra : List Nat :=
  [0, 0, 0, 0, 1, 1, 2, 2, 3, 3, 4, 4, 5, 5, 6,
   6, 7, 7, 8, 8, 9, 9, 10, 10, 11, 11, 12, 12, 13, 13]

end Sys2Proof.Machine
end

