-- ==== Sys2Proof/Machine/Inflate.lean ====
section
/-! DEFINITION. The DEFLATE engine (42_inflate.md): the command INFLATE, one definition per rule of its body. -/

namespace Sys2Proof.Machine

open Host (Outcome)

/-- Initialisation (42_inflate.md R91). -/
def inflateInit (s : State) : State :=
  { s with
    bs := Reader.start .deflate
    outPos := 0
    zhdr := 0
    dictid := 0
    adlerCalc := 0
    adlerStored := 0
    blkinfo := 0
    status := { s.status with ckpres := false, ckok := false, fdict := false } }

/-- Four bytes by BsGet(8), the first most significant (42_inflate.md R93, R107). -/
def getBE32 : Engine Word := do
  let b0 ← bsGet 8
  let b1 ← bsGet 8
  let b2 ← bsGet 8
  let b3 ← bsGet 8
  pure ((b0 <<< 24) ||| (b1 <<< 16) ||| (b2 <<< 8) ||| b3)

/-- The preset dictionary id, when FLG[5] = 1: FDICT is set first, DICTID once its four bytes are read (42_inflate.md R93). -/
def presetDict (flg : Word) : Engine Unit :=
  if flg.getLsbD 5 then do
    modify fun s => { s with status := { s.status with fdict := true } }
    let id ← getBE32
    modify fun s => { s with dictid := id }
  else pure ()

/-- The zlib header: method before window, FCHECK not validated (42_inflate.md R92, R93). -/
def zlibHeader : Engine Unit := do
  let cmf ← bsGet 8
  let flg ← bsGet 8
  modify fun s => { s with zhdr := (flg <<< 8) ||| cmf }
  failIf (cmf.extractLsb' 0 4 != 8) .fmtBadMethod
  failIf (decide ((cmf.extractLsb' 4 4).toNat > 7)) .fmtBadWindow
  presetDict flg

/-- BLKINFO after a block header: NBLK + 1 modulo 2^16, BFINAL, BTYPE (42_inflate.md R94). -/
def nextBlkinfo (blkinfo bfinal btype : Word) : Word :=
  ((blkinfo.extractLsb' 16 16 + 1).setWidth 32 <<< 16) ||| (bfinal <<< 2) ||| btype

/-- The block header: answers BFINAL and BTYPE (42_inflate.md R94). -/
def blockHeader : Engine (Word × Word) := do
  let bfinal ← bsGet 1
  let btype ← bsGet 2
  modify fun s => { s with blkinfo := nextBlkinfo s.blkinfo bfinal btype }
  pure (bfinal, btype)

/-- The raw copy of a stored block: IN[BS_OFFSET] to OUT[OUT_POS], both advanced, n times (42_inflate.md R95). -/
def storedCopy : Nat → Engine Unit
  | 0 => pure ()
  | n + 1 => do
    let s ← get
    let b ← readIn s.bs.offset
    pushOut b
    modify fun s => { s with bs := { s.bs with offset := s.bs.offset + 1 } }
    storedCopy n

/-- The two checks of a stored block of LEN bytes, input before output (42_inflate.md R95). -/
def storedChecks (len : Nat) : Engine Unit := do
  let s ← get
  failIf (decide (s.inLen.toNat - s.bs.offset < len)) .fmtInputExhausted
  failIf (decide (s.outCap.toNat < s.outPos + len)) .bndOutTooSmall

/-- A stored block (42_inflate.md R95). -/
def storedBlock : Engine Unit := do
  bsAlign
  let len ← bsGet 16
  let nlen ← bsGet 16
  failIf (nlen != len ^^^ 0xFFFF) .fmtStoredNlen
  storedChecks len.toNat
  storedCopy len.toNat

/-- A literal (42_inflate.md R102). -/
def literal (sym : Nat) : Engine Unit := do
  let s ← get
  failIf (decide (s.outCap.toNat ≤ s.outPos)) .bndOutTooSmall
  pushOut (BitVec.ofNat 8 sym)

/-- The copy length of a length symbol 257..285 (42_inflate.md R103). -/
def matchLength (sym : Nat) : Engine Nat := do
  let extra ← bsGet (lExtra.getD (sym - 257) 0)
  pure (lBase.getD (sym - 257) 0 + extra.toNat)

/-- The copy distance (42_inflate.md R104). -/
def matchDistance : Engine Nat := do
  let d ← hufDecode .t1
  failIf (decide (30 ≤ d)) .fmtInvalidSymbol
  let extra ← bsGet (dExtra.getD d 0)
  pure (dBase.getD d 0 + extra.toNat)

/-- The byte-by-byte copy of a match from `dist` bytes back, n times (42_inflate.md R105). -/
def matchCopy (dist : Nat) : Nat → Engine Unit
  | 0 => pure ()
  | n + 1 => do
    let s ← get
    let b ← readOut (s.outPos - dist)
    pushOut b
    matchCopy dist n

/-- The two checks of a match, distance (against OUT_POS only, R106) before capacity (42_inflate.md R105). -/
def matchChecks (len dist : Nat) : Engine Unit := do
  let s ← get
  failIf (decide (s.outPos < dist)) .bndDistTooFar
  failIf (decide (s.outCap.toNat < s.outPos + len)) .bndOutTooSmall

/-- A back-reference (42_inflate.md R103 to R106). -/
def backReference (sym : Nat) : Engine Unit := do
  let len ← matchLength sym
  let dist ← matchDistance
  matchChecks len dist
  matchCopy dist len

/-- The symbol loop with slots T0 and T1, at most `fuel` symbols (42_inflate.md R101; log 11). -/
def symbolLoop : Nat → Engine Unit
  | 0 => stopFault .loopBound
  | fuel + 1 => do
    let sym ← hufDecode .t0
    if sym < 256 then do
      literal sym
      symbolLoop fuel
    else if sym = 256 then pure ()
    else if sym ≤ 285 then do
      backReference sym
      symbolLoop fuel
    else raise .fmtInvalidSymbol

/-- A bound on the turns of INFLATE's loops, each of which consumes a bit of IN (70_reset_and_hazards.md R133; log 11). -/
def State.turns (s : State) : Nat := 8 * s.inLen.toNat + 1

/-- The symbol loop of one block. -/
def blockSymbols : Engine Unit := fun s => symbolLoop s.turns s

/-- A fixed-Huffman block (42_inflate.md R96). -/
def fixedBlock : Engine Unit := do
  hufBuild .t0 fixLit 15
  hufBuild .t1 fixDist 15
  blockSymbols

/-- Reads one 3-bit pre-code length for each position of `order` into PL (42_inflate.md R98). -/
def preLengths : List Nat → List Nat → Engine (List Nat)
  | [], pl => pure pl
  | o :: order, pl => do
    let l ← bsGet 3
    preLengths order (pl.set o l.toNat)

/-- A run of r copies of v appended to CL, refused when it passes `total` (42_inflate.md R99). -/
def repeatLength (total : Nat) (cl : List Nat) (r v : Nat) : Engine (List Nat) := do
  failIf (decide (total < cl.length + r)) .fmtRepeatOverrun
  pure (cl ++ List.replicate r v)

/-- One code-length symbol: CL[0..i-1] to the longer CL (42_inflate.md R99). -/
def codeLengthStep (total : Nat) (cl : List Nat) : Engine (List Nat) := do
  let sym ← hufDecode .t2
  if sym ≤ 15 then pure (cl ++ [sym])
  else if sym = 16 then do
    failIf cl.isEmpty .fmtRepeatNoPrev
    let x ← bsGet 2
    repeatLength total cl (3 + x.toNat) (cl.getLastD 0)
  else if sym = 17 then do
    let x ← bsGet 3
    repeatLength total cl (3 + x.toNat) 0
  else do
    let x ← bsGet 7
    repeatLength total cl (11 + x.toNat) 0

/-- The loop "while i < total" over CL (42_inflate.md R99). Each turn appends at least one length, so `total` turns
always suffice. -/
def codeLengths (total : Nat) : Nat → List Nat → Engine (List Nat)
  | 0, cl => pure cl
  | fuel + 1, cl =>
    if cl.length < total then do
      let cl' ← codeLengthStep total cl
      codeLengths total fuel cl'
    else pure cl

/-- The counts HLIT, HDIST and HCLEN, checked after the three reads (42_inflate.md R97). -/
def dynamicCounts : Engine (Nat × Nat × Nat) := do
  let hlit ← bsGet 5
  let hdist ← bsGet 5
  let hclen ← bsGet 4
  failIf (decide (286 < hlit.toNat + 257)) .fmtBadHlit
  failIf (decide (30 < hdist.toNat + 1)) .fmtBadHdist
  pure (hlit.toNat + 257, hdist.toNat + 1, hclen.toNat + 4)

/-- A dynamic-Huffman block (42_inflate.md R97 to R100). -/
def dynamicBlock : Engine Unit := do
  let (hlit, hdist, hclen) ← dynamicCounts
  let pl ← preLengths (preOrder.take hclen) (List.replicate 19 0)
  hufBuild .t2 pl 7
  let cl ← codeLengths (hlit + hdist) (hlit + hdist) []
  failIf (decide (cl.getD 256 0 = 0)) .fmtEobZeroLen
  hufBuild .t0 (cl.take hlit) 15
  hufBuild .t1 (cl.drop hlit) 15
  blockSymbols

/-- The data of a block by BTYPE; 3 is reserved (42_inflate.md R89, R94). -/
def blockBody (btype : Word) : Engine Unit :=
  match btype.toNat with
  | 0 => storedBlock
  | 1 => fixedBlock
  | 2 => dynamicBlock
  | _ => raise .fmtReservedBtype

/-- The blocks, until the one with BFINAL = 1, at most `fuel` of them (42_inflate.md R89, R94; log 11). -/
def blockLoop : Nat → Engine Unit
  | 0 => stopFault .loopBound
  | fuel + 1 => do
    let (bfinal, btype) ← blockHeader
    blockBody btype
    if bfinal = 1 then pure () else blockLoop fuel

/-- The comparison of the trailer with ADLER_CALC: CKPRES, then the error or CKOK (42_inflate.md R107). -/
def checkTrailer : Engine Unit := do
  let stored ← getBE32
  modify fun s => { s with adlerStored := stored, status := { s.status with ckpres := true } }
  let s ← get
  failIf (s.adlerStored != s.adlerCalc) .chkAdlerMismatch
  modify fun s => { s with status := { s.status with ckok := true } }

/-- The end of the stream (42_inflate.md R107). -/
def endOfStream : Engine Unit := do
  bsAlign
  let s ← get
  let out ← outList 0 s.outPos
  modify fun s => { s with adlerCalc := adler32 1 out }
  if 4 ≤ s.inLen.toNat - s.bs.offset then checkTrailer else pure ()

/-- INFLATE after its argument checks (42_inflate.md R89). -/
def inflateBody : Engine Unit := do
  modify inflateInit
  zlibHeader
  let s ← get
  blockLoop s.turns
  endOfStream

/-- INFLATE's argument check (42_inflate.md R90). -/
def inflateArgsBad (s : State) : Bool :=
  decide (s.inLen.toNat < 2) || decide (Config.inMax < s.inLen.toNat) || decide (Config.outMax < s.outCap.toNat)

/-- The completion of INFLATE after its argument checks: T0, T1 and T2 are cleared and RESULT is OUT_POS, with success
or with any error (42_inflate.md R108). -/
def inflateDone (e : ErrCode) (s : State) : State :=
  complete e (BitVec.ofNat 32 s.outPos)
    { s with trees := { s.trees with t0 := .cleared, t1 := .cleared, t2 := .cleared } }

/-- INFLATE (42_inflate.md R89, R90, R108). -/
def execInflate (s : State) : Outcome State Fault Refusal :=
  if inflateArgsBad s then .next (complete .argLenRange 0 s)
  else
    match inflateBody s with
    | .ok () t => .next (inflateDone .ok t)
    | .error (.raise e) t => .next (inflateDone e t)
    | .error (.fault f) _ => .fault f

end Sys2Proof.Machine
end

