-- ==== Sys2Proof/Machine/Dispatch.lean ====
section
/-! DEFINITION. The meaning of every command (30_encoding.md R58): one arm per constructor of Instr. -/

namespace Sys2Proof.Machine
open Sys2Proof

def exec (i : Instr) (s : State) : Host.Outcome State Fault Refusal :=
  match i with
  | .nop => Sys2Proof.Machine.execNop s
  | .bsInit => Sys2Proof.Machine.execBsInit s
  | .bsGet n => Sys2Proof.Machine.execBsGet n s
  | .bsSkip n => Sys2Proof.Machine.execBsSkip n s
  | .bsAlign => Sys2Proof.Machine.execBsAlign s
  | .treeBuild slot count maxlen => Sys2Proof.Machine.execTreeBuild slot count maxlen s
  | .treeDecode slot => Sys2Proof.Machine.execTreeDecode slot s
  | .inflate => Sys2Proof.Machine.execInflate s
  | .adler32 => Sys2Proof.Machine.execAdler32 s

end Sys2Proof.Machine
end

