-- ==== Sys2Proof/Machine/Flags.lean ====
section
/-! DEFINITION. The words and flags the host sees: the error codes (60_exceptions.md R117), the STATUS and CTRL words
(10_state.md R16, R18), TREE_INFO (R33), the reader's position (R25) and the interrupt output (60_exceptions.md R123). -/

namespace Sys2Proof.Machine

/-- One bit as a word. -/
def bit (b : Bool) : Word := if b then 1 else 0

/-- The error codes (60_exceptions.md R117); the class is the high nibble (R118). -/
def ErrCode.code : ErrCode → BitVec 8
  | .ok => 0x00
  | .argIllegalCmd => 0x10
  | .argNRange => 0x11
  | .argTreeParam => 0x12
  | .argTreeInvalid => 0x13
  | .argLenRange => 0x14
  | .bndOutTooSmall => 0x20
  | .bndDistTooFar => 0x21
  | .fmtInputExhausted => 0x30
  | .fmtBadMethod => 0x31
  | .fmtBadWindow => 0x32
  | .fmtReservedBtype => 0x33
  | .fmtStoredNlen => 0x34
  | .fmtBadHlit => 0x35
  | .fmtBadHdist => 0x36
  | .fmtLenTooLong => 0x37
  | .fmtOversubscribed => 0x38
  | .fmtInvalidCode => 0x39
  | .fmtRepeatNoPrev => 0x3A
  | .fmtRepeatOverrun => 0x3B
  | .fmtEobZeroLen => 0x3C
  | .fmtInvalidSymbol => 0x3D
  | .chkAdlerMismatch => 0x40

/-- The bit of a mode: 0 = DEFLATE order, 1 = LZX order (10_state.md R16, R26). -/
def BitOrder.toBit : BitOrder → Bool
  | .deflate => false
  | .lzx => true

/-- The mode of a bit (10_state.md R16). -/
def BitOrder.ofBit (b : Bool) : BitOrder := if b then .lzx else .deflate

/-- CTRL as read: MODE bit 0, IE bit 1, bits 31:2 read 0 (10_state.md R16). -/
def Ctrl.word (c : Ctrl) : Word := bit c.mode.toBit ||| (bit c.ie <<< 1)

/-- CTRL after a write of w: bits 31:2 are ignored (10_state.md R16). -/
def Ctrl.ofWord (w : Word) : Ctrl := ⟨BitOrder.ofBit (w.getLsbD 0), w.getLsbD 1⟩

/-- STATUS as read (10_state.md R18): BUSY 0, DONE 1, ERR 2, OVR 3, ERRCODE 15:8, CKPRES 16, CKOK 17, FDICT 18,
the other bits 0. -/
def State.statusWord (s : State) : Word :=
  bit s.busy ||| (bit s.status.done <<< 1) ||| (bit s.status.err <<< 2) ||| (bit s.status.ovr <<< 3)
    ||| (s.status.errcode.code.setWidth 32 <<< 8) ||| (bit s.status.ckpres <<< 16) ||| (bit s.status.ckok <<< 17)
    ||| (bit s.status.fdict <<< 18)

/-- STATUS after a host write of w: DONE and OVR are cleared where the written bit is 1, nothing else changes
(10_state.md R18). -/
def Status.writeOneToClear (st : Status) (w : Word) : Status :=
  { st with done := st.done && !w.getLsbD 1, ovr := st.ovr && !w.getLsbD 3 }

/-- TREE_INFO of a slot: COUNT 9:0, MAXLEN 20:16, LMAX 28:24, VALID 31 (10_state.md R33). -/
def TreeSlot.info (t : TreeSlot) : Word :=
  ((BitVec.ofNat 10 t.count).setWidth 32) ||| ((BitVec.ofNat 5 t.maxlen).setWidth 32 <<< 16)
    ||| ((BitVec.ofNat 5 t.lmax).setWidth 32 <<< 24) ||| (bit t.valid <<< 31)

/-- BS_BITPOS: 8 * BS_OFFSET - BS_BITCNT, computed at each read (10_state.md R25). -/
def Reader.bitpos (r : Reader) : Nat := 8 * r.offset - r.bitcnt

/-- The interrupt output: IRQ = CTRL.IE & STATUS.DONE at every instant (10_state.md R38, 60_exceptions.md R123). -/
def State.irq (s : State) : Bool := s.ctrl.ie && s.status.done

end Sys2Proof.Machine
end

