-- ==== Sys2Proof/Machine/HostPort.lean ====
section
/-! DEFINITION. The host interface (20_memory.md R42 to R48, R52; 10_state.md R14 to R34; 70_reset_and_hazards.md
R129, R130): what one host action does to the block. -/

namespace Sys2Proof.Machine

open Host (Outcome)

/-- The bytes of an access (20_memory.md R44). -/
def Width.bytes : Width → Nat
  | .w8 => 1
  | .w16 => 2
  | .w32 => 4

/-- What a host access reaches (20_memory.md R42). -/
inductive Target where
  | reg (offset : Nat)
  | clen (index : Nat)
  | inWindow (index : Nat)
  | outWindow (index : Nat)
  | reserved
deriving DecidableEq, Repr

/-- The target of an access, by the host address map (20_memory.md R42); none: outside the host's contract, a register or
CLEN access that is not 32 bits wide and 4-aligned, a window access that is not naturally aligned (R43 to R46), or an
access that runs out of a reserved range (log 9). -/
def target (w : Width) (addr : BitVec 24) : Option Target :=
  let a := addr.toNat
  if a < 0x001000 then
    if w = .w32 ∧ a % 4 = 0 then some (.reg a) else none
  else if a < 0x001800 then
    if w = .w32 ∧ a % 4 = 0 then some (.clen ((a - 0x001000) / 4)) else none
  else if a < 0x400000 then
    if a + w.bytes ≤ 0x400000 then some .reserved else none
  else if a < 0x800000 then
    if a % w.bytes = 0 then some (.inWindow (a - 0x400000)) else none
  else if a < 0xC00000 then
    if a % w.bytes = 0 then some (.outWindow (a - 0x800000)) else none
  else
    if a + w.bytes ≤ 0x1000000 then some .reserved else none

/-- A host read of the register at an offset (10_state.md R14 to R34). CMD is write only and reads 0 (R17); a reserved
offset reads 0 (R34). -/
def readReg (s : State) (offset : Nat) : Word :=
  match offset with
  | 0x000 => Config.idWord
  | 0x004 => s.ctrl.word
  | 0x00C => s.statusWord
  | 0x010 => s.result
  | 0x014 => s.arg
  | 0x018 => s.inLen
  | 0x01C => s.outCap
  | 0x020 => BitVec.ofNat 32 s.bs.offset
  | 0x024 => (BitVec.ofNat 7 s.bs.bitcnt).setWidth 32
  | 0x028 => BitVec.ofNat 32 s.bs.bitpos
  | 0x02C => bit s.bs.mode.toBit
  | 0x030 => BitVec.ofNat 32 s.outPos
  | 0x034 => s.zhdr
  | 0x038 => s.dictid
  | 0x03C => s.adlerCalc
  | 0x040 => s.adlerStored
  | 0x044 => s.blkinfo
  | 0x048 => s.trees.t0.info
  | 0x04C => s.trees.t1.info
  | 0x050 => s.trees.t2.info
  | 0x054 => s.trees.t3.info
  | _ => 0

/-- A read of n bytes of a window of `size` bytes from index i, little-endian; a byte at an index ≥ size reads 0
(20_memory.md R44, R47); an unwritten byte is answered by its index (93 I1). -/
def readWindow (size : Nat) (m : Memory Byte) (i : Nat) : Nat → Except Nat Word
  | 0 => .ok 0
  | n + 1 =>
    match (if size ≤ i then some 0 else m.read i), readWindow size m (i + 1) n with
    | some b, .ok hi => .ok ((hi <<< 8) ||| b.setWidth 32)
    | none, _ => .error i
    | _, .error j => .error j

/-- A write of n bytes of v to a window of `size` bytes from index i, little-endian; a byte at an index ≥ size is
ignored (20_memory.md R44, R47). -/
def writeWindow (size : Nat) (m : Memory Byte) (i : Nat) (v : Word) : Nat → Memory Byte
  | 0 => m
  | n + 1 =>
    writeWindow size (if size ≤ i then m else m.write i (v.setWidth 8)) (i + 1) (v >>> 8) n

/-- A host write to the register at an offset (10_state.md R14). CMD accepts a command, or, while BUSY, refuses it and sets
OVR (R17, 60_exceptions.md R122); STATUS is write-1-to-clear (R18); read-only registers and reserved offsets ignore it;
ARG, IN_LEN and OUT_CAP have no step while BUSY (20_memory.md R52). -/
def writeReg (addr : BitVec 24) (offset : Nat) (v : Word) (s : State) : Outcome State Fault Refusal :=
  match offset with
  | 0x004 => .next { s with ctrl := Ctrl.ofWord v }
  | 0x008 =>
    if s.busy then .next { s with status := { s.status with ovr := true } }
    else .next (accept v s)
  | 0x00C => .next { s with status := s.status.writeOneToClear v }
  | 0x014 => if s.busy then .refused (.hostWriteBusy addr) else .next { s with arg := v }
  | 0x018 => if s.busy then .refused (.hostWriteBusy addr) else .next { s with inLen := v }
  | 0x01C => if s.busy then .refused (.hostWriteBusy addr) else .next { s with outCap := v }
  | _ => .next s

/-- The reads that stay defined while BUSY: ID, CTRL and STATUS (20_memory.md R52). -/
def readableWhileBusy : Target → Bool
  | .reg offset => offset = 0x000 || offset = 0x004 || offset = 0x00C
  | _ => false

/-- A host read of w.bytes bytes of a target, while not BUSY or of ID, CTRL, STATUS (20_memory.md R43 to R47). No host read
has a side effect (R48); `rdata` is where the model shows the value (log 1). -/
def readTarget (w : Width) (t : Target) (s : State) : Outcome State Fault Refusal :=
  match t with
  | .reg offset => .next { s with rdata := readReg s offset }
  | .clen i =>
    match s.clen.read i with
    | some l => .next { s with rdata := l.setWidth 32 }
    | none => .fault (.unwritten .clen i)
  | .inWindow i =>
    match readWindow Config.inMax s.inRam i w.bytes with
    | .ok v => .next { s with rdata := v }
    | .error j => .fault (.unwritten .inRam j)
  | .outWindow i =>
    match readWindow Config.outMax s.outRam i w.bytes with
    | .ok v => .next { s with rdata := v }
    | .error j => .fault (.unwritten .outRam j)
  | .reserved => .next { s with rdata := 0 }

/-- The low w.bytes bytes of a word. -/
def Width.truncate (w : Width) (v : Word) : Word := BitVec.ofNat 32 (v.toNat % 2 ^ (8 * w.bytes))

/-- A host read: outside the contract it has no step (20_memory.md R46); while BUSY anything but ID, CTRL and STATUS
answers a free value (R52, log 3). -/
def hostRead (w : Width) (addr : BitVec 24) (s : State) : Outcome State Fault Refusal :=
  match target w addr with
  | none => .refused (.hostAccess w addr)
  | some t =>
    if s.busy && !readableWhileBusy t then
      .next { s with rdata := w.truncate (Config.busyRead s.free), free := s.free + 1 }
    else readTarget w t s

/-- A host write (20_memory.md R43 to R48, R52). -/
def hostWrite (w : Width) (addr : BitVec 24) (v : Word) (s : State) : Outcome State Fault Refusal :=
  match target w addr with
  | none => .refused (.hostAccess w addr)
  | some (.reg offset) => writeReg addr offset v s
  | some (.clen i) =>
    if s.busy then .refused (.hostWriteBusy addr)
    else .next { s with clen := s.clen.write i (v.setWidth 5) }
  | some (.inWindow i) =>
    if s.busy then .refused (.hostWriteBusy addr)
    else .next { s with inRam := writeWindow Config.inMax s.inRam i v w.bytes }
  | some (.outWindow i) =>
    if s.busy then .refused (.hostWriteBusy addr)
    else .next { s with outRam := writeWindow Config.outMax s.outRam i v w.bytes }
  | some .reserved => .next s

/-- The assertion of the reset input: every register, ACC and slot to its reset value, the RAMs unwritten, a command in
progress aborted without a completion (70_reset_and_hazards.md R129 to R131). What the host has still to do, what it has
read, and the count of free values drawn are not the block's (log 12). -/
def hostReset (s : State) : State :=
  { State.reset with host := s.host, rdata := s.rdata, free := s.free }

/-- One host action. -/
def hostAction (a : HostAction) (s : State) : Outcome State Fault Refusal :=
  match a with
  | .read w addr => hostRead w addr s
  | .write w addr v => hostWrite w addr v s
  | .reset => .next (hostReset s)

end Sys2Proof.Machine
end

