-- ==== Sys2Proof/Machine/Step.lean ====
section
/-! DEFINITION. One step of the machine: a host action, or the engine's whole command (70_reset_and_hazards.md R133;
20_memory.md R51). -/

namespace Sys2Proof.Machine

open Host (Outcome)

/-- The engine's step of the accepted word w: decode, then the command's meaning; an illegal word completes with
ARG_ILLEGAL_CMD (30_encoding.md R62). -/
def engineStep (w : Word) (s : State) : Outcome State Fault Refusal :=
  match decode w with
  | .ok i => exec i s
  | .error _ => .next (illegalCommand s)

/-- One step (70_reset_and_hazards.md R133). With a command accepted, the host makes `wait` more accesses and then the
engine steps; with no host access left the engine steps (fairness; log 2). With no command the host acts, and with no host
action the block is idle and holds everything (60_exceptions.md R126). -/
def step (s : State) : Outcome State Fault Refusal :=
  match s.cmd, s.host with
  | none, [] => .next s
  | none, a :: rest => hostAction a { s with host := rest }
  | some w, [] => engineStep w s
  | some w, a :: rest =>
    match s.wait with
    | 0 => engineStep w s
    | n + 1 => hostAction a { s with host := rest, wait := n }

/-- s with the command word w accepted and the engine to step next: what stands for a host's CMD write in a check of one
command (log 6). -/
def State.withFetchWord (s : State) (nbits w : Nat) : State :=
  { s with cmd := some (BitVec.ofNat 32 (w % 2 ^ nbits)), cmdMode := s.ctrl.mode, wait := 0 }

/-- s with a host program to run: the accesses the host makes from now on (20_memory.md R51; log 6). -/
def State.withHost (s : State) (program : List HostAction) : State := { s with host := program }

end Sys2Proof.Machine
end

