-- ==== Sys2Proof/Safety.lean ====
section
/-! DEFINITION. What counts as a good state of BSR-INFL, in the terms the statements use: the invariants the spec gives
(40_bitstream.md R72; 10_state.md R18, R23, R27, R28, R32, R33, R36), the bit stream of 40_bitstream.md R66, and what a
RAM holds. -/

namespace Sys2Proof.Machine

open Host (Outcome)

/-! ## Outcomes -/

/-- The step is taken: a next state that satisfies P. -/
def Completes (o : Outcome State Fault Refusal) (P : State → Prop) : Prop := ∃ t, o = .next t ∧ P t

/-- If the step is taken, its next state satisfies P. -/
def WhenNext (o : Outcome State Fault Refusal) (P : State → Prop) : Prop := ∀ t, o = .next t → P t

/-! ## RAMs -/

/-- A RAM in canonical form whose listed indices exist (20_memory.md R41). -/
def RamGood {α : Type} (size : Nat) (m : Memory α) : Prop := m.wf ∧ ∀ a ∈ m.map Prod.fst, a < size

/-- The RAM holds the list from index a on. -/
def Holds {α : Type} (m : Memory α) (a : Nat) (values : List α) : Prop :=
  ∀ i (h : i < values.length), m.read (a + i) = some values[i]

/-- Every location of [a, a+n) is written. -/
def Written {α : Type} (m : Memory α) (a n : Nat) : Prop := ∀ i, a ≤ i → i < a + n → (m.read i).isSome

/-- The three RAMs are good. -/
def RamsGood (s : State) : Prop :=
  RamGood Config.inMax s.inRam ∧ RamGood Config.outMax s.outRam ∧ RamGood Config.treeCap s.clen

/-! ## The bit reader -/

/-- The unit of a refill in bits: a byte, or a 16-bit word (40_bitstream.md R69, R70). -/
def BitOrder.unit : BitOrder → Nat
  | .deflate => 8
  | .lzx => 16

/-- ACC bits outside the pending field are 0 (10_state.md R35). -/
def AccClean (r : Reader) : Prop :=
  match r.mode with
  | .deflate => r.acc.toNat < 2 ^ r.bitcnt
  | .lzx => r.acc.toNat % 2 ^ (64 - r.bitcnt) = 0

/-- The reader's invariant between commands (40_bitstream.md R72, 10_state.md R23, R35): fewer pending bits than a unit,
BS_OFFSET even in LZX order, ACC clean, the pending bits among the bits loaded, BS_OFFSET at most IN_MAX. -/
def ReaderGood (r : Reader) : Prop :=
  r.bitcnt < r.mode.unit ∧ (r.mode = .lzx → r.offset % 2 = 0) ∧ AccClean r ∧ r.bitcnt ≤ 8 * r.offset ∧
    r.offset ≤ Config.inMax

/-- S[k], the k-th bit of the stream over IN (40_bitstream.md R66); none where a byte it is taken from is unwritten. -/
def streamBit (mode : BitOrder) (m : Memory Byte) (k : Nat) : Option Bool :=
  match mode with
  | .deflate => (m.read (k / 8)).map (fun b => b.getLsbD (k % 8))
  | .lzx =>
    match m.read (2 * (k / 16)), m.read (2 * (k / 16) + 1) with
    | some lo, some hi => some ((hi ++ lo).getLsbD (15 - k % 16))
    | _, _ => none

/-- The stream holds these bits from position p on. -/
def StreamHolds (mode : BitOrder) (m : Memory Byte) (p : Nat) (bits : List Bool) : Prop :=
  ∀ i (h : i < bits.length), streamBit mode m (p + i) = some bits[i]

/-- The pending bit i of the reader, the next to be consumed being 0 (10_state.md R35). -/
def Reader.pending (r : Reader) (i : Nat) : Bool :=
  match r.mode with
  | .deflate => r.acc.getLsbD i
  | .lzx => r.acc.getLsbD (63 - i)

/-- The bits in ACC are still those of IN: "IN is not written between" their load and now (40_bitstream.md R71). -/
def Coherent (s : State) : Prop :=
  ∀ i, i < s.bs.bitcnt → streamBit s.bs.mode s.inRam (s.bs.bitpos + i) = some (s.bs.pending i)

/-- A bit string as a number, its first bit least significant (00_scope.md R6). -/
def lsbFirst : List Bool → Nat
  | [] => 0
  | b :: bs => b.toNat + 2 * lsbFirst bs

/-- A bit string as a number, its first bit most significant. -/
def msbFirst (bs : List Bool) : Nat := bs.foldl (fun v b => 2 * v + b.toNat) 0

/-- What an n-bit read makes of the n bits it consumes (40_bitstream.md R66). -/
def readValue : BitOrder → List Bool → Nat
  | .deflate, bs => lsbFirst bs
  | .lzx, bs => msbFirst bs

/-- The end of the stream: 8 * IN_LEN bits, or 16 * (IN_LEN div 2) in LZX order (40_bitstream.md R71). -/
def streamEnd : BitOrder → Nat → Nat
  | .deflate, inLen => 8 * inLen
  | .lzx, inLen => 16 * (inLen / 2)

/-- n more bits can be read: they are already in ACC, which is all there is once IN_LEN is below BS_OFFSET
(70_reset_and_hazards.md R137), or they end inside the stream (40_bitstream.md R71). -/
def Readable (s : State) (n : Nat) : Prop :=
  n ≤ s.bs.bitcnt ∨
    (s.bs.offset ≤ s.inLen.toNat ∧ s.bs.bitpos + n ≤ streamEnd s.bs.mode s.inLen.toNat)

/-! ## The tree slots -/

/-- The bits of a code of l bits, the most significant first (41_huffman.md R86). -/
def codeBits (l c : Nat) : List Bool := (List.range l).map (fun i => c.testBit (l - 1 - i))

/-- A set of code lengths a build with maximum maxlen accepts (41_huffman.md R82). -/
def ValidLengths (lens : List Nat) (maxlen : Nat) : Prop :=
  lenTooLong lens maxlen = false ∧ oversubscribed lens maxlen = false

/-- A slot as 10_state.md R33 and R36 allow it: cleared, or a successfully built tree. -/
def SlotGood (t : TreeSlot) : Prop :=
  t = .cleared ∨
    (t = .built t.lens t.maxlen ∧ t.lens.length ≤ Config.treeCap ∧ 1 ≤ t.maxlen ∧ t.maxlen ≤ Config.maxlenLimit ∧
      ValidLengths t.lens t.maxlen)

/-- The four slots are good. -/
def SlotsGood (s : State) : Prop := ∀ k, SlotGood (s.trees.get k)

/-! ## The registers -/

/-- STATUS says what 10_state.md R17 and R18 allow: ERR with a non-zero ERRCODE, CKOK only with CKPRES, and while BUSY
DONE = 0, ERRCODE = 0x00 and RESULT = 0. -/
def StatusGood (s : State) : Prop :=
  s.status.err = (s.status.errcode != .ok) ∧ (s.status.ckok = true → s.status.ckpres = true) ∧
    (s.busy = true → s.status.done = false ∧ s.status.errcode = .ok ∧ s.result = 0)

/-- OUT[0..OUT_POS-1] lies in OUT and is written (10_state.md R27, 42_inflate.md R105). -/
def OutputGood (s : State) : Prop := s.outPos ≤ Config.outMax ∧ Written s.outRam 0 s.outPos

/-- Reserved bits of ZHDR and BLKINFO read 0 (10_state.md R28, R32). -/
def HeaderGood (s : State) : Prop := s.zhdr.extractLsb' 16 16 = 0 ∧ s.blkinfo.extractLsb' 3 13 = 0

/-- Every invariant of the spec at once. -/
def StateGood (s : State) : Prop :=
  RamsGood s ∧ ReaderGood s.bs ∧ SlotsGood s ∧ StatusGood s ∧ OutputGood s ∧ HeaderGood s

/-! ## Whose turn it is -/

/-- The engine steps next: the host's accesses before it are used up, or the host has none left
(70_reset_and_hazards.md R133). -/
def EnginesTurn (s : State) : Prop := s.wait = 0 ∨ s.host = []

/-- The read-only registers of the register map: ID, RESULT and those from BS_OFFSET to TREE_INFO3 (10_state.md R14). -/
def readOnlyRegisters : List (BitVec 24) :=
  [0x000, 0x010, 0x020, 0x024, 0x028, 0x02C, 0x030, 0x034, 0x038, 0x03C, 0x040, 0x044, 0x048, 0x04C, 0x050, 0x054]

/-! ## What a command does to STATUS, and what it leaves alone -/

/-- s after the completion of a command with a code and RESULT and no other effect (60_exceptions.md R115). -/
def completed (e : ErrCode) (result : Word) (s : State) : State :=
  { s with
    cmd := none
    result := result
    status := { s.status with done := true, err := e != .ok, errcode := e } }

/-- Everything the host alone writes is unchanged: CTRL, ARG, IN_LEN, OUT_CAP, IN, CLEN (20_memory.md R49), STATUS.OVR
(10_state.md R18), the CTRL.MODE taken at the acceptance, and the model's own fields. -/
def HostSideSame (s t : State) : Prop :=
  t.ctrl = s.ctrl ∧ t.arg = s.arg ∧ t.inLen = s.inLen ∧ t.outCap = s.outCap ∧ t.inRam = s.inRam ∧ t.clen = s.clen ∧
    t.status.ovr = s.status.ovr ∧ t.host = s.host ∧ t.rdata = s.rdata ∧ t.wait = s.wait ∧ t.free = s.free ∧
    t.cmdMode = s.cmdMode

/-- The command has completed with this code and RESULT (60_exceptions.md R115). -/
def CompletedWith (e : ErrCode) (result : Word) (t : State) : Prop :=
  t.busy = false ∧ t.status.done = true ∧ t.status.errcode = e ∧ t.status.err = (e != .ok) ∧ t.result = result

/-- INFLATE passes its argument checks (42_inflate.md R90). -/
def InflateArgsGood (s : State) : Prop :=
  2 ≤ s.inLen.toNat ∧ s.inLen.toNat ≤ Config.inMax ∧ s.outCap.toNat ≤ Config.outMax

/-- Tree slots T0, T1 and T2 are cleared and T3 is as it was (42_inflate.md R108). -/
def InflateSlots (s t : State) : Prop :=
  t.trees = ⟨.cleared, .cleared, .cleared, s.trees.t3⟩

/-- The Kraft sum of the lengths in units of 2^-maxlen: above 2^maxlen the set is over-subscribed (00_scope.md glossary). -/
def kraftSum (lens : List Nat) (maxlen : Nat) : Nat :=
  (lens.map (fun l => if l = 0 then 0 else 2 ^ (maxlen - l))).sum

/-! ## Streams of INFLATE -/

/-- A byte of the word w, the byte 0 least significant. -/
def byteOf (w : Word) (j : Nat) : Byte := w.extractLsb' (8 * j) 8

/-- The four bytes of a word, the most significant first: a dictionary id or a trailer (20_memory.md R50). -/
def bigEndian (w : Word) : List Byte := [byteOf w 3, byteOf w 2, byteOf w 1, byteOf w 0]

/-- The zlib header: CMF, FLG and, when FLG[5] = 1, the preset dictionary's id (42_inflate.md R92, R93). -/
def zlibHeaderBytes (cmf flg : Byte) (dict : Word) : List Byte :=
  [cmf, flg] ++ if flg.getLsbD 5 then bigEndian dict else []

/-- A zlib header INFLATE accepts: method 8 and a window of at most 32 KiB (42_inflate.md R92). -/
def HeaderAccepted (cmf : Byte) : Prop := cmf.toNat % 16 = 8 ∧ cmf.toNat / 16 ≤ 7

/-- What INFLATE records of an accepted zlib header (42_inflate.md R92, R93). -/
def HeaderRecorded (cmf flg : Byte) (dict : Word) (t : State) : Prop :=
  t.zhdr.toNat = 256 * flg.toNat + cmf.toNat ∧ t.status.fdict = flg.getLsbD 5 ∧
    t.dictid = if flg.getLsbD 5 then dict else 0

/-- INFLATE has recorded CMF and FLG and ended before any block: everything else it records is 0 (42_inflate.md R91, R92). -/
def EndedInHeader (cmf flg : Byte) (t : State) : Prop :=
  t.zhdr.toNat = 256 * flg.toNat + cmf.toNat ∧ t.outPos = 0 ∧ t.dictid = 0 ∧ t.adlerCalc = 0 ∧ t.adlerStored = 0 ∧
    t.blkinfo = 0 ∧ t.status.ckpres = false ∧ t.status.ckok = false

/-- A zlib stream of one final stored block holding `data`, with the trailer `adler` (42_inflate.md R92 to R95, R107): the
header, BFINAL = 1 with BTYPE = 0, LEN and NLEN low byte first, the data, the trailer big-endian. -/
def storedStream (cmf flg : Byte) (dict : Word) (data : List Byte) (adler : Word) : List Byte :=
  let len := BitVec.ofNat 32 data.length
  let nlen := len ^^^ 0xFFFF
  zlibHeaderBytes cmf flg dict ++ [0x01, byteOf len 0, byteOf len 1, byteOf nlen 0, byteOf nlen 1] ++ data ++
    bigEndian adler

/-- The bits, after the zlib header, of one final fixed-Huffman block holding the literals `data` (42_inflate.md R94, R96,
R101): BFINAL = 1, BTYPE = 1 low bit first, the literals' codes, the code 0000000 of the end-of-block symbol 256. -/
def fixedLiteralBits (data : List Byte) : List Bool :=
  [true, true, false] ++
    data.flatMap (fun b =>
      if b.toNat < 144 then codeBits 8 (0x30 + b.toNat) else codeBits 9 (0x190 + (b.toNat - 144))) ++
    List.replicate 7 false

/-- The length symbols (s, LBASE, LEXTRA), row by row (42_inflate.md R103). -/
def lengthRows : List (Nat × Nat × Nat) :=
  [(257, 3, 0), (258, 4, 0), (259, 5, 0), (260, 6, 0), (261, 7, 0), (262, 8, 0), (263, 9, 0), (264, 10, 0),
   (265, 11, 1), (266, 13, 1), (267, 15, 1), (268, 17, 1), (269, 19, 2), (270, 23, 2), (271, 27, 2), (272, 31, 2),
   (273, 35, 3), (274, 43, 3), (275, 51, 3), (276, 59, 3), (277, 67, 4), (278, 83, 4), (279, 99, 4), (280, 115, 4),
   (281, 131, 5), (282, 163, 5), (283, 195, 5), (284, 227, 5), (285, 258, 0)]

/-- The distance symbols (d, DBASE, DEXTRA), row by row (42_inflate.md R104). -/
def distanceRows : List (Nat × Nat × Nat) :=
  [(0, 1, 0), (1, 2, 0), (2, 3, 0), (3, 4, 0), (4, 5, 1), (5, 7, 1), (6, 9, 2), (7, 13, 2), (8, 17, 3), (9, 25, 3),
   (10, 33, 4), (11, 49, 4), (12, 65, 5), (13, 97, 5), (14, 129, 6), (15, 193, 6), (16, 257, 7), (17, 385, 7),
   (18, 513, 8), (19, 769, 8), (20, 1025, 9), (21, 1537, 9), (22, 2049, 10), (23, 3073, 10), (24, 4097, 11),
   (25, 6145, 11), (26, 8193, 12), (27, 12289, 12), (28, 16385, 13), (29, 24577, 13)]

/-- What the copy of a match of `len` bytes from `dist` back leaves: byte i is byte i mod dist of the last `dist` bytes of the
output, OUT_POS has advanced, and no other byte of OUT has changed (42_inflate.md R105). -/
def MatchCopied (dist len : Nat) (s t : State) : Prop :=
  t = { s with outRam := t.outRam, outPos := s.outPos + len } ∧
    (∀ i, i < len → t.outRam.read (s.outPos + i) = s.outRam.read (s.outPos - dist + i % dist)) ∧
    (∀ a, a < s.outPos ∨ s.outPos + len ≤ a → t.outRam.read a = s.outRam.read a)

/-- The Adler-32 sums reduced modulo 65521 after every `block` bytes (43_checksum_and_control.md R111); `k` bytes have been
added since the last reduction. -/
def adlerSumsBlocked (block : Nat) : Nat → List Byte → Nat → Nat → Nat × Nat
  | _, [], lower, upper => (lower, upper)
  | k, b :: bs, lower, upper =>
    let lower' := lower + b.toNat
    let upper' := upper + lower'
    if k + 1 = block then adlerSumsBlocked block 0 bs (lower' % adlerBase) (upper' % adlerBase)
    else adlerSumsBlocked block (k + 1) bs lower' upper'

end Sys2Proof.Machine
end

