-- ==== Sys2Proof/Certificates/Slice0/Obligations.lean ====
section
/-! DEFINITION. The statements for the provers. Each docstring names the rules of spec/ it formalises, or the log entry it
rests on. -/

open Sys2Proof Sys2Proof.Machine

/-! ## Encoding -/

/-- 30_encoding.md R56, R57, R58, R62, R64: decoding the word of a command gives the command back. -/
def Obligations.DecodeEncode : Prop := ∀ i : Instr, WellFormed i = true → decode (encode i) = .ok i

/-- 30_encoding.md R56 to R62: each word has one meaning; the command a word decodes to encodes to that word. -/
def Obligations.EncodeDecode : Prop :=
  ∀ (w : Word) (i : Instr), decode w = .ok i → WellFormed i = true ∧ encode i = w

/-- 30_encoding.md R58, R60: every word selects exactly one row of the opcode map, that of the command it decodes to, or it
selects none and is rejected. -/
def Obligations.DecodeSelectsOneRow : Prop :=
  ∀ w : Word,
    (∃ i, decode w = .ok i ∧ (opcodeMap.filter (fun r => r.selects w)).map (fun r => r.op) = [opOf i]) ∨
    ((∃ x, decode w = .error x) ∧ opcodeMap.filter (fun r => r.selects w) = [])

/-- 30_encoding.md R64, 95_test_vectors.md: words of each family decode to their commands. -/
def Obligations.SampleWordsDecode : Prop :=
  decode 0x00000000 = .ok .nop ∧ decode 0x00000001 = .ok .bsInit ∧ decode 0x00008002 = .ok (.bsGet 32) ∧
  decode 0x00001403 = .ok (.bsSkip 5) ∧ decode 0x00000004 = .ok .bsAlign ∧
  decode 0x010F0105 = .ok (.treeBuild .t1 4 15) ∧ decode 0x80500005 = .ok (.treeBuild .t0 513 16) ∧
  decode 0x00000306 = .ok (.treeDecode .t3) ∧ decode 0x00000007 = .ok .inflate ∧ decode 0x00000008 = .ok .adler32 ∧
  decode 0x00000009 = .error (.reservedOp 9) ∧ decode 0x006F0005 = .error (.reservedBits 5)

/-! ## The step -/

/-- 70_reset_and_hazards.md R133: when the engine steps with word w accepted and w decodes to i, the step is exec of i. -/
def Obligations.StepRunsDecodedCommand : Prop :=
  ∀ (s : State) (w : Word) (i : Instr),
    s.cmd = some w → EnginesTurn s → decode w = .ok i → WellFormed i = true → step s = exec i s

/-- 30_encoding.md R59, R60: a word that selects no row completes at once with ARG_ILLEGAL_CMD and changes nothing else. -/
def Obligations.IllegalWordChangesNothing : Prop :=
  ∀ (s : State) (w : Word),
    s.cmd = some w → EnginesTurn s → (∀ r ∈ opcodeMap, r.selects w = false) →
      step s = .next (completed .argIllegalCmd 0 s)

/-- 60_exceptions.md R126, 20_memory.md R51; log 1: idle, the block holds everything until the host's next access, which the
step takes. -/
def Obligations.IdleStep : Prop :=
  ∀ s : State, s.cmd = none →
    (s.host = [] → step s = .next s) ∧
    (∀ a rest, s.host = a :: rest → step s = hostAction a { s with host := rest })

/-- 20_memory.md R54, 70_reset_and_hazards.md R133, R135; log 2: a step taken while a command waits is the engine's, or a host
access that leaves the command word and the CTRL.MODE taken with it as they were and brings the engine's step nearer, or the
reset input. -/
def Obligations.WaitingCommandIsKept : Prop :=
  ∀ (s t : State) (w : Word), s.cmd = some w → ¬ EnginesTurn s → step s = .next t →
    (t.cmd = some w ∧ t.cmdMode = s.cmdMode ∧ t.wait + 1 = s.wait ∧ t.host.length + 1 = s.host.length) ∨
    (s.host.head? = some .reset ∧ t.cmd = none ∧ t.status.done = false)

/-- 70_reset_and_hazards.md R133 (fairness), 60_exceptions.md R123; logs 1, 2: a host that polls STATUS any number of times
reads BUSY = 1 only finitely often; after wait polls the engine's turn has come and nothing but the host side has moved. -/
def Obligations.PollingReachesTheEngine : Prop :=
  ∀ (s : State) (w : Word) (k : Nat), s.cmd = some w → s.host = List.replicate k (.read .w32 0x00000C) →
    ∃ t, Host.Core.run Sys2Proof.core (min s.wait k) s = .next t ∧ EnginesTurn t ∧
      t = { s with host := t.host, rdata := t.rdata, wait := t.wait }

/-! ## All commands -/

/-- 60_exceptions.md R115, 20_memory.md R49, 10_state.md R18: a command that is taken ends with its one completion, and
leaves everything the host alone writes as it was. -/
def Obligations.CommandsComplete : Prop :=
  ∀ (i : Instr) (s : State), WhenNext (exec i s) (fun t =>
    t.cmd = none ∧ t.busy = false ∧ t.status.done = true ∧ t.status.err = (t.status.errcode != .ok) ∧ HostSideSame s t)

/-- 10_state.md R19, 60_exceptions.md R121: RESULT is 0 after every command but BS_GET, TREE_DECODE, INFLATE and ADLER32,
and after every error but INFLATE's. -/
def Obligations.ResultIsZeroOtherwise : Prop :=
  ∀ (i : Instr) (s : State), WhenNext (exec i s) (fun t =>
    (t.status.errcode ≠ .ok → i ≠ .inflate → t.result = 0) ∧
    (t.status.errcode = .argLenRange → t.result = 0) ∧
    (match i with
     | .bsGet _ => True
     | .treeDecode _ => True
     | .inflate => True
     | .adler32 => True
     | .nop => t.result = 0
     | .bsInit => t.result = 0
     | .bsSkip _ => t.result = 0
     | .bsAlign => t.result = 0
     | .treeBuild _ _ _ => t.result = 0))

/-- 60_exceptions.md R117 (the column "raised by"), 42_inflate.md R89, R100: a command ends only with a code of its own;
INFLATE never with FMT_LEN_TOO_LONG. -/
def Obligations.CommandsRaiseOnlyTheirCodes : Prop :=
  ∀ (i : Instr) (s : State), WhenNext (exec i s) (fun t =>
    match i with
    | .nop => t.status.errcode = .ok
    | .bsInit => t.status.errcode = .ok
    | .bsAlign => t.status.errcode = .ok
    | .bsGet _ => t.status.errcode ∈ [ErrCode.ok, .argNRange, .argLenRange, .fmtInputExhausted]
    | .bsSkip _ => t.status.errcode ∈ [ErrCode.ok, .argNRange, .argLenRange, .fmtInputExhausted]
    | .treeBuild _ _ _ => t.status.errcode ∈ [ErrCode.ok, .argTreeParam, .fmtLenTooLong, .fmtOversubscribed]
    | .treeDecode _ =>
      t.status.errcode ∈ [ErrCode.ok, .argTreeInvalid, .argLenRange, .fmtInputExhausted, .fmtInvalidCode]
    | .adler32 => t.status.errcode ∈ [ErrCode.ok, .argLenRange]
    | .inflate =>
      t.status.errcode ∉ [ErrCode.argIllegalCmd, .argNRange, .argTreeParam, .argTreeInvalid, .fmtLenTooLong])

/-- 40_bitstream.md R74 to R77, 41_huffman.md R84, R87, 43_checksum_and_control.md R112, R113: the frame of every command
but INFLATE. Each changes STATUS and RESULT at its completion and, beyond that, only what is named here: the reader, one
slot, or ADLER_CALC. Every byte of IN and OUT, every CLEN entry and every other register is as before. -/
def Obligations.SmallCommandsFrame : Prop :=
  ∀ (i : Instr) (s : State), WhenNext (exec i s) (fun t =>
    let u := completed t.status.errcode t.result s
    match i with
    | .nop => t = u
    | .bsInit => t = { u with bs := t.bs }
    | .bsGet _ => t = { u with bs := t.bs } ∧ t.bs.mode = s.bs.mode
    | .bsSkip _ => t = { u with bs := t.bs } ∧ t.bs.mode = s.bs.mode
    | .bsAlign => t = { u with bs := t.bs } ∧ t.bs.mode = s.bs.mode ∧ t.bs.offset = s.bs.offset
    | .treeBuild k _ _ => t = { u with trees := s.trees.set k (t.trees.get k) }
    | .treeDecode _ => t = { u with bs := t.bs } ∧ t.bs.mode = s.bs.mode
    | .adler32 => t = { u with adlerCalc := t.adlerCalc }
    | .inflate => True)

/-- 70_reset_and_hazards.md R135, R139, 40_bitstream.md R74: no command in progress depends on CTRL as it stands, and none but
BS_INIT on the CTRL.MODE that its acceptance took. -/
def Obligations.OnlyBsInitReadsCtrl : Prop :=
  ∀ (i : Instr) (s t : State), exec i s = .next t →
    (∀ c : Ctrl, exec i { s with ctrl := c } = .next { t with ctrl := c }) ∧
    (i ≠ .bsInit → ∀ m : BitOrder, exec i { s with cmdMode := m } = .next { t with cmdMode := m })

/-! ## NOP and the bit reader -/

/-- 43_checksum_and_control.md R113: NOP does nothing but complete, with IRQ following CTRL.IE; with CTRL.IE = 1 and the other
STATUS bits 0, STATUS reads 0x00000002 and IRQ = 1; a word with OP 0 and a non-zero bit in w[31:4] is ARG_ILLEGAL_CMD. -/
def Obligations.NopCompletes : Prop :=
  (∀ s : State, Completes (exec .nop s) (fun t => t = completed .ok 0 s ∧ t.irq = s.ctrl.ie ∧
    (s.ctrl.ie = true → s.status.ovr = false → s.status.ckpres = false → s.status.ckok = false →
      s.status.fdict = false → t.statusWord = 0x00000002 ∧ t.irq = true))) ∧
  (∀ (s : State) (w : Word), field w 0 4 = 0 → w ≠ 0 → s.cmd = some w → EnginesTurn s →
    step s = .next (completed .argIllegalCmd 0 s))

/-- 40_bitstream.md R74: BS_INIT latches CTRL.MODE and starts the reader at IN[0]; it touches nothing else. The CTRL.MODE is the
one of its acceptance: a write of CTRL while BUSY does not reach it (70_reset_and_hazards.md R135). -/
def Obligations.BsInitStartsAStream : Prop :=
  (∀ s : State, exec .bsInit s = .next (completed .ok 0 { s with bs := ⟨s.cmdMode, 0, 0, 0⟩ })) ∧
  (∀ s : State, s.busy = false → Completes (hostWrite .w32 0x000008 (encode .bsInit) s) (fun t =>
    ∀ c : Ctrl, exec .bsInit { t with ctrl := c } =
      .next (completed .ok 0 { t with ctrl := c, bs := ⟨s.ctrl.mode, 0, 0, 0⟩ })))

/-- 40_bitstream.md R73, R77: BS_ALIGN always succeeds; between commands it leaves BS_BITCNT = 0, ACC = 0 and
BS_BITPOS = 8 * BS_OFFSET, and an aligned reader stays as it is. -/
def Obligations.BsAlignDropsPendingBits : Prop :=
  ∀ s : State, Completes (exec .bsAlign s) (fun t =>
    CompletedWith .ok 0 t ∧ (s.bs.bitcnt = 0 → t.bs = s.bs) ∧
    (ReaderGood s.bs → t = completed .ok 0 { s with bs := ⟨s.bs.mode, s.bs.offset, 0, 0⟩ } ∧
      t.bs.bitpos = 8 * s.bs.offset))

/-- 40_bitstream.md R71: BS_GET n returns the next n bits of the stream of R66, the first one least significant in DEFLATE
order and most significant in LZX order, and advances BS_BITPOS by n; given IN_LEN at least BS_OFFSET the read fails exactly when
BS_BITPOS + n is past the end of the stream. Bits already in ACC stay readable with IN_LEN below BS_OFFSET
(70_reset_and_hazards.md R137). -/
def Obligations.BsGetReadsTheStream : Prop :=
  ∀ (s : State) (n : Nat), n ≤ 32 → s.inLen.toNat ≤ Config.inMax → ReaderGood s.bs → Coherent s →
    (∀ bits : List Bool, bits.length = n → Readable s n → StreamHolds s.bs.mode s.inRam s.bs.bitpos bits →
      Completes (exec (.bsGet n) s) (fun t =>
        t = completed .ok (BitVec.ofNat 32 (readValue s.bs.mode bits)) { s with bs := t.bs } ∧
        t.result.toNat = readValue s.bs.mode bits ∧
        t.bs.mode = s.bs.mode ∧ t.bs.bitpos = s.bs.bitpos + n ∧ ReaderGood t.bs ∧ Coherent t)) ∧
    (s.bs.offset ≤ s.inLen.toNat → streamEnd s.bs.mode s.inLen.toNat < s.bs.bitpos + n →
      exec (.bsGet n) s = .next (completed .fmtInputExhausted 0 s))

/-- 40_bitstream.md R76, 70_reset_and_hazards.md R137: BS_SKIP n consumes the next n bits that can be read and leaves
RESULT = 0. -/
def Obligations.BsSkipDiscardsBits : Prop :=
  ∀ (s : State) (bits : List Bool), bits.length ≤ 32 → s.inLen.toNat ≤ Config.inMax → ReaderGood s.bs → Coherent s →
    Readable s bits.length → StreamHolds s.bs.mode s.inRam s.bs.bitpos bits →
    Completes (exec (.bsSkip bits.length) s) (fun t =>
      t = completed .ok 0 { s with bs := t.bs } ∧ t.bs.mode = s.bs.mode ∧
      t.bs.bitpos = s.bs.bitpos + bits.length ∧ ReaderGood t.bs ∧ Coherent t)

/-- 40_bitstream.md R67, R68, R75, R76, 60_exceptions.md R119, R121, 70_reset_and_hazards.md R137: BS_GET and BS_SKIP change
nothing but STATUS and RESULT on any error: N above 32, then IN_LEN above IN_MAX, then more bits than are available (only
those in ACC once IN_LEN is below BS_OFFSET). -/
def Obligations.FailedReadChangesNothing : Prop :=
  ∀ (s : State) (n : Nat),
    (32 < n → exec (.bsGet n) s = .next (completed .argNRange 0 s) ∧
      exec (.bsSkip n) s = .next (completed .argNRange 0 s)) ∧
    (n ≤ 32 → Config.inMax < s.inLen.toNat → exec (.bsGet n) s = .next (completed .argLenRange 0 s) ∧
      exec (.bsSkip n) s = .next (completed .argLenRange 0 s)) ∧
    (n ≤ 32 → s.inLen.toNat ≤ Config.inMax →
      (match s.bs.mode with
       | .deflate => s.bs.bitcnt + 8 * (s.inLen.toNat - s.bs.offset) < n
       | .lzx => s.bs.bitcnt + 16 * ((s.inLen.toNat - s.bs.offset) / 2) < n) →
      exec (.bsGet n) s = .next (completed .fmtInputExhausted 0 s) ∧
      exec (.bsSkip n) s = .next (completed .fmtInputExhausted 0 s))

/-- 70_reset_and_hazards.md R136, 10_state.md R35: ACC holds copies; a byte of IN below BS_OFFSET may change without any
later read seeing it. -/
def Obligations.StaleAccumulator : Prop :=
  ∀ (s t : State) (n a : Nat) (b : Byte), a < s.bs.offset → exec (.bsGet n) s = .next t →
    exec (.bsGet n) { s with inRam := s.inRam.write a b } = .next { t with inRam := s.inRam.write a b }

/-! ## The Huffman unit -/

/-- 41_huffman.md R81, R88: on a valid set of lengths every code fits its length, codes of one length rise with the symbol,
a shorter code comes before a longer one, and no code is a prefix of another. -/
def Obligations.CodesArePrefixFree : Prop :=
  ∀ (lens : List Nat) (maxlen a b la lb ca cb : Nat), maxlen ≤ 16 → ValidLengths lens maxlen → a ≠ b →
    lens[a]? = some la → lens[b]? = some lb → la ≠ 0 → lb ≠ 0 →
    (codes lens)[a]? = some ca → (codes lens)[b]? = some cb →
    ca < 2 ^ la ∧ (la = lb → a < b → ca < cb) ∧ (la < lb → (ca + 1) * 2 ^ (lb - la) ≤ cb) ∧
      ¬ codeBits la ca <+: codeBits lb cb

/-- 41_huffman.md R82, R83, R84: TREE_BUILD on lengths within MAXLEN whose Kraft sum is at most 1 writes the slot and nothing
else; incomplete sets are accepted. -/
def Obligations.TreeBuildWritesTheSlot : Prop :=
  ∀ (s : State) (k : Slot) (entries : List (BitVec 5)) (maxlen : Nat),
    1 ≤ maxlen → maxlen ≤ 16 → entries.length ≤ 512 → Holds s.clen 0 entries →
    (∀ e ∈ entries, e.toNat ≤ maxlen) → kraftSum (entries.map (fun e => e.toNat)) maxlen ≤ 2 ^ maxlen →
    Completes (exec (.treeBuild k entries.length maxlen) s) (fun t =>
      t = completed .ok 0 { s with trees := s.trees.set k (t.trees.get k) } ∧
      (t.trees.get k).valid = true ∧ (t.trees.get k).count = entries.length ∧ (t.trees.get k).maxlen = maxlen ∧
      (t.trees.get k).lens = entries.map (fun e => e.toNat) ∧
      (∀ e ∈ entries, e.toNat ≤ (t.trees.get k).lmax) ∧
      ((t.trees.get k).lmax = 0 ∨ ∃ e ∈ entries, e.toNat = (t.trees.get k).lmax))

/-- 41_huffman.md R82, R83, R84, 60_exceptions.md R119: TREE_BUILD's errors. MAXLEN or COUNT out of range leaves the slot; a
length above MAXLEN, and after that a Kraft sum above 1, leaves it cleared. -/
def Obligations.TreeBuildErrors : Prop :=
  ∀ (s : State) (k : Slot) (entries : List (BitVec 5)) (maxlen : Nat),
    (maxlen < 1 ∨ 16 < maxlen ∨ 512 < entries.length →
      exec (.treeBuild k entries.length maxlen) s = .next (completed .argTreeParam 0 s)) ∧
    (1 ≤ maxlen → maxlen ≤ 16 → entries.length ≤ 512 → Holds s.clen 0 entries →
      ((∃ e ∈ entries, maxlen < e.toNat) →
        exec (.treeBuild k entries.length maxlen) s
          = .next (completed .fmtLenTooLong 0 { s with trees := s.trees.set k .cleared })) ∧
      ((∀ e ∈ entries, e.toNat ≤ maxlen) → 2 ^ maxlen < kraftSum (entries.map (fun e => e.toNat)) maxlen →
        exec (.treeBuild k entries.length maxlen) s
          = .next (completed .fmtOversubscribed 0 { s with trees := s.trees.set k .cleared })))

/-- 41_huffman.md R85 to R88: when the stream goes on with the code of a symbol of a built tree, most significant bit first,
TREE_DECODE returns the symbol and consumes exactly the bits of its code. -/
def Obligations.TreeDecodeReturnsTheSymbol : Prop :=
  ∀ (s : State) (k : Slot) (sym l c : Nat),
    SlotGood (s.trees.get k) → (s.trees.get k).valid = true →
    (s.trees.get k).lens[sym]? = some l → l ≠ 0 → (codes (s.trees.get k).lens)[sym]? = some c →
    s.inLen.toNat ≤ Config.inMax → ReaderGood s.bs → Coherent s → Readable s l →
    StreamHolds s.bs.mode s.inRam s.bs.bitpos (codeBits l c) →
    Completes (exec (.treeDecode k) s) (fun t =>
      t = completed .ok (BitVec.ofNat 32 sym) { s with bs := t.bs } ∧ t.result.toNat = sym ∧
      t.bs.mode = s.bs.mode ∧ t.bs.bitpos = s.bs.bitpos + l ∧ ReaderGood t.bs ∧ Coherent t)

/-- 41_huffman.md R85, R87, 60_exceptions.md R121: when the stream goes on with bits that no code of the tree begins, TREE_DECODE
ends with FMT_INVALID_CODE after consuming LMAX of them, none in an empty tree; and with FMT_INPUT_EXHAUSTED after consuming all
of them where they are fewer than LMAX and no further bit can be read. -/
def Obligations.TreeDecodeNoCode : Prop :=
  ∀ (s : State) (k : Slot) (bits : List Bool),
    SlotGood (s.trees.get k) → (s.trees.get k).valid = true →
    (∀ (sym l c : Nat), (s.trees.get k).lens[sym]? = some l → l ≠ 0 → (codes (s.trees.get k).lens)[sym]? = some c →
      ¬ codeBits l c <+: bits) →
    s.inLen.toNat ≤ Config.inMax → ReaderGood s.bs → Coherent s → Readable s bits.length →
    StreamHolds s.bs.mode s.inRam s.bs.bitpos bits →
    (bits.length = (s.trees.get k).lmax → Completes (exec (.treeDecode k) s) (fun t =>
      t = completed .fmtInvalidCode 0 { s with bs := t.bs } ∧
      t.bs.mode = s.bs.mode ∧ t.bs.bitpos = s.bs.bitpos + (s.trees.get k).lmax)) ∧
    (bits.length < (s.trees.get k).lmax → ¬ Readable s (bits.length + 1) →
      Completes (exec (.treeDecode k) s) (fun t =>
        t = completed .fmtInputExhausted 0 { s with bs := t.bs } ∧
        t.bs.mode = s.bs.mode ∧ t.bs.bitpos = s.bs.bitpos + bits.length))

/-- 41_huffman.md R87, 60_exceptions.md R119, R121: TREE_DECODE's argument errors, the slot before IN_LEN, consume nothing. -/
def Obligations.TreeDecodeArgumentErrors : Prop :=
  ∀ (s : State) (k : Slot),
    ((s.trees.get k).valid = false → exec (.treeDecode k) s = .next (completed .argTreeInvalid 0 s)) ∧
    ((s.trees.get k).valid = true → Config.inMax < s.inLen.toNat →
      exec (.treeDecode k) s = .next (completed .argLenRange 0 s))

/-! ## Adler-32 -/

/-- 43_checksum_and_control.md R112: ADLER32 writes Adler32(ARG, IN[0..IN_LEN-1]) to ADLER_CALC and RESULT and changes
nothing else; IN_LEN > IN_MAX is ARG_LEN_RANGE with ADLER_CALC unchanged. -/
def Obligations.AdlerOfTheInput : Prop :=
  ∀ s : State,
    (∀ bytes : List Byte, s.inLen.toNat ≤ Config.inMax → bytes.length = s.inLen.toNat → Holds s.inRam 0 bytes →
      exec .adler32 s = .next (completed .ok (adler32 s.arg bytes) { s with adlerCalc := adler32 s.arg bytes })) ∧
    (Config.inMax < s.inLen.toNat → exec .adler32 s = .next (completed .argLenRange 0 s))

/-- 43_checksum_and_control.md R112: a running checksum over several buffers is obtained by passing the previous result as
the next seed. -/
def Obligations.AdlerChains : Prop :=
  ∀ (seed : Word) (xs ys : List Byte), adler32 (adler32 seed xs) ys = adler32 seed (xs ++ ys)

/-- 43_checksum_and_control.md R111: sums that start below 65536 stay below 2^32 over 5552 bytes, and reducing them after
every 5552 bytes gives the value of R110 exactly; so does a reduction after every block of any other size. -/
def Obligations.AdlerReductionSchedule : Prop :=
  (∀ (bytes : List Byte) (lower upper : Nat), bytes.length ≤ 5552 → lower < 65536 → upper < 65536 →
    (adlerSums bytes lower upper).1 < 2 ^ 32 ∧ (adlerSums bytes lower upper).2 < 2 ^ 32) ∧
  (∀ (block : Nat) (bytes : List Byte) (seed : Word), 0 < block →
    adlerPack (adlerSumsBlocked block 0 bytes (seed.extractLsb' 0 16).toNat (seed.extractLsb' 16 16).toNat)
      = adler32 seed bytes)

/-! ## INFLATE -/

/-- 42_inflate.md R90: the argument checks come first, raise ARG_LEN_RANGE and change nothing else. -/
def Obligations.InflateArgumentErrors : Prop :=
  ∀ s : State, s.inLen.toNat < 2 ∨ Config.inMax < s.inLen.toNat ∨ Config.outMax < s.outCap.toNat →
    exec .inflate s = .next (completed .argLenRange 0 s)

/-- 70_reset_and_hazards.md R133 (every command terminates), 42_inflate.md R105, R108, 10_state.md R22, R23, R27: past its
argument checks INFLATE ends on every input whose bytes are written, so it never reads an unwritten byte of OUT. It returns
OUT_POS, at most OUT_CAP, has written every byte below OUT_POS, and its reader stays inside the input. -/
def Obligations.InflateAlwaysEnds : Prop :=
  ∀ s : State, InflateArgsGood s → Written s.inRam 0 s.inLen.toNat →
    Completes (exec .inflate s) (fun t =>
      t.busy = false ∧ t.status.done = true ∧ t.result = BitVec.ofNat 32 t.outPos ∧ t.outPos ≤ s.outCap.toNat ∧
      Written t.outRam 0 t.outPos ∧ t.bs.mode = .deflate ∧ t.bs.offset ≤ s.inLen.toNat)

/-- 42_inflate.md R108, 20_memory.md R49, 60_exceptions.md R121: the frame of INFLATE past its argument checks, whatever
its code. It stores to OUT[0..OUT_POS-1] only; IN, CLEN, slot T3 and the host's registers are as before. -/
def Obligations.InflateFrame : Prop :=
  ∀ s : State, InflateArgsGood s → WhenNext (exec .inflate s) (fun t =>
    HostSideSame s t ∧ InflateSlots s t ∧ t.result = BitVec.ofNat 32 t.outPos ∧ t.outPos ≤ s.outCap.toNat ∧
    (∀ a, t.outPos ≤ a → t.outRam.read a = s.outRam.read a))

/-- 42_inflate.md R91, 70_reset_and_hazards.md R138, R139: what INFLATE does depends on IN_LEN, OUT_CAP and the bytes
IN[0..IN_LEN-1] alone: not on CTRL, the reader, the slots, OUT or the registers an earlier command left. -/
def Obligations.InflateDependsOnItsInputOnly : Prop :=
  ∀ s₁ s₂ t₁ : State, InflateArgsGood s₁ → s₂.inLen = s₁.inLen → s₂.outCap = s₁.outCap →
    (∀ a, a < s₁.inLen.toNat → s₂.inRam.read a = s₁.inRam.read a) → exec .inflate s₁ = .next t₁ →
    Completes (exec .inflate s₂) (fun t₂ =>
      t₂.result = t₁.result ∧ t₂.bs = t₁.bs ∧ t₂.outPos = t₁.outPos ∧ t₂.zhdr = t₁.zhdr ∧ t₂.dictid = t₁.dictid ∧
      t₂.adlerCalc = t₁.adlerCalc ∧ t₂.adlerStored = t₁.adlerStored ∧ t₂.blkinfo = t₁.blkinfo ∧
      t₂.status.errcode = t₁.status.errcode ∧ t₂.status.ckpres = t₁.status.ckpres ∧
      t₂.status.ckok = t₁.status.ckok ∧ t₂.status.fdict = t₁.status.fdict ∧
      ∀ a, a < t₁.outPos → t₂.outRam.read a = t₁.outRam.read a)

/-- 42_inflate.md R92, R93: after the two header bytes ZHDR holds them; a method other than 8 is FMT_BAD_METHOD, then a window
field above 7 is FMT_BAD_WINDOW, whatever FCHECK and the rest of the input hold; with FLG[5] = 1 an input that ends inside the
dictionary id is FMT_INPUT_EXHAUSTED with FDICT = 1 and DICTID = 0. -/
def Obligations.InflateHeaderErrors : Prop :=
  ∀ (s : State) (cmf flg : Byte), InflateArgsGood s → s.inRam.read 0 = some cmf → s.inRam.read 1 = some flg →
    (¬ HeaderAccepted cmf → Completes (exec .inflate s) (fun t =>
      CompletedWith (if cmf.toNat % 16 ≠ 8 then .fmtBadMethod else .fmtBadWindow) 0 t ∧
      EndedInHeader cmf flg t ∧ t.bs = ⟨.deflate, 2, 0, 0⟩ ∧ t.status.fdict = false)) ∧
    (HeaderAccepted cmf → flg.getLsbD 5 = true → s.inLen.toNat < 6 → Written s.inRam 0 s.inLen.toNat →
      Completes (exec .inflate s) (fun t =>
        CompletedWith .fmtInputExhausted 0 t ∧
        EndedInHeader cmf flg t ∧ t.bs = ⟨.deflate, s.inLen.toNat, 0, 0⟩ ∧ t.status.fdict = true))

/-- 42_inflate.md R107: after success or CHK_ADLER_MISMATCH, ADLER_CALC is the Adler-32 of the whole output; CKOK = 1 only
with an equal trailer; a mismatch is reported with the full output and an unequal trailer. -/
def Obligations.InflateChecksum : Prop :=
  ∀ s : State, InflateArgsGood s → WhenNext (exec .inflate s) (fun t =>
    t.status.errcode = .ok ∨ t.status.errcode = .chkAdlerMismatch →
      ∃ out : List Byte, out.length = t.outPos ∧ Holds t.outRam 0 out ∧ t.adlerCalc = adler32 1 out ∧
        (t.status.errcode = .ok →
          t.status.ckok = t.status.ckpres ∧ (t.status.ckpres = true → t.adlerStored = t.adlerCalc) ∧
          (t.status.ckpres = false → t.adlerStored = 0)) ∧
        (t.status.errcode = .chkAdlerMismatch →
          t.status.ckpres = true ∧ t.status.ckok = false ∧ t.adlerStored ≠ t.adlerCalc))

/-- 42_inflate.md R89, R92 to R95, R107, R108 (95_test_vectors.md W4): a zlib stream of one stored block with its checksum, with
or without a dictionary id, is decompressed to exactly the block's bytes, and the header is recorded. -/
def Obligations.InflateStoredBlock : Prop :=
  ∀ (s : State) (cmf flg : Byte) (dict : Word) (data : List Byte), HeaderAccepted cmf →
    s.inLen.toNat = (storedStream cmf flg dict data (adler32 1 data)).length → s.inLen.toNat ≤ Config.inMax →
    data.length ≤ s.outCap.toNat → s.outCap.toNat ≤ Config.outMax →
    Holds s.inRam 0 (storedStream cmf flg dict data (adler32 1 data)) →
    Completes (exec .inflate s) (fun t =>
      CompletedWith .ok (BitVec.ofNat 32 data.length) t ∧ t.outPos = data.length ∧ Holds t.outRam 0 data ∧
      HeaderRecorded cmf flg dict t ∧ t.bs = ⟨.deflate, s.inLen.toNat, 0, 0⟩ ∧ t.adlerCalc = adler32 1 data ∧
      t.adlerStored = adler32 1 data ∧ t.blkinfo = 0x00010004 ∧ t.status.ckpres = true ∧ t.status.ckok = true)

/-- 42_inflate.md R92, R93, R96, R101, R102, R107 (95_test_vectors.md W5): a zlib stream of one fixed-Huffman block of literals,
with or without a dictionary id and with no trailer, is decompressed to exactly the literals, and the header is recorded. -/
def Obligations.InflateFixedLiterals : Prop :=
  ∀ (s : State) (cmf flg : Byte) (dict : Word) (data : List Byte), HeaderAccepted cmf →
    let header := zlibHeaderBytes cmf flg dict
    s.inLen.toNat = header.length + ((fixedLiteralBits data).length + 7) / 8 → s.inLen.toNat ≤ Config.inMax →
    data.length ≤ s.outCap.toNat → s.outCap.toNat ≤ Config.outMax →
    Holds s.inRam 0 header → StreamHolds .deflate s.inRam (8 * header.length) (fixedLiteralBits data) →
    Completes (exec .inflate s) (fun t =>
      CompletedWith .ok (BitVec.ofNat 32 data.length) t ∧ t.outPos = data.length ∧ Holds t.outRam 0 data ∧
      HeaderRecorded cmf flg dict t ∧ t.bs = ⟨.deflate, s.inLen.toNat, 0, 0⟩ ∧ t.adlerCalc = adler32 1 data ∧
      t.adlerStored = 0 ∧ t.status.ckpres = false ∧ t.status.ckok = false ∧ t.blkinfo = 0x00010005)

/-- 42_inflate.md R103 to R106: a match reads its length and then its distance by the tables' rows, checks the distance against
OUT_POS and then the capacity, before any byte is written, and copies byte by byte, so that one with dist < len repeats the bytes
it has just written. -/
def Obligations.MatchCopyRepeats : Prop :=
  (∀ (s : State) (dist len : Nat), 1 ≤ dist → dist ≤ s.outPos → Written s.outRam 0 s.outPos →
    ∃ t, matchCopy dist len s = .ok () t ∧ MatchCopied dist len s t) ∧
  (∀ (sym lbase lextra d dbase dextra : Nat) (s t u v : State) (x y : Word),
    (sym, lbase, lextra) ∈ lengthRows → bsGet lextra s = .ok x t →
    hufDecode .t1 t = .ok d u → (d, dbase, dextra) ∈ distanceRows → bsGet dextra u = .ok y v →
    let len := lbase + x.toNat
    let dist := dbase + y.toNat
    (v.outPos < dist → backReference sym s = .error (.raise .bndDistTooFar) v) ∧
    (dist ≤ v.outPos → v.outCap.toNat < v.outPos + len → backReference sym s = .error (.raise .bndOutTooSmall) v) ∧
    (dist ≤ v.outPos → v.outPos + len ≤ v.outCap.toNat → Written v.outRam 0 v.outPos →
      ∃ w, backReference sym s = .ok () w ∧ MatchCopied dist len v w))

/-! ## The host interface -/

/-- 10_state.md R14, R15, R16, R18 to R34, 20_memory.md R43: what a 32-bit read of each register returns while not BUSY. -/
def Obligations.RegisterReads : Prop :=
  ∀ s : State, s.busy = false → ∀ (addr : BitVec 24) (v : Word),
    ((addr, v) ∈ [((0x000 : BitVec 24), (0x42524931 : Word)), (0x004, s.ctrl.word), (0x008, 0), (0x00C, s.statusWord),
        (0x010, s.result), (0x014, s.arg), (0x018, s.inLen), (0x01C, s.outCap), (0x020, BitVec.ofNat 32 s.bs.offset),
        (0x024, (BitVec.ofNat 7 s.bs.bitcnt).setWidth 32), (0x02C, if s.bs.mode = .lzx then 1 else 0),
        (0x028, BitVec.ofNat 32 (8 * s.bs.offset - s.bs.bitcnt)), (0x030, BitVec.ofNat 32 s.outPos), (0x034, s.zhdr),
        (0x038, s.dictid), (0x03C, s.adlerCalc), (0x040, s.adlerStored), (0x044, s.blkinfo),
        (0x048, s.trees.t0.info), (0x04C, s.trees.t1.info), (0x050, s.trees.t2.info), (0x054, s.trees.t3.info)] ∨
      (0x058 ≤ addr.toNat ∧ addr.toNat ≤ 0xFFC ∧ addr.toNat % 4 = 0 ∧ v = 0)) →
    hostRead .w32 addr s = .next { s with rdata := v }

/-- 10_state.md R18, 60_exceptions.md R117: the STATUS word holds each field at its bits, the other bits 0; ERRCODE is the number
of the error table, 0x00 exactly on success. -/
def Obligations.StatusWordLayout : Prop :=
  ∀ s : State,
    s.statusWord.getLsbD 0 = s.busy ∧ s.statusWord.getLsbD 1 = s.status.done ∧ s.statusWord.getLsbD 2 = s.status.err ∧
    s.statusWord.getLsbD 3 = s.status.ovr ∧ s.statusWord.extractLsb' 4 4 = 0 ∧
    s.statusWord.getLsbD 16 = s.status.ckpres ∧ s.statusWord.getLsbD 17 = s.status.ckok ∧
    s.statusWord.getLsbD 18 = s.status.fdict ∧ s.statusWord.extractLsb' 19 13 = 0 ∧
    (s.status.errcode, s.statusWord.extractLsb' 8 8) ∈
      [(ErrCode.ok, (0x00 : BitVec 8)), (.argIllegalCmd, 0x10), (.argNRange, 0x11), (.argTreeParam, 0x12),
       (.argTreeInvalid, 0x13), (.argLenRange, 0x14), (.bndOutTooSmall, 0x20), (.bndDistTooFar, 0x21),
       (.fmtInputExhausted, 0x30), (.fmtBadMethod, 0x31), (.fmtBadWindow, 0x32), (.fmtReservedBtype, 0x33),
       (.fmtStoredNlen, 0x34), (.fmtBadHlit, 0x35), (.fmtBadHdist, 0x36), (.fmtLenTooLong, 0x37),
       (.fmtOversubscribed, 0x38), (.fmtInvalidCode, 0x39), (.fmtRepeatNoPrev, 0x3A), (.fmtRepeatOverrun, 0x3B),
       (.fmtEobZeroLen, 0x3C), (.fmtInvalidSymbol, 0x3D), (.chkAdlerMismatch, 0x40)] ∧
    (s.statusWord.extractLsb' 8 8 = 0 ↔ s.status.errcode = .ok)

/-- 10_state.md R33: TREE_INFO of a good slot holds COUNT, MAXLEN, LMAX and VALID at their bits, the other bits 0; it is 0
for a slot that is not valid. -/
def Obligations.TreeInfoLayout : Prop :=
  ∀ t : TreeSlot, SlotGood t →
    field t.info 0 10 = t.count ∧ field t.info 10 6 = 0 ∧ field t.info 16 5 = t.maxlen ∧ field t.info 21 3 = 0 ∧
    field t.info 24 5 = t.lmax ∧ field t.info 29 2 = 0 ∧ t.info.getLsbD 31 = t.valid ∧ (t.valid = false → t.info = 0)

/-- 20_memory.md R46: a register or CLEN access that is not 32 bits wide or not 4-aligned, and a window access that is not
naturally aligned, has no step. That a read while BUSY is no exception, whatever R52 says of its value, is the model's reading
(log 3). -/
def Obligations.MisalignedAccessHasNoStep : Prop :=
  ∀ (s : State) (w : Width) (addr : BitVec 24) (v : Word),
    ((addr.toNat < 0x001800 ∧ (w ≠ .w32 ∨ addr.toNat % 4 ≠ 0)) ∨
      (0x400000 ≤ addr.toNat ∧ addr.toNat < 0xC00000 ∧ addr.toNat % w.bytes ≠ 0)) →
    hostRead w addr s = .refused (.hostAccess w addr) ∧ hostWrite w addr v s = .refused (.hostAccess w addr)

/-- 20_memory.md R47, 10_state.md R34: while not BUSY a read of a reserved address, of a reserved register offset or of
window bytes beyond the RAM returns 0, and a write there is ignored. -/
def Obligations.ReservedReadsZero : Prop :=
  ∀ (s : State) (w : Width) (addr : BitVec 24) (v : Word), s.busy = false →
    ((0x058 ≤ addr.toNat ∧ addr.toNat < 0x001000 ∧ addr.toNat % 4 = 0 ∧ w = .w32) ∨
      (0x001800 ≤ addr.toNat ∧ addr.toNat + w.bytes ≤ 0x400000) ∨
      (0x400000 + Config.inMax ≤ addr.toNat ∧ addr.toNat < 0x800000 ∧ addr.toNat % w.bytes = 0) ∨
      (0x800000 + Config.outMax ≤ addr.toNat ∧ addr.toNat < 0xC00000 ∧ addr.toNat % w.bytes = 0) ∨
      (0xC00000 ≤ addr.toNat ∧ addr.toNat + w.bytes ≤ 0x1000000)) →
    hostRead w addr s = .next { s with rdata := 0 } ∧ hostWrite w addr v s = .next s

/-- 20_memory.md R48: no host read has a side effect; log 3: while BUSY one may draw a free value. -/
def Obligations.HostReadsChangeNothing : Prop :=
  ∀ (s : State) (w : Width) (addr : BitVec 24), WhenNext (hostRead w addr s) (fun t =>
    t = { s with rdata := t.rdata, free := t.free } ∧ (s.busy = false → t.free = s.free))

/-- 20_memory.md R44: a window write of w.bytes bytes stores byte j of v at index i + j, little-endian, and nothing else; a
read of the same width at the same place returns the bytes written. -/
def Obligations.WindowWriteThenRead : Prop :=
  ∀ (s : State) (w : Width) (i : Nat) (v : Word), s.busy = false → i % w.bytes = 0 →
    (i + w.bytes ≤ Config.inMax →
      Completes (hostWrite w (BitVec.ofNat 24 (0x400000 + i)) v s) (fun t =>
        t = { s with inRam := t.inRam } ∧
        (∀ a, t.inRam.read a = if i ≤ a ∧ a < i + w.bytes then some (byteOf v (a - i)) else s.inRam.read a) ∧
        hostRead w (BitVec.ofNat 24 (0x400000 + i)) t = .next { t with rdata := w.truncate v })) ∧
    (i + w.bytes ≤ Config.outMax →
      Completes (hostWrite w (BitVec.ofNat 24 (0x800000 + i)) v s) (fun t =>
        t = { s with outRam := t.outRam } ∧
        (∀ a, t.outRam.read a = if i ≤ a ∧ a < i + w.bytes then some (byteOf v (a - i)) else s.outRam.read a) ∧
        hostRead w (BitVec.ofNat 24 (0x800000 + i)) t = .next { t with rdata := w.truncate v }))

/-- 20_memory.md R45: a write of w at entry i stores w[4:0], a read returns the entry zero-extended, and a length of 17 to 31
makes TREE_BUILD raise FMT_LEN_TOO_LONG when read. -/
def Obligations.ClenHoldsFiveBits : Prop :=
  ∀ (s : State) (i : Nat) (v : Word), s.busy = false → i < 512 →
    Completes (hostWrite .w32 (BitVec.ofNat 24 (0x001000 + 4 * i)) v s) (fun t =>
      t = { s with clen := t.clen } ∧
      (∀ a, t.clen.read a = if a = i then some (v.setWidth 5) else s.clen.read a) ∧
      hostRead .w32 (BitVec.ofNat 24 (0x001000 + 4 * i)) t = .next { t with rdata := v &&& 0x1F } ∧
      (17 ≤ (v &&& 0x1F).toNat → ∀ (k : Slot) (count maxlen : Nat), i < count → count ≤ 512 → Written t.clen 0 count →
        1 ≤ maxlen → maxlen ≤ 16 → exec (.treeBuild k count maxlen) t
          = .next (completed .fmtLenTooLong 0 { t with trees := t.trees.set k .cleared })))

/-- 10_state.md R17, 70_reset_and_hazards.md R135: a CMD write while not BUSY accepts the word, and the CTRL.MODE of now with it:
DONE, ERR, ERRCODE and RESULT are cleared and BUSY is set; log 2: the number of host accesses before the engine's step is
drawn. -/
def Obligations.CmdWriteAccepts : Prop :=
  ∀ (s : State) (w : Word), s.busy = false →
    Completes (hostWrite .w32 0x000008 w s) (fun t =>
      t.busy = true ∧
      t = { s with
            cmd := some w, cmdMode := s.ctrl.mode, result := 0, status := { s.status with done := false, err := false, errcode := .ok },
            wait := t.wait, free := t.free })

/-- 60_exceptions.md R122, 10_state.md R17, R18: a CMD write while BUSY is discarded but for OVR <- 1; OVR then stays 1 through
every command and every host action but a STATUS write with bit 3 set and reset. -/
def Obligations.CmdWriteWhileBusyIsRefused : Prop :=
  (∀ (s : State) (w : Word), s.busy = true →
    hostWrite .w32 0x000008 w s = .next { s with status := { s.status with ovr := true } }) ∧
  (∀ s t : State, s.status.ovr = true → step s = .next t →
    t.status.ovr = true ∨ s.host.head? = some .reset ∨
      ∃ w : Word, w.getLsbD 3 = true ∧ s.host.head? = some (.write .w32 0x00000C w))

/-- 10_state.md R14, R16, R18, R20 to R22, 20_memory.md R48, R52: at any time a STATUS write clears DONE and OVR where the written
bits are 1, and a CTRL write sets MODE and IE from bits 0 and 1; while not BUSY a write to ARG, IN_LEN or OUT_CAP stores the word,
which then reads back, and a write to a read-only register is ignored. None of them changes anything else. -/
def Obligations.StatusAndCtrlWrites : Prop :=
  ∀ (s : State) (v : Word),
    hostWrite .w32 0x00000C v s = .next { s with status := { s.status with
      done := s.status.done && !v.getLsbD 1, ovr := s.status.ovr && !v.getLsbD 3 } } ∧
    Completes (hostWrite .w32 0x000004 v s) (fun t =>
      t = { s with ctrl := t.ctrl } ∧ t.ctrl.word = v &&& 3 ∧ t.bs.mode = s.bs.mode ∧
      hostRead .w32 0x000004 t = .next { t with rdata := v &&& 3 }) ∧
    (s.busy = false →
      (hostWrite .w32 0x000014 v s = .next { s with arg := v } ∧
        hostRead .w32 0x000014 { s with arg := v } = .next { s with arg := v, rdata := v }) ∧
      (hostWrite .w32 0x000018 v s = .next { s with inLen := v } ∧
        hostRead .w32 0x000018 { s with inLen := v } = .next { s with inLen := v, rdata := v }) ∧
      (hostWrite .w32 0x00001C v s = .next { s with outCap := v } ∧
        hostRead .w32 0x00001C { s with outCap := v } = .next { s with outCap := v, rdata := v }) ∧
      (∀ addr ∈ readOnlyRegisters, hostWrite .w32 addr v s = .next s))

/-- 20_memory.md R52, 70_reset_and_hazards.md R135: while BUSY, ID, CTRL and STATUS read as they stand, every other read that
is aligned completes with some value and no other effect (log 3: reserved locations too), and writes to ARG, IN_LEN, OUT_CAP and
the windows have no step (log 15: window bytes beyond the RAM too). Log 15: a write to a read-only register is ignored. -/
def Obligations.BusyHostAccesses : Prop :=
  ∀ s : State, s.busy = true →
    hostRead .w32 0x000000 s = .next { s with rdata := 0x42524931 } ∧
    hostRead .w32 0x000004 s = .next { s with rdata := s.ctrl.word } ∧
    hostRead .w32 0x00000C s = .next { s with rdata := s.statusWord } ∧
    (∀ (w : Width) (addr : BitVec 24), target w addr ≠ none →
      Completes (hostRead w addr s) (fun t => t = { s with rdata := t.rdata, free := t.free })) ∧
    (∀ (addr : BitVec 24) (v : Word), addr ∈ [(0x14 : BitVec 24), 0x18, 0x1C] →
      hostWrite .w32 addr v s = .refused (.hostWriteBusy addr)) ∧
    (∀ (w : Width) (addr : BitVec 24) (v : Word), target w addr ≠ none →
      (0x001000 ≤ addr.toNat ∧ addr.toNat < 0x001800) ∨ (0x400000 ≤ addr.toNat ∧ addr.toNat < 0xC00000) →
      hostWrite w addr v s = .refused (.hostWriteBusy addr)) ∧
    (∀ addr ∈ readOnlyRegisters, ∀ v : Word, hostWrite .w32 addr v s = .next s)

/-- 60_exceptions.md R123, 10_state.md R38: IRQ = CTRL.IE & STATUS.DONE; it rises with a completion when enabled, and writing
1 to STATUS.DONE, accepting the next command, writing CTRL.IE = 0 or reset clears it. -/
def Obligations.IrqFollowsDone : Prop :=
  (∀ (i : Instr) (s : State), WhenNext (exec i s) (fun t => t.irq = s.ctrl.ie)) ∧
  (∀ (s : State) (v : Word),
    WhenNext (hostWrite .w32 0x00000C v s) (fun t => t.irq = (s.irq && !v.getLsbD 1)) ∧
    WhenNext (hostWrite .w32 0x000004 v s) (fun t => t.irq = (v.getLsbD 1 && s.status.done)) ∧
    (s.busy = false → WhenNext (hostWrite .w32 0x000008 v s) (fun t => t.irq = false)) ∧
    WhenNext (hostAction .reset s) (fun t => t.irq = false))

/-! ## Reset and the invariants -/

/-- 10_state.md R40: right after reset every register of R14 reads its reset value, ACC = 0, every slot is cleared, IRQ = 0, no
command is in progress, and a host read of a byte or entry of a RAM is a fault, since nothing has written it. -/
def Obligations.ResetValues : Prop :=
  hostRead .w32 0x000000 State.reset = .next { State.reset with rdata := 0x42524931 } ∧
  (∀ addr : BitVec 24, 0 < addr.toNat → addr.toNat < 0x001000 → addr.toNat % 4 = 0 →
    hostRead .w32 addr State.reset = .next { State.reset with rdata := 0 }) ∧
  State.reset.bs.acc = 0 ∧ (∀ k, State.reset.trees.get k = .cleared) ∧ State.reset.irq = false ∧
  State.reset.busy = false ∧ State.reset.cmd = none ∧
  (∀ i, i < Config.inMax →
    hostRead .w8 (BitVec.ofNat 24 (0x400000 + i)) State.reset = .fault (.unwritten .inRam i)) ∧
  (∀ i, i < Config.outMax →
    hostRead .w8 (BitVec.ofNat 24 (0x800000 + i)) State.reset = .fault (.unwritten .outRam i)) ∧
  (∀ i, i < 512 → hostRead .w32 (BitVec.ofNat 24 (0x001000 + 4 * i)) State.reset = .fault (.unwritten .clen i))

/-- 70_reset_and_hazards.md R129, R130, R131; log 12: the reset input, at any time, a command in progress included, gives the
reset state; what the host has still to do and has read is not the block's. -/
def Obligations.ResetInput : Prop :=
  ∀ s : State, hostAction .reset s = .next { State.reset with host := s.host, rdata := s.rdata, free := s.free }

/-- The reset state is good (10_state.md R40, 40_bitstream.md R72). -/
def Obligations.ResetIsGood : Prop := StateGood State.reset

/-- 20_memory.md R41, R49: every step keeps the three RAMs in canonical form and inside their sizes. -/
def Obligations.StepKeepsRams : Prop := ∀ s t : State, RamsGood s → step s = .next t → RamsGood t

/-- 40_bitstream.md R72, 10_state.md R23, R24, R35: every step keeps the reader's invariant. -/
def Obligations.StepKeepsReader : Prop := ∀ s t : State, ReaderGood s.bs → step s = .next t → ReaderGood t.bs

/-- 10_state.md R33, R36, 41_huffman.md R83: every step keeps each slot cleared or successfully built. -/
def Obligations.StepKeepsSlots : Prop := ∀ s t : State, SlotsGood s → step s = .next t → SlotsGood t

/-- 10_state.md R17, R18, 60_exceptions.md R115: every step keeps what STATUS says consistent. -/
def Obligations.StepKeepsStatus : Prop := ∀ s t : State, StatusGood s → step s = .next t → StatusGood t

/-- 10_state.md R27, R28, R32, 42_inflate.md R105: every step keeps OUT[0..OUT_POS-1] inside OUT and written, and the
reserved bits of ZHDR and BLKINFO 0. -/
def Obligations.StepKeepsInflateRegisters : Prop :=
  ∀ s t : State, OutputGood s → HeaderGood s → step s = .next t → OutputGood t ∧ HeaderGood t
end

