-- ==== Sys2Proof/Laws/State.lean ====
section
/-! SUPPORT. One lemma per field of State for each named update of it, true by rfl; no later proof unfolds an update. -/

namespace Sys2Proof.Machine

/-! ### complete -/

@[simp] theorem complete_ctrl (e : ErrCode) (r : Word) (s : State) :
    (complete e r s).ctrl = s.ctrl := rfl
@[simp] theorem complete_status (e : ErrCode) (r : Word) (s : State) :
    (complete e r s).status = { s.status with done := true, err := e != .ok, errcode := e } := rfl
@[simp] theorem complete_cmd (e : ErrCode) (r : Word) (s : State) :
    (complete e r s).cmd = none := rfl
@[simp] theorem complete_cmdMode (e : ErrCode) (r : Word) (s : State) :
    (complete e r s).cmdMode = s.cmdMode := rfl
@[simp] theorem complete_result (e : ErrCode) (r : Word) (s : State) :
    (complete e r s).result = r := rfl
@[simp] theorem complete_arg (e : ErrCode) (r : Word) (s : State) :
    (complete e r s).arg = s.arg := rfl
@[simp] theorem complete_inLen (e : ErrCode) (r : Word) (s : State) :
    (complete e r s).inLen = s.inLen := rfl
@[simp] theorem complete_outCap (e : ErrCode) (r : Word) (s : State) :
    (complete e r s).outCap = s.outCap := rfl
@[simp] theorem complete_bs (e : ErrCode) (r : Word) (s : State) :
    (complete e r s).bs = s.bs := rfl
@[simp] theorem complete_outPos (e : ErrCode) (r : Word) (s : State) :
    (complete e r s).outPos = s.outPos := rfl
@[simp] theorem complete_zhdr (e : ErrCode) (r : Word) (s : State) :
    (complete e r s).zhdr = s.zhdr := rfl
@[simp] theorem complete_dictid (e : ErrCode) (r : Word) (s : State) :
    (complete e r s).dictid = s.dictid := rfl
@[simp] theorem complete_adlerCalc (e : ErrCode) (r : Word) (s : State) :
    (complete e r s).adlerCalc = s.adlerCalc := rfl
@[simp] theorem complete_adlerStored (e : ErrCode) (r : Word) (s : State) :
    (complete e r s).adlerStored = s.adlerStored := rfl
@[simp] theorem complete_blkinfo (e : ErrCode) (r : Word) (s : State) :
    (complete e r s).blkinfo = s.blkinfo := rfl
@[simp] theorem complete_trees (e : ErrCode) (r : Word) (s : State) :
    (complete e r s).trees = s.trees := rfl
@[simp] theorem complete_inRam (e : ErrCode) (r : Word) (s : State) :
    (complete e r s).inRam = s.inRam := rfl
@[simp] theorem complete_outRam (e : ErrCode) (r : Word) (s : State) :
    (complete e r s).outRam = s.outRam := rfl
@[simp] theorem complete_clen (e : ErrCode) (r : Word) (s : State) :
    (complete e r s).clen = s.clen := rfl
@[simp] theorem complete_host (e : ErrCode) (r : Word) (s : State) :
    (complete e r s).host = s.host := rfl
@[simp] theorem complete_rdata (e : ErrCode) (r : Word) (s : State) :
    (complete e r s).rdata = s.rdata := rfl
@[simp] theorem complete_wait (e : ErrCode) (r : Word) (s : State) :
    (complete e r s).wait = s.wait := rfl
@[simp] theorem complete_free (e : ErrCode) (r : Word) (s : State) :
    (complete e r s).free = s.free := rfl

/-! ### accept -/

@[simp] theorem accept_ctrl (w : Word) (s : State) :
    (accept w s).ctrl = s.ctrl := rfl
@[simp] theorem accept_status (w : Word) (s : State) :
    (accept w s).status = { s.status with done := false, err := false, errcode := .ok } := rfl
@[simp] theorem accept_cmd (w : Word) (s : State) :
    (accept w s).cmd = some w := rfl
@[simp] theorem accept_cmdMode (w : Word) (s : State) :
    (accept w s).cmdMode = s.ctrl.mode := rfl
@[simp] theorem accept_result (w : Word) (s : State) :
    (accept w s).result = 0 := rfl
@[simp] theorem accept_arg (w : Word) (s : State) :
    (accept w s).arg = s.arg := rfl
@[simp] theorem accept_inLen (w : Word) (s : State) :
    (accept w s).inLen = s.inLen := rfl
@[simp] theorem accept_outCap (w : Word) (s : State) :
    (accept w s).outCap = s.outCap := rfl
@[simp] theorem accept_bs (w : Word) (s : State) :
    (accept w s).bs = s.bs := rfl
@[simp] theorem accept_outPos (w : Word) (s : State) :
    (accept w s).outPos = s.outPos := rfl
@[simp] theorem accept_zhdr (w : Word) (s : State) :
    (accept w s).zhdr = s.zhdr := rfl
@[simp] theorem accept_dictid (w : Word) (s : State) :
    (accept w s).dictid = s.dictid := rfl
@[simp] theorem accept_adlerCalc (w : Word) (s : State) :
    (accept w s).adlerCalc = s.adlerCalc := rfl
@[simp] theorem accept_adlerStored (w : Word) (s : State) :
    (accept w s).adlerStored = s.adlerStored := rfl
@[simp] theorem accept_blkinfo (w : Word) (s : State) :
    (accept w s).blkinfo = s.blkinfo := rfl
@[simp] theorem accept_trees (w : Word) (s : State) :
    (accept w s).trees = s.trees := rfl
@[simp] theorem accept_inRam (w : Word) (s : State) :
    (accept w s).inRam = s.inRam := rfl
@[simp] theorem accept_outRam (w : Word) (s : State) :
    (accept w s).outRam = s.outRam := rfl
@[simp] theorem accept_clen (w : Word) (s : State) :
    (accept w s).clen = s.clen := rfl
@[simp] theorem accept_host (w : Word) (s : State) :
    (accept w s).host = s.host := rfl
@[simp] theorem accept_rdata (w : Word) (s : State) :
    (accept w s).rdata = s.rdata := rfl
@[simp] theorem accept_wait (w : Word) (s : State) :
    (accept w s).wait = Config.engineDelay s.free := rfl
@[simp] theorem accept_free (w : Word) (s : State) :
    (accept w s).free = s.free + 1 := rfl

/-! ### inflateInit -/

@[simp] theorem inflateInit_ctrl (s : State) :
    (inflateInit s).ctrl = s.ctrl := rfl
@[simp] theorem inflateInit_status (s : State) :
    (inflateInit s).status = { s.status with ckpres := false, ckok := false, fdict := false } := rfl
@[simp] theorem inflateInit_cmd (s : State) :
    (inflateInit s).cmd = s.cmd := rfl
@[simp] theorem inflateInit_cmdMode (s : State) :
    (inflateInit s).cmdMode = s.cmdMode := rfl
@[simp] theorem inflateInit_result (s : State) :
    (inflateInit s).result = s.result := rfl
@[simp] theorem inflateInit_arg (s : State) :
    (inflateInit s).arg = s.arg := rfl
@[simp] theorem inflateInit_inLen (s : State) :
    (inflateInit s).inLen = s.inLen := rfl
@[simp] theorem inflateInit_outCap (s : State) :
    (inflateInit s).outCap = s.outCap := rfl
@[simp] theorem inflateInit_bs (s : State) :
    (inflateInit s).bs = Reader.start .deflate := rfl
@[simp] theorem inflateInit_outPos (s : State) :
    (inflateInit s).outPos = 0 := rfl
@[simp] theorem inflateInit_zhdr (s : State) :
    (inflateInit s).zhdr = 0 := rfl
@[simp] theorem inflateInit_dictid (s : State) :
    (inflateInit s).dictid = 0 := rfl
@[simp] theorem inflateInit_adlerCalc (s : State) :
    (inflateInit s).adlerCalc = 0 := rfl
@[simp] theorem inflateInit_adlerStored (s : State) :
    (inflateInit s).adlerStored = 0 := rfl
@[simp] theorem inflateInit_blkinfo (s : State) :
    (inflateInit s).blkinfo = 0 := rfl
@[simp] theorem inflateInit_trees (s : State) :
    (inflateInit s).trees = s.trees := rfl
@[simp] theorem inflateInit_inRam (s : State) :
    (inflateInit s).inRam = s.inRam := rfl
@[simp] theorem inflateInit_outRam (s : State) :
    (inflateInit s).outRam = s.outRam := rfl
@[simp] theorem inflateInit_clen (s : State) :
    (inflateInit s).clen = s.clen := rfl
@[simp] theorem inflateInit_host (s : State) :
    (inflateInit s).host = s.host := rfl
@[simp] theorem inflateInit_rdata (s : State) :
    (inflateInit s).rdata = s.rdata := rfl
@[simp] theorem inflateInit_wait (s : State) :
    (inflateInit s).wait = s.wait := rfl
@[simp] theorem inflateInit_free (s : State) :
    (inflateInit s).free = s.free := rfl

/-! ### inflateDone -/

@[simp] theorem inflateDone_ctrl (e : ErrCode) (s : State) :
    (inflateDone e s).ctrl = s.ctrl := rfl
@[simp] theorem inflateDone_status (e : ErrCode) (s : State) :
    (inflateDone e s).status = { s.status with done := true, err := e != .ok, errcode := e } := rfl
@[simp] theorem inflateDone_cmd (e : ErrCode) (s : State) :
    (inflateDone e s).cmd = none := rfl
@[simp] theorem inflateDone_cmdMode (e : ErrCode) (s : State) :
    (inflateDone e s).cmdMode = s.cmdMode := rfl
@[simp] theorem inflateDone_result (e : ErrCode) (s : State) :
    (inflateDone e s).result = BitVec.ofNat 32 s.outPos := rfl
@[simp] theorem inflateDone_arg (e : ErrCode) (s : State) :
    (inflateDone e s).arg = s.arg := rfl
@[simp] theorem inflateDone_inLen (e : ErrCode) (s : State) :
    (inflateDone e s).inLen = s.inLen := rfl
@[simp] theorem inflateDone_outCap (e : ErrCode) (s : State) :
    (inflateDone e s).outCap = s.outCap := rfl
@[simp] theorem inflateDone_bs (e : ErrCode) (s : State) :
    (inflateDone e s).bs = s.bs := rfl
@[simp] theorem inflateDone_outPos (e : ErrCode) (s : State) :
    (inflateDone e s).outPos = s.outPos := rfl
@[simp] theorem inflateDone_zhdr (e : ErrCode) (s : State) :
    (inflateDone e s).zhdr = s.zhdr := rfl
@[simp] theorem inflateDone_dictid (e : ErrCode) (s : State) :
    (inflateDone e s).dictid = s.dictid := rfl
@[simp] theorem inflateDone_adlerCalc (e : ErrCode) (s : State) :
    (inflateDone e s).adlerCalc = s.adlerCalc := rfl
@[simp] theorem inflateDone_adlerStored (e : ErrCode) (s : State) :
    (inflateDone e s).adlerStored = s.adlerStored := rfl
@[simp] theorem inflateDone_blkinfo (e : ErrCode) (s : State) :
    (inflateDone e s).blkinfo = s.blkinfo := rfl
@[simp] theorem inflateDone_trees (e : ErrCode) (s : State) :
    (inflateDone e s).trees = ⟨.cleared, .cleared, .cleared, s.trees.t3⟩ := rfl
@[simp] theorem inflateDone_inRam (e : ErrCode) (s : State) :
    (inflateDone e s).inRam = s.inRam := rfl
@[simp] theorem inflateDone_outRam (e : ErrCode) (s : State) :
    (inflateDone e s).outRam = s.outRam := rfl
@[simp] theorem inflateDone_clen (e : ErrCode) (s : State) :
    (inflateDone e s).clen = s.clen := rfl
@[simp] theorem inflateDone_host (e : ErrCode) (s : State) :
    (inflateDone e s).host = s.host := rfl
@[simp] theorem inflateDone_rdata (e : ErrCode) (s : State) :
    (inflateDone e s).rdata = s.rdata := rfl
@[simp] theorem inflateDone_wait (e : ErrCode) (s : State) :
    (inflateDone e s).wait = s.wait := rfl
@[simp] theorem inflateDone_free (e : ErrCode) (s : State) :
    (inflateDone e s).free = s.free := rfl

/-! ### hostReset -/

@[simp] theorem hostReset_ctrl (s : State) :
    (hostReset s).ctrl = State.reset.ctrl := rfl
@[simp] theorem hostReset_status (s : State) :
    (hostReset s).status = State.reset.status := rfl
@[simp] theorem hostReset_cmd (s : State) :
    (hostReset s).cmd = State.reset.cmd := rfl
@[simp] theorem hostReset_cmdMode (s : State) :
    (hostReset s).cmdMode = State.reset.cmdMode := rfl
@[simp] theorem hostReset_result (s : State) :
    (hostReset s).result = State.reset.result := rfl
@[simp] theorem hostReset_arg (s : State) :
    (hostReset s).arg = State.reset.arg := rfl
@[simp] theorem hostReset_inLen (s : State) :
    (hostReset s).inLen = State.reset.inLen := rfl
@[simp] theorem hostReset_outCap (s : State) :
    (hostReset s).outCap = State.reset.outCap := rfl
@[simp] theorem hostReset_bs (s : State) :
    (hostReset s).bs = State.reset.bs := rfl
@[simp] theorem hostReset_outPos (s : State) :
    (hostReset s).outPos = State.reset.outPos := rfl
@[simp] theorem hostReset_zhdr (s : State) :
    (hostReset s).zhdr = State.reset.zhdr := rfl
@[simp] theorem hostReset_dictid (s : State) :
    (hostReset s).dictid = State.reset.dictid := rfl
@[simp] theorem hostReset_adlerCalc (s : State) :
    (hostReset s).adlerCalc = State.reset.adlerCalc := rfl
@[simp] theorem hostReset_adlerStored (s : State) :
    (hostReset s).adlerStored = State.reset.adlerStored := rfl
@[simp] theorem hostReset_blkinfo (s : State) :
    (hostReset s).blkinfo = State.reset.blkinfo := rfl
@[simp] theorem hostReset_trees (s : State) :
    (hostReset s).trees = State.reset.trees := rfl
@[simp] theorem hostReset_inRam (s : State) :
    (hostReset s).inRam = State.reset.inRam := rfl
@[simp] theorem hostReset_outRam (s : State) :
    (hostReset s).outRam = State.reset.outRam := rfl
@[simp] theorem hostReset_clen (s : State) :
    (hostReset s).clen = State.reset.clen := rfl
@[simp] theorem hostReset_host (s : State) :
    (hostReset s).host = s.host := rfl
@[simp] theorem hostReset_rdata (s : State) :
    (hostReset s).rdata = s.rdata := rfl
@[simp] theorem hostReset_wait (s : State) :
    (hostReset s).wait = State.reset.wait := rfl
@[simp] theorem hostReset_free (s : State) :
    (hostReset s).free = s.free := rfl

/-! ### withFetchWord -/

@[simp] theorem withFetchWord_ctrl (s : State) (nbits w : Nat) :
    (s.withFetchWord nbits w).ctrl = s.ctrl := rfl
@[simp] theorem withFetchWord_status (s : State) (nbits w : Nat) :
    (s.withFetchWord nbits w).status = s.status := rfl
@[simp] theorem withFetchWord_cmd (s : State) (nbits w : Nat) :
    (s.withFetchWord nbits w).cmd = some (BitVec.ofNat 32 (w % 2 ^ nbits)) := rfl
@[simp] theorem withFetchWord_cmdMode (s : State) (nbits w : Nat) :
    (s.withFetchWord nbits w).cmdMode = s.ctrl.mode := rfl
@[simp] theorem withFetchWord_result (s : State) (nbits w : Nat) :
    (s.withFetchWord nbits w).result = s.result := rfl
@[simp] theorem withFetchWord_arg (s : State) (nbits w : Nat) :
    (s.withFetchWord nbits w).arg = s.arg := rfl
@[simp] theorem withFetchWord_inLen (s : State) (nbits w : Nat) :
    (s.withFetchWord nbits w).inLen = s.inLen := rfl
@[simp] theorem withFetchWord_outCap (s : State) (nbits w : Nat) :
    (s.withFetchWord nbits w).outCap = s.outCap := rfl
@[simp] theorem withFetchWord_bs (s : State) (nbits w : Nat) :
    (s.withFetchWord nbits w).bs = s.bs := rfl
@[simp] theorem withFetchWord_outPos (s : State) (nbits w : Nat) :
    (s.withFetchWord nbits w).outPos = s.outPos := rfl
@[simp] theorem withFetchWord_zhdr (s : State) (nbits w : Nat) :
    (s.withFetchWord nbits w).zhdr = s.zhdr := rfl
@[simp] theorem withFetchWord_dictid (s : State) (nbits w : Nat) :
    (s.withFetchWord nbits w).dictid = s.dictid := rfl
@[simp] theorem withFetchWord_adlerCalc (s : State) (nbits w : Nat) :
    (s.withFetchWord nbits w).adlerCalc = s.adlerCalc := rfl
@[simp] theorem withFetchWord_adlerStored (s : State) (nbits w : Nat) :
    (s.withFetchWord nbits w).adlerStored = s.adlerStored := rfl
@[simp] theorem withFetchWord_blkinfo (s : State) (nbits w : Nat) :
    (s.withFetchWord nbits w).blkinfo = s.blkinfo := rfl
@[simp] theorem withFetchWord_trees (s : State) (nbits w : Nat) :
    (s.withFetchWord nbits w).trees = s.trees := rfl
@[simp] theorem withFetchWord_inRam (s : State) (nbits w : Nat) :
    (s.withFetchWord nbits w).inRam = s.inRam := rfl
@[simp] theorem withFetchWord_outRam (s : State) (nbits w : Nat) :
    (s.withFetchWord nbits w).outRam = s.outRam := rfl
@[simp] theorem withFetchWord_clen (s : State) (nbits w : Nat) :
    (s.withFetchWord nbits w).clen = s.clen := rfl
@[simp] theorem withFetchWord_host (s : State) (nbits w : Nat) :
    (s.withFetchWord nbits w).host = s.host := rfl
@[simp] theorem withFetchWord_rdata (s : State) (nbits w : Nat) :
    (s.withFetchWord nbits w).rdata = s.rdata := rfl
@[simp] theorem withFetchWord_wait (s : State) (nbits w : Nat) :
    (s.withFetchWord nbits w).wait = 0 := rfl
@[simp] theorem withFetchWord_free (s : State) (nbits w : Nat) :
    (s.withFetchWord nbits w).free = s.free := rfl

/-! ### withHost -/

@[simp] theorem withHost_ctrl (s : State) (p : List HostAction) :
    (s.withHost p).ctrl = s.ctrl := rfl
@[simp] theorem withHost_status (s : State) (p : List HostAction) :
    (s.withHost p).status = s.status := rfl
@[simp] theorem withHost_cmd (s : State) (p : List HostAction) :
    (s.withHost p).cmd = s.cmd := rfl
@[simp] theorem withHost_cmdMode (s : State) (p : List HostAction) :
    (s.withHost p).cmdMode = s.cmdMode := rfl
@[simp] theorem withHost_result (s : State) (p : List HostAction) :
    (s.withHost p).result = s.result := rfl
@[simp] theorem withHost_arg (s : State) (p : List HostAction) :
    (s.withHost p).arg = s.arg := rfl
@[simp] theorem withHost_inLen (s : State) (p : List HostAction) :
    (s.withHost p).inLen = s.inLen := rfl
@[simp] theorem withHost_outCap (s : State) (p : List HostAction) :
    (s.withHost p).outCap = s.outCap := rfl
@[simp] theorem withHost_bs (s : State) (p : List HostAction) :
    (s.withHost p).bs = s.bs := rfl
@[simp] theorem withHost_outPos (s : State) (p : List HostAction) :
    (s.withHost p).outPos = s.outPos := rfl
@[simp] theorem withHost_zhdr (s : State) (p : List HostAction) :
    (s.withHost p).zhdr = s.zhdr := rfl
@[simp] theorem withHost_dictid (s : State) (p : List HostAction) :
    (s.withHost p).dictid = s.dictid := rfl
@[simp] theorem withHost_adlerCalc (s : State) (p : List HostAction) :
    (s.withHost p).adlerCalc = s.adlerCalc := rfl
@[simp] theorem withHost_adlerStored (s : State) (p : List HostAction) :
    (s.withHost p).adlerStored = s.adlerStored := rfl
@[simp] theorem withHost_blkinfo (s : State) (p : List HostAction) :
    (s.withHost p).blkinfo = s.blkinfo := rfl
@[simp] theorem withHost_trees (s : State) (p : List HostAction) :
    (s.withHost p).trees = s.trees := rfl
@[simp] theorem withHost_inRam (s : State) (p : List HostAction) :
    (s.withHost p).inRam = s.inRam := rfl
@[simp] theorem withHost_outRam (s : State) (p : List HostAction) :
    (s.withHost p).outRam = s.outRam := rfl
@[simp] theorem withHost_clen (s : State) (p : List HostAction) :
    (s.withHost p).clen = s.clen := rfl
@[simp] theorem withHost_host (s : State) (p : List HostAction) :
    (s.withHost p).host = p := rfl
@[simp] theorem withHost_rdata (s : State) (p : List HostAction) :
    (s.withHost p).rdata = s.rdata := rfl
@[simp] theorem withHost_wait (s : State) (p : List HostAction) :
    (s.withHost p).wait = s.wait := rfl
@[simp] theorem withHost_free (s : State) (p : List HostAction) :
    (s.withHost p).free = s.free := rfl

/-! ### Views -/

/-- The model's completion is the record update the statements are written with. -/
theorem complete_eq_completed (e : ErrCode) (r : Word) (s : State) : complete e r s = completed e r s := rfl

@[simp] theorem complete_busy (e : ErrCode) (r : Word) (s : State) : (complete e r s).busy = false := rfl
@[simp] theorem accept_busy (w : Word) (s : State) : (accept w s).busy = true := rfl
@[simp] theorem completed_cmd (e : ErrCode) (r : Word) (s : State) : (completed e r s).cmd = none := rfl
@[simp] theorem complete_irq (e : ErrCode) (r : Word) (s : State) : (complete e r s).irq = s.ctrl.ie := by
  simp [State.irq]

@[simp] theorem trees_get_set_same (t : Trees) (k : Slot) (v : TreeSlot) : (t.set k v).get k = v := by
  cases k <;> rfl
theorem trees_get_set_other (t : Trees) (k j : Slot) (v : TreeSlot) (h : j ≠ k) : (t.set k v).get j = t.get j := by
  cases k <;> cases j <;> first | rfl | exact absurd rfl h
@[simp] theorem trees_set_set (t : Trees) (k : Slot) (v w : TreeSlot) : (t.set k v).set k w = t.set k w := by
  cases k <;> rfl
@[simp] theorem trees_set_get (t : Trees) (k : Slot) : t.set k (t.get k) = t := by
  cases k <;> rfl

end Sys2Proof.Machine
end

