-- ==== Sys2Proof/Laws/Memory.lean ====
section
/-! SUPPORT. The laws of the RAMs: a read after a write, the canonical form kept, equal contents are equal data. -/

namespace Sys2Proof.Machine

variable {α : Type}

@[simp] theorem memory_read_nil (a : Nat) : Memory.read ([] : Memory α) a = none := rfl

/-- What a write does to every read. -/
theorem memory_read_write (m : Memory α) (a : Nat) (v : α) (b : Nat) :
    (m.write a v).read b = if b = a then some v else m.read b := by
  induction m with
  | nil => simp [Memory.write, Memory.read]
  | cons e rest ih =>
    obtain ⟨c, u⟩ := e
    simp only [Memory.write]
    split
    · simp [Memory.read]
    · split
      · next h1 h2 =>
        subst h2
        simp only [Memory.read]
        split <;> rfl
      · next h1 h2 =>
        simp only [Memory.read, ih]
        split
        · next h3 =>
          subst h3
          rw [if_neg (fun h => h2 h.symm)]
        · rfl

/-- The addresses a write lists: the one written and those before. -/
theorem memory_write_addresses (m : Memory α) (a : Nat) (v : α) (x : Nat)
    (hx : x ∈ (m.write a v).map Prod.fst) : x = a ∨ x ∈ m.map Prod.fst := by
  induction m with
  | nil => simpa [Memory.write] using hx
  | cons d ds ih =>
    obtain ⟨d1, d2⟩ := d
    simp only [Memory.write] at hx
    split at hx
    · simpa using hx
    · split at hx
      · simp only [List.map_cons, List.mem_cons] at hx ⊢
        tauto
      · simp only [List.map_cons, List.mem_cons] at hx ⊢
        rcases hx with h | h
        · exact Or.inr (Or.inl h)
        · rcases ih h with h | h
          · exact Or.inl h
          · exact Or.inr (Or.inr h)

/-- A write keeps the canonical form. -/
theorem memory_write_wf (m : Memory α) (a : Nat) (v : α) (hm : m.wf) : (m.write a v).wf := by
  induction m with
  | nil => simp [Memory.write, Memory.wf]
  | cons e rest ih =>
    obtain ⟨c, u⟩ := e
    have hm' := hm
    rw [Memory.wf, List.map_cons, List.pairwise_cons] at hm'
    obtain ⟨hc, hr⟩ := hm'
    rw [Memory.write]
    split
    · next h =>
      rw [Memory.wf, List.map_cons, List.pairwise_cons]
      refine ⟨?_, hm⟩
      intro x hx
      rcases List.mem_cons.mp hx with rfl | hx
      · exact h
      · exact Nat.lt_trans h (hc x hx)
    · split
      · next h => subst h; exact hm
      · next h1 h2 =>
        rw [Memory.wf, List.map_cons, List.pairwise_cons]
        refine ⟨?_, ih hr⟩
        intro x hx
        rcases memory_write_addresses rest a v x hx with rfl | hx
        · simp only at h1 h2 ⊢; omega
        · exact hc x hx

/-- A write below the size keeps a RAM good. -/
theorem ramGood_write (size : Nat) (m : Memory α) (a : Nat) (v : α) (hm : RamGood size m) (ha : a < size) :
    RamGood size (m.write a v) := by
  refine ⟨memory_write_wf m a v hm.1, ?_⟩
  intro x hx
  rcases memory_write_addresses m a v x hx with rfl | hx
  · exact ha
  · exact hm.2 x hx

/-- An unlisted address is unwritten; a listed one is not. -/
theorem memory_read_isSome (m : Memory α) (a : Nat) : (m.read a).isSome ↔ a ∈ m.map Prod.fst := by
  induction m with
  | nil => simp
  | cons d ds ih =>
    obtain ⟨d1, d2⟩ := d
    simp only [Memory.read]
    split
    · next h => simp [h]
    · next h => rw [ih]; simp [h]

/-- Equal contents are equal data. -/
theorem memory_ext (m n : Memory α) (hm : m.wf) (hn : n.wf) (h : ∀ a, m.read a = n.read a) : m = n := by
  induction m generalizing n with
  | nil =>
    cases n with
    | nil => rfl
    | cons d ds => simpa [Memory.read] using h d.1
  | cons e es ih =>
    cases n with
    | nil => simpa [Memory.read] using h e.1
    | cons d ds =>
      obtain ⟨e1, e2⟩ := e
      obtain ⟨d1, d2⟩ := d
      simp only [Memory.wf, List.map_cons, List.pairwise_cons] at hm hn
      have he : e1 = d1 := by
        have h1 := h e1
        have h2 := h d1
        simp only [Memory.read, if_true] at h1 h2
        by_contra hne
        rw [if_neg hne] at h1
        rw [if_neg (fun hh => hne hh.symm)] at h2
        have m1 : e1 ∈ ds.map Prod.fst := (memory_read_isSome ds e1).mp (by rw [← h1]; rfl)
        have m2 : d1 ∈ es.map Prod.fst := (memory_read_isSome es d1).mp (by rw [h2]; rfl)
        have := hn.1 e1 m1
        have := hm.1 d1 m2
        omega
      subst he
      have hv : e2 = d2 := by simpa [Memory.read] using h e1
      subst hv
      congr 1
      refine ih ds hm.2 hn.2 (fun a => ?_)
      have ha := h a
      simp only [Memory.read] at ha
      by_cases hae : a = e1
      · subst hae
        have n1 : Memory.read es a = none := by
          rw [← Option.not_isSome_iff_eq_none, memory_read_isSome]
          intro hmem; exact absurd (hm.1 a hmem) (Nat.lt_irrefl a)
        have n2 : Memory.read ds a = none := by
          rw [← Option.not_isSome_iff_eq_none, memory_read_isSome]
          intro hmem; exact absurd (hn.1 a hmem) (Nat.lt_irrefl a)
        rw [n1, n2]
      · rwa [if_neg hae, if_neg hae] at ha

end Sys2Proof.Machine
end

