-- ==== Sys2Proof/Laws/Engine.lean ====
section
/-! SUPPORT. Reasoning about a piece of a command: what running it gives, triples over its two ends, and frames.
Each shared piece has one lemma here that says once everything it can do. -/

namespace Sys2Proof.Machine

open Host (Outcome)

variable {α β : Type}

/-! ## Running -/

theorem engine_bind (m : Engine α) (f : α → Engine β) (s : State) :
    (m >>= f) s = match m s with
      | .ok a t => f a t
      | .error e t => .error e t := by
  change EStateM.bind m f s = _
  unfold EStateM.bind
  cases m s <;> rfl

theorem engine_map (g : α → β) (m : Engine α) (s : State) :
    (g <$> m) s = match m s with
      | .ok a t => .ok (g a) t
      | .error e t => .error e t := by
  change EStateM.map g m s = _
  unfold EStateM.map
  cases m s <;> rfl

@[simp] theorem engine_pure (a : α) (s : State) : (pure a : Engine α) s = .ok a s := rfl
@[simp] theorem engine_get (s : State) : (get : Engine State) s = .ok s s := rfl
@[simp] theorem engine_modify (f : State → State) (s : State) : (modify f : Engine Unit) s = .ok () (f s) := rfl
@[simp] theorem raise_run (e : ErrCode) (s : State) : (raise e : Engine α) s = .error (.raise e) s := rfl
@[simp] theorem stopFault_run (f : Fault) (s : State) : (stopFault f : Engine α) s = .error (.fault f) s := rfl
theorem failIf_run (c : Bool) (e : ErrCode) (s : State) :
    failIf c e s = if c then .error (.raise e) s else .ok () s := rfl
@[simp] theorem failIf_false (e : ErrCode) (s : State) : failIf false e s = .ok () s := rfl
@[simp] theorem failIf_true (e : ErrCode) (s : State) : failIf true e s = .error (.raise e) s := rfl
@[simp] theorem pushOut_run (b : Byte) (s : State) :
    pushOut b s = .ok () { s with outRam := s.outRam.write s.outPos b, outPos := s.outPos + 1 } := rfl
@[simp] theorem writeSlot_run (k : Slot) (v : TreeSlot) (s : State) :
    writeSlot k v s = .ok () { s with trees := s.trees.set k v } := rfl
@[simp] theorem bsAlign_run (s : State) : bsAlign s = .ok () { s with bs := s.bs.align } := rfl

/-! ## Triples -/

/-- From every state with P the run ends well with Q, or stops with E. -/
def Spec (P : State → Prop) (m : Engine α) (Q : α → State → Prop) (E : Stop → State → Prop) : Prop :=
  ∀ s, P s → match m s with
    | .ok a t => Q a t
    | .error e t => E e t

theorem Spec.bind {P : State → Prop} {m : Engine α} {f : α → Engine β} {R : α → State → Prop} {Q : β → State → Prop}
    {E : Stop → State → Prop} (hm : Spec P m R E) (hf : ∀ a, Spec (R a) (f a) Q E) : Spec P (m >>= f) Q E := by
  intro s hs
  have h := hm s hs
  rw [engine_bind]
  cases hr : m s with
  | ok a t => rw [hr] at h; exact hf a t h
  | error e t => rw [hr] at h; exact h

theorem Spec.conseq {P P' : State → Prop} {m : Engine α} {Q Q' : α → State → Prop} {E E' : Stop → State → Prop}
    (h : Spec P m Q E) (hP : ∀ s, P' s → P s) (hQ : ∀ a s, Q a s → Q' a s) (hE : ∀ e s, E e s → E' e s) :
    Spec P' m Q' E' := by
  intro s hs
  have h' := h s (hP s hs)
  cases hr : m s with
  | ok a t => rw [hr] at h'; exact hQ a t h'
  | error e t => rw [hr] at h'; exact hE e t h'

theorem Spec.pure {P : State → Prop} {Q : α → State → Prop} {E : Stop → State → Prop} (a : α) (h : ∀ s, P s → Q a s) :
    Spec P (pure a) Q E := fun s hs => h s hs

theorem Spec.ite {P : State → Prop} {c : Prop} [Decidable c] {m n : Engine α} {Q : α → State → Prop}
    {E : Stop → State → Prop} (hm : c → Spec P m Q E) (hn : ¬ c → Spec P n Q E) : Spec P (if c then m else n) Q E := by
  split
  · next h => exact hm h
  · next h => exact hn h

/-- The piece keeps I, however it ends. -/
def KeepsInv (I : State → Prop) (m : Engine α) : Prop := Spec I m (fun _ => I) (fun _ => I)

theorem KeepsInv.bind {I : State → Prop} {m : Engine α} {f : α → Engine β} (hm : KeepsInv I m)
    (hf : ∀ a, KeepsInv I (f a)) : KeepsInv I (m >>= f) := Spec.bind hm hf

theorem KeepsInv.ite {I : State → Prop} {c : Prop} [Decidable c] {m n : Engine α} (hm : KeepsInv I m)
    (hn : KeepsInv I n) : KeepsInv I (if c then m else n) := Spec.ite (fun _ => hm) (fun _ => hn)

/-- A piece that never changes the state keeps every invariant. -/
def Still (m : Engine α) : Prop := ∀ s, match m s with
  | .ok _ t => t = s
  | .error _ t => t = s

theorem Still.keepsInv {m : Engine α} (h : Still m) (I : State → Prop) : KeepsInv I m := by
  intro s hs
  have h' := h s
  cases hr : m s with
  | ok a t => rw [hr] at h'; simpa [h'] using hs
  | error e t => rw [hr] at h'; simpa [h'] using hs

theorem Still.bind {m : Engine α} {f : α → Engine β} (hm : Still m) (hf : ∀ a, Still (f a)) : Still (m >>= f) := by
  intro s
  have h := hm s
  rw [engine_bind]
  cases hr : m s with
  | ok a t => rw [hr] at h; subst h; exact hf a _
  | error e t => rw [hr] at h; exact h

theorem still_pure (a : α) : Still (pure a : Engine α) := fun _ => rfl
theorem still_get : Still (get : Engine State) := fun _ => rfl
theorem still_raise (e : ErrCode) : Still (raise e : Engine α) := fun _ => rfl
theorem still_stopFault (f : Fault) : Still (stopFault f : Engine α) := fun _ => rfl
theorem still_failIf (c : Bool) (e : ErrCode) : Still (failIf c e) := by
  intro s; cases c <;> rfl
theorem still_readIn (i : Nat) : Still (readIn i) := by
  intro s; unfold readIn; cases s.inRam.read i <;> rfl
theorem still_readOut (i : Nat) : Still (readOut i) := by
  intro s; unfold readOut; cases s.outRam.read i <;> rfl
theorem still_readClen (i : Nat) : Still (readClen i) := by
  intro s; unfold readClen; cases s.clen.read i <;> rfl
theorem still_checkInLen : Still checkInLen := fun s => still_failIf _ _ s
theorem still_checkValid (k : Slot) : Still (checkValid k) := fun s => still_failIf _ _ s

theorem still_clenList (n i : Nat) : Still (clenList i n) := by
  induction n generalizing i with
  | zero => exact still_pure []
  | succ n ih => exact (still_readClen i).bind fun _ => (ih (i + 1)).bind fun _ => still_pure _

theorem still_inList (n i : Nat) : Still (inList i n) := by
  induction n generalizing i with
  | zero => exact still_pure []
  | succ n ih => exact (still_readIn i).bind fun _ => (ih (i + 1)).bind fun _ => still_pure _

theorem still_outList (n i : Nat) : Still (outList i n) := by
  induction n generalizing i with
  | zero => exact still_pure []
  | succ n ih => exact (still_readOut i).bind fun _ => (ih (i + 1)).bind fun _ => still_pure _

/-! ## What the reads of a RAM answer -/

theorem readIn_some (s : State) (i : Nat) (b : Byte) (h : s.inRam.read i = some b) : readIn i s = .ok b s := by
  simp [readIn, h]
theorem readOut_some (s : State) (i : Nat) (b : Byte) (h : s.outRam.read i = some b) : readOut i s = .ok b s := by
  simp [readOut, h]
theorem readClen_some (s : State) (i : Nat) (l : BitVec 5) (h : s.clen.read i = some l) :
    readClen i s = .ok l.toNat s := by
  simp [readClen, h]

/-- Moves a Holds fact past its first element. -/
theorem holds_cons {γ : Type} (m : Memory γ) (a : Nat) (v : γ) (vs : List γ) :
    Holds m a (v :: vs) ↔ m.read a = some v ∧ Holds m (a + 1) vs := by
  constructor
  · intro h
    refine ⟨h 0 (Nat.zero_lt_succ _), fun i hi => ?_⟩
    have := h (i + 1) (by simpa using hi)
    simpa [Nat.add_assoc, Nat.add_comm 1 i] using this
  · rintro ⟨h0, h1⟩ i hi
    cases i with
    | zero => simpa using h0
    | succ i =>
      have := h1 i (by simpa using hi)
      simpa [Nat.add_assoc, Nat.add_comm 1 i] using this

/-- CLEN[i..] read as a list. -/
theorem clenList_holds (s : State) (entries : List (BitVec 5)) (i : Nat) (h : Holds s.clen i entries) :
    clenList i entries.length s = .ok (entries.map (fun e => e.toNat)) s := by
  induction entries generalizing i with
  | nil => rfl
  | cons e es ih =>
    obtain ⟨h0, h1⟩ := (holds_cons _ _ _ _).mp h
    simp [clenList, engine_bind, engine_map, readClen_some s i e h0, ih (i + 1) h1]

/-- IN[i..] read as a list. -/
theorem inList_holds (s : State) (bytes : List Byte) (i : Nat) (h : Holds s.inRam i bytes) :
    inList i bytes.length s = .ok bytes s := by
  induction bytes generalizing i with
  | nil => rfl
  | cons e es ih =>
    obtain ⟨h0, h1⟩ := (holds_cons _ _ _ _).mp h
    simp [inList, engine_bind, engine_map, readIn_some s i e h0, ih (i + 1) h1]

/-- OUT[i..] read as a list. -/
theorem outList_holds (s : State) (bytes : List Byte) (i : Nat) (h : Holds s.outRam i bytes) :
    outList i bytes.length s = .ok bytes s := by
  induction bytes generalizing i with
  | nil => rfl
  | cons e es ih =>
    obtain ⟨h0, h1⟩ := (holds_cons _ _ _ _).mp h
    simp [outList, engine_bind, engine_map, readOut_some s i e h0, ih (i + 1) h1]

/-! ## Running a whole command -/

/-- Everything a command run to its completion can do (60_exceptions.md R115, R116). -/
theorem runCommand_next (m : Engine Word) (s t : State) (h : runCommand m s = .next t) :
    (∃ v u, m s = .ok v u ∧ t = completed .ok v u) ∨
    (∃ e u, m s = .error (.raise e) u ∧ t = completed e 0 u) := by
  unfold runCommand at h
  cases hr : m s with
  | ok v u => rw [hr] at h; exact Or.inl ⟨v, u, rfl, by simpa [complete_eq_completed] using h.symm⟩
  | error e u =>
    rw [hr] at h
    cases e with
    | raise e => exact Or.inr ⟨e, u, rfl, by simpa [complete_eq_completed] using h.symm⟩
    | fault f => simp at h

theorem runCommand_ok (m : Engine Word) (s u : State) (v : Word) (h : m s = .ok v u) :
    runCommand m s = .next (completed .ok v u) := by simp [runCommand, h, complete_eq_completed]
theorem runCommand_raise (m : Engine Word) (s u : State) (e : ErrCode) (h : m s = .error (.raise e) u) :
    runCommand m s = .next (completed e 0 u) := by simp [runCommand, h, complete_eq_completed]
theorem runCommand_fault (m : Engine Word) (s u : State) (f : Fault) (h : m s = .error (.fault f) u) :
    runCommand m s = .fault f := by simp [runCommand, h]

end Sys2Proof.Machine
end

