-- ==== Sys2Proof/Laws/BitReader.lean ====
section
/-! SUPPORT. The bit reader (40_bitstream.md): what one refill, the refill loop and BsGet can do, and what the bits they
give have to do with the stream of R66. -/

namespace Sys2Proof.Machine

open Host (Outcome)

/-! ## Loads and the pending bits -/

theorem unit_pos (m : BitOrder) : 8 ≤ m.unit := by cases m <;> decide

/-- In DEFLATE order a load leaves the pending bits and adds the byte's. -/
theorem loadByte_pending (r : Reader) (b : Byte) (hm : r.mode = .deflate) (hc : AccClean r) (i : Nat)
    (hi : i < r.bitcnt + 8) (h64 : r.bitcnt + 8 ≤ 64) :
    (r.loadByte b).pending i = if i < r.bitcnt then r.pending i else b.getLsbD (i - r.bitcnt) := by
  have hacc : r.acc.toNat < 2 ^ r.bitcnt := by simpa [AccClean, hm] using hc
  simp only [Reader.pending, Reader.loadByte, hm, BitVec.getLsbD_or, BitVec.getLsbD_shiftLeft,
    BitVec.getLsbD_setWidth]
  split
  · next h => simp [h]
  · next h =>
    have hz : r.acc.getLsbD i = false := by
      rw [BitVec.getLsbD, Nat.testBit_lt_two_pow]
      exact Nat.lt_of_lt_of_le hacc (Nat.pow_le_pow_right (by omega) (by omega))
    have h1 : i < 64 := by omega
    have h2 : i - r.bitcnt < 64 := by omega
    simp only [hz, h, h1, h2, decide_true, decide_false, Bool.not_false, Bool.true_and, Bool.false_or]

theorem loadByte_clean (r : Reader) (b : Byte) (hm : r.mode = .deflate) (hc : AccClean r) :
    AccClean (r.loadByte b) := by
  have hacc : r.acc.toNat < 2 ^ r.bitcnt := by simpa [AccClean, hm] using hc
  simp only [AccClean, Reader.loadByte, hm, BitVec.toNat_or, BitVec.toNat_shiftLeft, BitVec.toNat_setWidth]
  apply Nat.or_lt_two_pow
  · exact Nat.lt_of_lt_of_le hacc (Nat.pow_le_pow_right (by omega) (by omega))
  · refine Nat.lt_of_le_of_lt (Nat.mod_le _ _) ?_
    rw [Nat.shiftLeft_eq, Nat.pow_add, Nat.mul_comm]
    apply Nat.mul_lt_mul_of_pos_left _ (Nat.two_pow_pos _)
    exact Nat.lt_of_le_of_lt (Nat.mod_le _ _) b.isLt

/-- In LZX order a clean ACC has no bit below its pending field. -/
theorem accClean_lzx_bit (r : Reader) (hm : r.mode = .lzx) (hc : AccClean r) (j : Nat) (hj : j < 64 - r.bitcnt) :
    r.acc.getLsbD j = false := by
  have h : r.acc.toNat % 2 ^ (64 - r.bitcnt) = 0 := by simpa [AccClean, hm] using hc
  have := Nat.testBit_mod_two_pow r.acc.toNat (64 - r.bitcnt) j
  rw [h, Nat.zero_testBit] at this
  simpa [hj, BitVec.getLsbD] using this.symm

/-- In LZX order a load leaves the pending bits and adds the word's, from its top. -/
theorem loadWord_pending (r : Reader) (lo hi : Byte) (hm : r.mode = .lzx) (hc : AccClean r) (i : Nat)
    (hi' : i < r.bitcnt + 16) (h64 : r.bitcnt ≤ 48) :
    (r.loadWord lo hi).pending i =
      if i < r.bitcnt then r.pending i else (hi ++ lo).getLsbD (15 - (i - r.bitcnt)) := by
  simp only [Reader.pending, Reader.loadWord, hm, BitVec.getLsbD_or, BitVec.getLsbD_shiftLeft,
    BitVec.getLsbD_setWidth, BitVec.getLsbD_append]
  split
  · next h =>
    have h1 : ¬ 63 - i < 48 - r.bitcnt := by omega
    have h2 : 8 ≤ 63 - i - (48 - r.bitcnt) := by omega
    have h3 : 8 ≤ 63 - i - (48 - r.bitcnt) - 8 := by omega
    simp [BitVec.getLsbD_of_ge _ _ h2, BitVec.getLsbD_of_ge _ _ h3]
  · next h =>
    have hz : r.acc.getLsbD (63 - i) = false := accClean_lzx_bit r hm hc _ (by omega)
    have e : 63 - i - (48 - r.bitcnt) = 15 - (i - r.bitcnt) := by omega
    have h1 : ¬ 63 - i < 48 - r.bitcnt := by omega
    have h2 : 63 - i < 64 := by omega
    have h3 : 15 - (i - r.bitcnt) < 64 := by omega
    have h4 : 15 - (i - r.bitcnt) - 8 < 64 := by omega
    simp only [hz, e, h1, h2, h3, h4, decide_true, decide_false, Bool.not_false, Bool.true_and, Bool.false_or]
    by_cases h8 : 15 - (i - r.bitcnt) < 8
    · simp [h8]
    · simp [h8, BitVec.getLsbD_of_ge lo _ (Nat.not_lt.mp h8)]

theorem loadWord_clean (r : Reader) (lo hi : Byte) (hm : r.mode = .lzx) (hc : AccClean r) (h64 : r.bitcnt ≤ 48) :
    AccClean (r.loadWord lo hi) := by
  have hb : ∀ j, j < 64 - (r.bitcnt + 16) → (r.loadWord lo hi).acc.toNat.testBit j = false := by
    intro j hj
    have h1 := accClean_lzx_bit r hm hc j (by omega)
    have h2 : j < 48 - r.bitcnt := by omega
    change (r.loadWord lo hi).acc.getLsbD j = false
    simp only [Reader.loadWord, BitVec.getLsbD_or, BitVec.getLsbD_shiftLeft, h1, h2, decide_true, Bool.not_true,
      Bool.and_false, Bool.false_and, Bool.or_false]
  have hg : AccClean (r.loadWord lo hi) ↔ (r.loadWord lo hi).acc.toNat % 2 ^ (64 - (r.bitcnt + 16)) = 0 := by
    simp [AccClean, Reader.loadWord, hm]
  rw [hg]
  apply Nat.eq_of_testBit_eq
  intro j
  rw [Nat.testBit_mod_two_pow, Nat.zero_testBit]
  by_cases hj : j < 64 - (r.bitcnt + 16)
  · rw [hb j hj, Bool.and_false]
  · simp only [hj, decide_false, Bool.false_and]

/-! ## The refill loop -/

/-- What holds of the reader at every turn of the refill for an n-bit read that has its bits available. -/
def ReadLoop (n : Nat) (s : State) : Prop :=
  (s.bs.mode = .lzx → s.bs.offset % 2 = 0) ∧ AccClean s.bs ∧ s.bs.bitcnt ≤ 8 * s.bs.offset ∧
    s.bs.offset ≤ Config.inMax ∧ s.bs.bitcnt < n + s.bs.mode.unit ∧ n ≤ s.bs.avail s.inLen.toNat

/-- Everything one turn of the refill can do. -/
theorem refillOne_spec (n : Nat) (s : State) (h : ReadLoop n s) (hn : n ≤ 32) (hl : s.inLen.toNat ≤ Config.inMax)
    (hb : s.bs.bitcnt < n) :
    match refillOne s with
    | .ok () t =>
      ReadLoop n t ∧ t = { s with bs := t.bs } ∧ t.bs.mode = s.bs.mode ∧ t.bs.bitpos = s.bs.bitpos ∧
        t.bs.bitcnt = s.bs.bitcnt + s.bs.mode.unit ∧ t.bs.offset ≤ s.inLen.toNat ∧ (Coherent s → Coherent t)
    | .error e t => t = s ∧ ∃ i, e = .fault (.unwritten .inRam i) ∧ s.inRam.read i = none ∧ s.bs.offset ≤ i ∧
        i < s.inLen.toNat ∧ i < s.bs.offset + s.bs.mode.unit / 8 ∧
        streamBit s.bs.mode s.inRam (s.bs.bitpos + s.bs.bitcnt) = none := by
  obtain ⟨he, hc, hp, ho, hu, ha⟩ := h
  unfold refillOne
  rw [engine_bind, engine_get]
  have hq0 : s.bs.bitpos + s.bs.bitcnt = 8 * s.bs.offset := by simp only [Reader.bitpos]; omega
  cases hm : s.bs.mode with
  | deflate =>
    simp only [hm, Reader.avail, BitOrder.unit] at ha hu ⊢
    have hlt : s.bs.offset < s.inLen.toNat := by omega
    have h10 : 8 * s.bs.offset / 8 = s.bs.offset := by omega
    simp only [engine_bind, readIn]
    cases hr : s.inRam.read s.bs.offset with
    | none => exact ⟨rfl, _, rfl, hr, Nat.le_refl _, hlt, by omega, by rw [hq0, streamBit, h10, hr]; rfl⟩
    | some b =>
      simp only [engine_modify]
      refine ⟨⟨by simp [Reader.loadByte, hm], loadByte_clean _ _ hm hc, ?_, ?_, ?_, ?_⟩, trivial, ?_, ?_, ?_, ?_, ?_⟩
      · simp only [Reader.loadByte]; omega
      · simp only [Reader.loadByte]; omega
      · simp only [Reader.loadByte, hm, BitOrder.unit]; omega
      · simp only [Reader.avail, Reader.loadByte, hm]; omega
      · simp [Reader.loadByte, hm]
      · simp only [Reader.bitpos, Reader.loadByte]; omega
      · simp [Reader.loadByte]
      · simp only [Reader.loadByte]; omega
      · intro hco i hi
        have hi' : i < s.bs.bitcnt + 8 := hi
        have hpos : (s.bs.loadByte b).bitpos = s.bs.bitpos := by simp only [Reader.bitpos, Reader.loadByte]; omega
        simp only [hpos]
        rw [loadByte_pending _ _ hm hc i hi' (by omega)]
        split
        · next h => exact hco i h
        · next h =>
          have hq : s.bs.bitpos + i = 8 * s.bs.offset + (i - s.bs.bitcnt) := by simp only [Reader.bitpos]; omega
          have h1 : (8 * s.bs.offset + (i - s.bs.bitcnt)) / 8 = s.bs.offset := by omega
          have h2 : (8 * s.bs.offset + (i - s.bs.bitcnt)) % 8 = i - s.bs.bitcnt := by omega
          simp [streamBit, Reader.loadByte, hm, hq, h1, h2, hr]
  | lzx =>
    simp only [hm, Reader.avail, BitOrder.unit] at ha hu ⊢
    have hev := he hm
    have hlt : s.bs.offset + 1 < s.inLen.toNat := by omega
    have h10 : 2 * (8 * s.bs.offset / 16) = s.bs.offset := by omega
    simp only [engine_bind, readIn]
    cases hr : s.inRam.read s.bs.offset with
    | none => exact ⟨rfl, _, rfl, hr, Nat.le_refl _, by omega, by omega, by rw [hq0, streamBit, h10, hr]⟩
    | some lo =>
      simp only
      cases hr2 : s.inRam.read (s.bs.offset + 1) with
      | none => exact ⟨rfl, _, rfl, hr2, by omega, hlt, by omega, by rw [hq0, streamBit, h10, hr, hr2]⟩
      | some hi =>
        simp only [engine_modify]
        refine ⟨⟨?_, loadWord_clean _ _ _ hm hc (by omega), ?_, ?_, ?_, ?_⟩, trivial, ?_, ?_, ?_, ?_, ?_⟩
        · intro _; simp only [Reader.loadWord]; omega
        · simp only [Reader.loadWord]; omega
        · simp only [Reader.loadWord]; omega
        · simp only [Reader.loadWord, hm, BitOrder.unit]; omega
        · simp only [Reader.avail, Reader.loadWord, hm]; omega
        · simp [Reader.loadWord, hm]
        · simp only [Reader.bitpos, Reader.loadWord]; omega
        · simp [Reader.loadWord]
        · simp only [Reader.loadWord]; omega
        · intro hco i hi'
          have hi'' : i < s.bs.bitcnt + 16 := hi'
          have hpos : (s.bs.loadWord lo hi).bitpos = s.bs.bitpos := by simp only [Reader.bitpos, Reader.loadWord]; omega
          simp only [hpos]
          rw [loadWord_pending _ _ _ hm hc i hi'' (by omega)]
          split
          · next h => exact hco i h
          · next h =>
            have hq : s.bs.bitpos + i = 8 * s.bs.offset + (i - s.bs.bitcnt) := by simp only [Reader.bitpos]; omega
            have h1 : 2 * ((8 * s.bs.offset + (i - s.bs.bitcnt)) / 16) = s.bs.offset := by omega
            have h2 : (8 * s.bs.offset + (i - s.bs.bitcnt)) % 16 = i - s.bs.bitcnt := by omega
            simp [streamBit, Reader.loadWord, hm, hq, h1, h2, hr, hr2]

/-- Everything the refill loop can do, given enough turns. -/
theorem refill_spec (n fuel : Nat) (s : State) (h : ReadLoop n s) (hn : n ≤ 32) (hl : s.inLen.toNat ≤ Config.inMax)
    (hf : n ≤ s.bs.bitcnt + 8 * fuel) :
    match refill n fuel s with
    | .ok () t =>
      ReadLoop n t ∧ n ≤ t.bs.bitcnt ∧ t = { s with bs := t.bs } ∧ t.bs.mode = s.bs.mode ∧ t.bs.bitpos = s.bs.bitpos ∧
        t.bs.offset ≤ max s.bs.offset s.inLen.toNat ∧ (Coherent s → Coherent t)
    | .error e t => t = { s with bs := t.bs } ∧ ∃ i, e = .fault (.unwritten .inRam i) ∧ s.inRam.read i = none ∧
        i < s.inLen.toNat ∧ ∃ j, j < n ∧ streamBit s.bs.mode s.inRam (s.bs.bitpos + j) = none := by
  induction fuel generalizing s with
  | zero =>
    simp only [refill, engine_pure]
    exact ⟨h, by omega, trivial, trivial, trivial, by omega, id⟩
  | succ fuel ih =>
    simp only [refill, engine_bind, engine_get]
    by_cases hb : s.bs.bitcnt < n
    · simp only [if_pos hb, engine_bind]
      have h1 := refillOne_spec n s h hn hl hb
      cases hr : refillOne s with
      | ok a t =>
        rw [hr] at h1
        obtain ⟨g1, g2, g3, g4, g5, g6, g7⟩ := h1
        have gl : t.inLen = s.inLen := by rw [g2]
        have gr : t.inRam = s.inRam := by rw [g2]
        have hu := unit_pos s.bs.mode
        have h2 := ih t g1 (by rw [gl]; exact hl) (by omega)
        simp only
        cases hr2 : refill n fuel t with
        | ok b u =>
          rw [hr2] at h2
          obtain ⟨k1, k2, k3, k4, k5, k6, k7⟩ := h2
          refine ⟨k1, k2, ?_, by rw [k4, g3], by rw [k5, g4], ?_, fun hc => k7 (g7 hc)⟩
          · rw [k3, g2]
          · rw [gl] at k6; omega
        | error e u =>
          rw [hr2] at h2
          obtain ⟨k1, i, k2, k3, k4, j, k5, k6⟩ := h2
          rw [gr] at k3 k6
          rw [gl] at k4
          rw [g3, g4] at k6
          refine ⟨?_, i, k2, k3, k4, j, k5, k6⟩
          rw [k1, g2]
      | error e t =>
        rw [hr] at h1
        obtain ⟨g1, i, g2, g3, _, g4, _, g5⟩ := h1
        exact ⟨by rw [g1], i, g2, g3, g4, _, hb, g5⟩
    · simp only [if_neg hb, engine_pure]
      exact ⟨h, by omega, trivial, trivial, trivial, by omega, id⟩

/-! ## Taking the bits -/

/-- The first n pending bits of a reader, the next to be consumed first. -/
def Reader.bits (r : Reader) (n : Nat) : List Bool := (List.range n).map r.pending

theorem lsbFirst_append (xs : List Bool) (b : Bool) :
    lsbFirst (xs ++ [b]) = lsbFirst xs + 2 ^ xs.length * b.toNat := by
  induction xs with
  | nil => simp [lsbFirst]
  | cons x xs ih => simp [lsbFirst, ih, Nat.pow_succ]; ring

theorem msbFirst_append (xs : List Bool) (b : Bool) : msbFirst (xs ++ [b]) = 2 * msbFirst xs + b.toNat := by
  simp [msbFirst]

theorem lsbFirst_lt (xs : List Bool) : lsbFirst xs < 2 ^ xs.length := by
  induction xs with
  | nil => simp [lsbFirst]
  | cons x xs ih => simp only [lsbFirst, List.length_cons, Nat.pow_succ]; cases x <;> simp <;> omega

theorem msbFirst_lt (xs : List Bool) : msbFirst xs < 2 ^ xs.length := by
  induction xs using List.reverseRecOn with
  | nil => simp [msbFirst]
  | append_singleton xs x ih =>
    rw [msbFirst_append, List.length_append, List.length_singleton, Nat.pow_succ]
    cases x <;> simp <;> omega

theorem readValue_lt (m : BitOrder) (xs : List Bool) : readValue m xs < 2 ^ xs.length := by
  cases m
  · exact lsbFirst_lt xs
  · exact msbFirst_lt xs

theorem mod_two_pow_succ (x n : Nat) : x % 2 ^ (n + 1) = x % 2 ^ n + 2 ^ n * (x.testBit n).toNat := by
  rw [Nat.mod_pow_succ, Nat.testBit_eq_decide_div_mod_eq]
  congr 2
  rcases Nat.mod_two_eq_zero_or_one (x / 2 ^ n) with h | h <;> simp [h]

theorem div_two_pow_eq (x k : Nat) : x / 2 ^ k = 2 * (x / 2 ^ (k + 1)) + (x.testBit k).toNat := by
  rw [Nat.testBit_eq_decide_div_mod_eq, Nat.pow_succ, ← Nat.div_div_eq_div_mul]
  rcases Nat.mod_two_eq_zero_or_one (x / 2 ^ k) with h | h <;> simp [h] <;> omega

/-- The value of a read is the number its bits spell (40_bitstream.md R69, R70). -/
theorem peek_toNat (r : Reader) (n : Nat) (hn : n ≤ 32) : (r.peek n).toNat = readValue r.mode (r.bits n) := by
  cases hm : r.mode with
  | deflate =>
    have key : r.acc.toNat % 2 ^ n = lsbFirst (r.bits n) := by
      clear hn
      induction n with
      | zero => simp [Reader.bits, lsbFirst, Nat.mod_one]
      | succ n ih =>
        have hb : r.bits (n + 1) = r.bits n ++ [r.pending n] := by simp [Reader.bits, List.range_succ]
        rw [hb, lsbFirst_append, mod_two_pow_succ, ih]
        simp [Reader.bits, Reader.pending, hm, BitVec.getLsbD]
    simp only [Reader.peek, hm, readValue, BitVec.toNat_ofNat, key]
    apply Nat.mod_eq_of_lt
    refine Nat.lt_of_lt_of_le (lsbFirst_lt _) ?_
    simp only [Reader.bits, List.length_map, List.length_range]
    exact Nat.pow_le_pow_right (by omega) hn
  | lzx =>
    have key : r.acc.toNat / 2 ^ (64 - n) = msbFirst (r.bits n) := by
      have h64 : n ≤ 64 := by omega
      clear hn
      induction n with
      | zero => simpa [Reader.bits, msbFirst] using r.acc.isLt
      | succ n ih =>
        have hb : r.bits (n + 1) = r.bits n ++ [r.pending n] := by simp [Reader.bits, List.range_succ]
        rw [hb, msbFirst_append, ← ih (by omega), div_two_pow_eq r.acc.toNat (64 - (n + 1))]
        have e : 64 - (n + 1) + 1 = 64 - n := by omega
        have e' : 64 - (n + 1) = 63 - n := by omega
        rw [e, e']
        simp [Reader.pending, hm, BitVec.getLsbD]
    have hlt : msbFirst (r.bits n) < 2 ^ 32 := by
      refine Nat.lt_of_lt_of_le (msbFirst_lt _) ?_
      simp only [Reader.bits, List.length_map, List.length_range]
      exact Nat.pow_le_pow_right (by omega) hn
    simp only [Reader.peek, hm, readValue, BitVec.toNat_setWidth, BitVec.toNat_ushiftRight, Nat.shiftRight_eq_div_pow,
      key]
    exact Nat.mod_eq_of_lt hlt

/-- Consuming n pending bits. -/
theorem drop_pending (r : Reader) (n i : Nat) (hi : n + i < 64) : (r.drop n).pending i = r.pending (n + i) := by
  cases hm : r.mode with
  | deflate => simp [Reader.pending, Reader.drop, hm, BitVec.getLsbD_ushiftRight]
  | lzx =>
    have h1 : ¬ 63 - i < n := by omega
    have h2 : 63 - i < 64 := by omega
    have e : 63 - i - n = 63 - (n + i) := by omega
    simp only [Reader.pending, Reader.drop, hm, BitVec.getLsbD_shiftLeft, h1, h2, e, decide_true, decide_false,
      Bool.not_false, Bool.true_and]

theorem drop_clean (r : Reader) (n : Nat) (hc : AccClean r) (hn : n ≤ r.bitcnt) : AccClean (r.drop n) := by
  cases hm : r.mode with
  | deflate =>
    have hacc : r.acc.toNat < 2 ^ r.bitcnt := by simpa [AccClean, hm] using hc
    simp only [AccClean, Reader.drop, hm, BitVec.toNat_ushiftRight, Nat.shiftRight_eq_div_pow]
    rw [Nat.div_lt_iff_lt_mul (Nat.two_pow_pos n), ← Nat.pow_add]
    have e : r.bitcnt - n + n = r.bitcnt := by omega
    rwa [e]
  | lzx =>
    have hacc : r.acc.toNat % 2 ^ (64 - r.bitcnt) = 0 := by simpa [AccClean, hm] using hc
    simp only [AccClean, Reader.drop, hm, BitVec.toNat_shiftLeft, Nat.shiftLeft_eq]
    have hd : 2 ^ (64 - (r.bitcnt - n)) ∣ r.acc.toNat * 2 ^ n := by
      obtain ⟨q, hq⟩ := Nat.dvd_of_mod_eq_zero hacc
      rw [hq]
      refine Dvd.dvd.trans (pow_dvd_pow 2 (by omega : 64 - (r.bitcnt - n) ≤ 64 - r.bitcnt + n)) ?_
      rw [pow_add]
      exact ⟨q, by ring⟩
    have hd2 : 2 ^ (64 - (r.bitcnt - n)) ∣ 2 ^ 64 := pow_dvd_pow 2 (by omega)
    exact Nat.mod_eq_zero_of_dvd ((Nat.dvd_mod_iff hd2).mpr hd)

theorem bits_length (r : Reader) (n : Nat) : (r.bits n).length = n := by simp [Reader.bits]

/-- Everything BsGet can do from a reader between commands (40_bitstream.md R68 to R72). -/
theorem bsGet_spec (n : Nat) (s : State) (h : ReaderGood s.bs) (hn : n ≤ 32) (hl : s.inLen.toNat ≤ Config.inMax) :
    match bsGet n s with
    | .ok v t =>
      n ≤ s.bs.avail s.inLen.toNat ∧ t = { s with bs := t.bs } ∧ t.bs.mode = s.bs.mode ∧
        t.bs.bitpos = s.bs.bitpos + n ∧ ReaderGood t.bs ∧ t.bs.offset ≤ max s.bs.offset s.inLen.toNat ∧
        v.toNat < 2 ^ n ∧
        (Coherent s → Coherent t ∧ ∃ bits, bits.length = n ∧ StreamHolds s.bs.mode s.inRam s.bs.bitpos bits ∧
          v.toNat = readValue s.bs.mode bits)
    | .error e t =>
      (e = .raise .fmtInputExhausted ∧ t = s ∧ s.bs.avail s.inLen.toNat < n) ∨
        (n ≤ s.bs.avail s.inLen.toNat ∧ t = { s with bs := t.bs } ∧ ∃ i, e = .fault (.unwritten .inRam i) ∧
          s.inRam.read i = none ∧ i < s.inLen.toNat ∧
          ∃ j, j < n ∧ streamBit s.bs.mode s.inRam (s.bs.bitpos + j) = none) := by
  unfold bsGet
  by_cases ha : s.bs.avail s.inLen.toNat < n
  · simp only [if_pos ha, raise_run]
    exact Or.inl ⟨trivial, trivial, ha⟩
  · simp only [if_neg ha]
    by_cases h0 : n = 0
    · subst h0
      simp only [if_true]
      refine ⟨Nat.zero_le _, trivial, trivial, rfl, h, by omega, by decide, fun hc => ⟨hc, [], rfl, ?_, ?_⟩⟩
      · intro i hi; simp at hi
      · cases s.bs.mode <;> rfl
    · simp only [if_neg h0, takeBits, engine_bind]
      obtain ⟨h1, h2, h3, h4, h5⟩ := h
      have hloop : ReadLoop n s := ⟨h2, h3, h4, h5, by omega, by omega⟩
      have hs := refill_spec n n s hloop hn hl (by omega)
      cases hr : refill n n s with
      | error e t =>
        rw [hr] at hs
        obtain ⟨k1, i, k2, k3, k4, k5⟩ := hs
        exact Or.inr ⟨by omega, k1, i, k2, k3, k4, k5⟩
      | ok a t =>
        rw [hr] at hs
        obtain ⟨⟨g1, g2, g3, g4, g5, g6⟩, k2, k3, k4, k5, k6, k7⟩ := hs
        have hpos : (t.bs.drop n).bitpos = s.bs.bitpos + n := by
          rw [← k5]; simp only [Reader.bitpos, Reader.drop]; omega
        refine ⟨by omega, ?_, ?_, hpos, ⟨?_, ?_, drop_clean _ _ g2 k2, ?_, ?_⟩, ?_, ?_, ?_⟩
        · conv_lhs => rw [k3]
        · simp [Reader.drop, k4]
        · simp only [Reader.drop]; omega
        · intro hm; exact g1 hm
        · simp only [Reader.drop]; omega
        · simpa [Reader.drop] using g4
        · simpa [Reader.drop] using k6
        · rw [peek_toNat _ _ hn]
          simpa [bits_length] using readValue_lt t.bs.mode (t.bs.bits n)
        · intro hco
          have hct := k7 hco
          have hcnt : t.bs.bitcnt ≤ 63 := by
            have hu : s.bs.mode.unit ≤ 16 := by cases s.bs.mode <;> decide
            rw [k4] at g5; omega
          have gr : t.inRam = s.inRam := by rw [k3]
          constructor
          · intro i hi
            have hi' : i < t.bs.bitcnt - n := hi
            have := hct (n + i) (by omega)
            rw [k5] at this
            simp only [hpos]
            rw [drop_pending _ _ _ (by omega)]
            have e : s.bs.bitpos + n + i = s.bs.bitpos + (n + i) := by omega
            rw [e]
            exact this
          · refine ⟨t.bs.bits n, bits_length _ _, ?_, ?_⟩
            · intro i hi
              rw [bits_length] at hi
              have := hct i (by omega)
              rw [k5, k4, gr] at this
              simpa [Reader.bits] using this
            · rw [peek_toNat _ _ hn, k4]

/-- Two readings of the same place of the stream agree. -/
theorem streamHolds_unique (m : BitOrder) (r : Memory Byte) (p : Nat) (xs ys : List Bool) (hl : xs.length = ys.length)
    (hx : StreamHolds m r p xs) (hy : StreamHolds m r p ys) : xs = ys := by
  apply List.ext_getElem hl
  intro i h1 h2
  have := (hx i h1).symm.trans (hy i h2)
  simpa using this

/-- The bits available are those up to the end of the stream (40_bitstream.md R71). -/
theorem avail_eq (r : Reader) (inLen : Nat) (h : ReaderGood r) (ho : r.offset ≤ inLen) :
    r.avail inLen = streamEnd r.mode inLen - r.bitpos := by
  obtain ⟨_, h2, _, h4, _⟩ := h
  cases hm : r.mode with
  | deflate => simp only [Reader.avail, streamEnd, Reader.bitpos, hm]; omega
  | lzx =>
    have := h2 hm
    simp only [Reader.avail, streamEnd, Reader.bitpos, hm]; omega

/-- A reader between commands is not past the end of the stream. -/
theorem bitpos_le_streamEnd (r : Reader) (inLen : Nat) (h : ReaderGood r) (ho : r.offset ≤ inLen) :
    r.bitpos ≤ streamEnd r.mode inLen := by
  obtain ⟨_, h2, _, _, _⟩ := h
  cases hm : r.mode with
  | deflate => simp only [streamEnd, Reader.bitpos]; omega
  | lzx =>
    have := h2 hm
    simp only [streamEnd, Reader.bitpos]; omega

/-- The bits available are the readable ones (40_bitstream.md R67, R71; 70_reset_and_hazards.md R137). -/
theorem readable_iff (s : State) (n : Nat) (h : ReaderGood s.bs) : Readable s n ↔ n ≤ s.bs.avail s.inLen.toNat := by
  have hp : s.bs.bitcnt ≤ s.bs.avail s.inLen.toNat := by unfold Reader.avail; cases s.bs.mode <;> simp
  unfold Readable
  by_cases ho : s.bs.offset ≤ s.inLen.toNat
  · have ha := avail_eq s.bs s.inLen.toNat h ho
    have hb := bitpos_le_streamEnd s.bs s.inLen.toNat h ho
    omega
  · have ha : s.bs.avail s.inLen.toNat = s.bs.bitcnt := by
      unfold Reader.avail; cases s.bs.mode <;> simp only [] <;> omega
    omega

/-- A read of bits that are in ACC loads nothing (40_bitstream.md R69, R70). -/
theorem bsGet_pending (n : Nat) (s : State) (h0 : n ≠ 0) (hn : n ≤ s.bs.bitcnt) :
    bsGet n s = .ok (s.bs.peek n) { s with bs := s.bs.drop n } := by
  have hp : s.bs.bitcnt ≤ s.bs.avail s.inLen.toNat := by unfold Reader.avail; cases s.bs.mode <;> simp
  have hr : refill n n s = .ok () s := by
    cases n with
    | zero => rfl
    | succ n => simp only [refill, engine_bind, engine_get, if_neg (Nat.not_lt.mpr hn)]; rfl
  simp only [bsGet, if_neg (Nat.not_lt.mpr (Nat.le_trans hn hp)), if_neg h0, takeBits, engine_bind, hr]
  rfl

/-- A successful BsGet leaves n fewer bits available (40_bitstream.md R67 to R70). -/
theorem bsGet_avail (n : Nat) (s t : State) (v : Word) (h : ReaderGood s.bs) (hn : n ≤ 32)
    (hl : s.inLen.toNat ≤ Config.inMax) (hr : bsGet n s = .ok v t) :
    t.bs.avail s.inLen.toNat = s.bs.avail s.inLen.toNat - n := by
  have hs := bsGet_spec n s h hn hl
  rw [hr] at hs
  obtain ⟨k1, k2, k3, k4, k5, k6, _⟩ := hs
  by_cases h0 : n = 0
  · subst h0
    simp only [bsGet, Nat.not_lt_zero, if_false, if_true, EStateM.Result.ok.injEq] at hr
    rw [← hr.2, Nat.sub_zero]
  · by_cases hp : n ≤ s.bs.bitcnt
    · rw [bsGet_pending n s h0 hp, EStateM.Result.ok.injEq] at hr
      rw [← hr.2]
      cases hm : s.bs.mode <;> simp only [Reader.avail, Reader.drop, hm] <;> omega
    · have ho : s.bs.offset ≤ s.inLen.toNat := by
        rcases (readable_iff s n h).mpr k1 with h1 | h1
        · exact absurd h1 hp
        · exact h1.1
      rw [avail_eq s.bs _ h ho, avail_eq t.bs _ k5 (by omega), k3, k4]
      omega

/-- BsGet on a written part of the stream returns its bits and cannot fail (40_bitstream.md R71). -/
theorem bsGet_stream (s : State) (bits : List Bool) (h : ReaderGood s.bs) (hn : bits.length ≤ 32)
    (hl : s.inLen.toNat ≤ Config.inMax) (hc : Coherent s) (ha : bits.length ≤ s.bs.avail s.inLen.toNat)
    (hb : StreamHolds s.bs.mode s.inRam s.bs.bitpos bits) :
    ∃ v t, bsGet bits.length s = .ok v t ∧ v.toNat = readValue s.bs.mode bits ∧ t = { s with bs := t.bs } ∧
      t.bs.mode = s.bs.mode ∧ t.bs.bitpos = s.bs.bitpos + bits.length ∧ ReaderGood t.bs ∧ Coherent t ∧
      t.bs.avail s.inLen.toNat = s.bs.avail s.inLen.toNat - bits.length := by
  have hs := bsGet_spec bits.length s h hn hl
  cases hr : bsGet bits.length s with
  | ok v t =>
    rw [hr] at hs
    obtain ⟨_, k2, k3, k4, k5, k6, _, k8⟩ := hs
    obtain ⟨c1, bits', c2, c3, c4⟩ := k8 hc
    have := streamHolds_unique _ _ _ _ _ c2 c3 hb
    subst this
    exact ⟨v, t, rfl, c4, k2, k3, k4, k5, c1, bsGet_avail _ s t v h hn hl hr⟩
  | error e t =>
    rw [hr] at hs
    rcases hs with ⟨_, _, h3⟩ | ⟨_, _, i, _, _, _, j, hj, hnone⟩
    · omega
    · have := hb j hj
      rw [hnone] at this
      simp at this

/-- Past their argument checks BS_GET and BS_SKIP are BsGet (40_bitstream.md R75, R76). -/
theorem getBits_run (n : Nat) (s : State) (hn : n ≤ 32) (hl : s.inLen.toNat ≤ Config.inMax) :
    getBits n s = bsGet n s := by
  have h1 : decide (Config.nmaxGet < n) = false := decide_eq_false (by change ¬ 32 < n; omega)
  have h2 : decide (Config.inMax < s.inLen.toNat) = false := decide_eq_false (by omega)
  simp [getBits, engine_bind, h1, checkInLen, h2]

theorem checkInLen_run (s : State) (hl : s.inLen.toNat ≤ Config.inMax) : checkInLen s = .ok () s := by
  have h2 : decide (Config.inMax < s.inLen.toNat) = false := decide_eq_false (by omega)
  simp [checkInLen, h2]

/-- Aligning a reader between commands drops every pending bit (40_bitstream.md R73). -/
theorem align_eq (r : Reader) (h : ReaderGood r) : r.align = ⟨r.mode, r.offset, 0, 0⟩ := by
  obtain ⟨h1, _, h3, _, _⟩ := h
  cases hm : r.mode with
  | deflate =>
    simp only [hm, BitOrder.unit] at h1
    have hacc : r.acc.toNat < 2 ^ r.bitcnt := by simpa [AccClean, hm] using h3
    have e : r.bitcnt % 8 = r.bitcnt := Nat.mod_eq_of_lt h1
    have hz : r.acc >>> r.bitcnt = 0 := by
      apply BitVec.eq_of_toNat_eq
      rw [BitVec.toNat_ushiftRight, Nat.shiftRight_eq_div_pow, Nat.div_eq_of_lt hacc]
      rfl
    simp [Reader.align, Reader.drop, hm, e, hz]
  | lzx =>
    simp only [hm, BitOrder.unit] at h1
    have hacc : r.acc.toNat % 2 ^ (64 - r.bitcnt) = 0 := by simpa [AccClean, hm] using h3
    have e : r.bitcnt % 16 = r.bitcnt := Nat.mod_eq_of_lt h1
    have hz : r.acc <<< r.bitcnt = 0 := by
      apply BitVec.eq_of_toNat_eq
      rw [BitVec.toNat_shiftLeft, Nat.shiftLeft_eq]
      obtain ⟨q, hq⟩ := Nat.dvd_of_mod_eq_zero hacc
      rw [hq]
      have : 2 ^ (64 - r.bitcnt) * q * 2 ^ r.bitcnt = q * 2 ^ 64 := by
        have e2 : (2 : Nat) ^ 64 = 2 ^ (64 - r.bitcnt) * 2 ^ r.bitcnt := by rw [← Nat.pow_add]; congr 1; omega
        rw [e2]; ring
      rw [this]
      simp
    simp [Reader.align, Reader.drop, hm, e, hz]

theorem readerGood_start (m : BitOrder) : ReaderGood (Reader.start m) := by
  cases m <;> simp [ReaderGood, Reader.start, AccClean, BitOrder.unit]

theorem coherent_of_no_bits (s : State) (h : s.bs.bitcnt = 0) : Coherent s := by
  intro i hi; omega

theorem readerGood_aligned (r : Reader) (h : ReaderGood r) : ReaderGood r.align := by
  rw [align_eq r h]
  obtain ⟨_, h2, _, _, h5⟩ := h
  refine ⟨Nat.lt_of_lt_of_le (by decide : 0 < 8) (unit_pos _), h2, ?_, Nat.zero_le _, h5⟩
  cases hm : r.mode <;> simp [AccClean]

end Sys2Proof.Machine
end

