-- ==== Sys2Proof/Laws/Huffman.lean ====
section
/-! SUPPORT. The canonical codes (41_huffman.md R81, R82): the closed form of CODE[s], the code strings used up to a
length and the Kraft sum; what a search of the code book, a build and a walk can do. -/

namespace Sys2Proof.Machine

open Host (Outcome)

/-! ## The codes -/

/-- The code strings of length l that codes of length at most l use up. -/
def usedCodes (lens : List Nat) (l : Nat) : Nat := firstCode lens l + blCount lens l

theorem usedCodes_zero (lens : List Nat) : usedCodes lens 0 = 0 := rfl

theorem usedCodes_succ (lens : List Nat) (l : Nat) :
    usedCodes lens (l + 1) = 2 * usedCodes lens l + blCount lens (l + 1) := by
  simp [usedCodes, firstCode]; omega

theorem usedCodes_grows (lens : List Nat) (l k : Nat) : usedCodes lens l * 2 ^ k ≤ firstCode lens (l + k) + blCount lens (l + k) := by
  induction k with
  | zero => simp [usedCodes]
  | succ k ih =>
    have : usedCodes lens (l + (k + 1)) = 2 * usedCodes lens (l + k) + blCount lens (l + k + 1) := usedCodes_succ lens (l + k)
    change _ ≤ usedCodes lens (l + (k + 1))
    rw [this, Nat.pow_succ]
    have ih' : usedCodes lens l * 2 ^ k ≤ usedCodes lens (l + k) := ih
    nlinarith

/-- The first code of a longer length lies past every code of a shorter one. -/
theorem firstCode_past (lens : List Nat) (l k : Nat) (hk : 0 < k) : usedCodes lens l * 2 ^ k ≤ firstCode lens (l + k) := by
  obtain ⟨j, rfl⟩ := Nat.exists_eq_succ_of_ne_zero (Nat.pos_iff_ne_zero.mp hk)
  have h := usedCodes_grows lens l j
  have e : l + (j + 1) = (l + j) + 1 := by omega
  rw [Nat.succ_eq_add_one, e, firstCode, Nat.pow_succ]
  nlinarith

/-- The over-subscription check as a bound on the code strings used (41_huffman.md R82). -/
theorem oversubscribedFrom_eq_false (lens : List Nat) (n l : Nat) (hl : 1 ≤ l) :
    oversubscribedFrom lens n l (2 ^ (l - 1) - usedCodes lens (l - 1) : Int) = false ↔
      ∀ j, l ≤ j → j < l + n → usedCodes lens j ≤ 2 ^ j := by
  induction n generalizing l with
  | zero => simp only [oversubscribedFrom, true_iff]; intro j h1 h2; omega
  | succ n ih =>
    have e : 2 * ((2 ^ (l - 1) : Int) - usedCodes lens (l - 1)) - (blCount lens l : Int) = 2 ^ l - usedCodes lens l := by
      obtain ⟨k, rfl⟩ := Nat.exists_eq_succ_of_ne_zero (Nat.pos_iff_ne_zero.mp hl)
      simp only [Nat.succ_eq_add_one, Nat.add_sub_cancel, usedCodes_succ, pow_succ]
      push_cast
      ring
    have ih' := ih (l + 1) (by omega)
    simp only [Nat.add_sub_cancel] at ih'
    simp only [oversubscribedFrom, e, Bool.or_eq_false_iff, decide_eq_false_iff_not, not_lt, ih']
    constructor
    · rintro ⟨h1, h2⟩ j hj1 hj2
      rcases Nat.eq_or_lt_of_le hj1 with rfl | hlt
      · have h1' : (usedCodes lens l : Int) ≤ 2 ^ l := by linarith
        exact_mod_cast h1'
      · exact h2 j hlt (by omega)
    · intro h
      refine ⟨?_, fun j hj1 hj2 => h j (by omega) (by omega)⟩
      have h1 : usedCodes lens l ≤ 2 ^ l := h l (Nat.le_refl _) (by omega)
      have h1' : (usedCodes lens l : Int) ≤ 2 ^ l := by exact_mod_cast h1
      linarith

/-- A set is not over-subscribed exactly when no length uses up more code strings than there are (41_huffman.md R82). -/
theorem oversubscribed_eq_false (lens : List Nat) (maxlen : Nat) :
    oversubscribed lens maxlen = false ↔ ∀ j, 1 ≤ j → j ≤ maxlen → usedCodes lens j ≤ 2 ^ j := by
  have h := oversubscribedFrom_eq_false lens maxlen 1 (Nat.le_refl 1)
  simp only [Nat.sub_self, pow_zero, usedCodes_zero, Nat.cast_zero, sub_zero] at h
  rw [oversubscribed, h]
  constructor
  · intro g j h1 h2; exact g j h1 (by omega)
  · intro g j h1 h2; exact g j h1 (by omega)

/-- The code strings used up to maxlen are the Kraft sum, when every length is at most maxlen. -/
theorem usedCodes_eq_kraftSum (lens : List Nat) (maxlen : Nat) (h : ∀ l ∈ lens, l ≤ maxlen) :
    usedCodes lens maxlen = kraftSum lens maxlen := by
  have nilcase : ∀ m, usedCodes [] m = 0 := by
    intro m
    induction m with
    | zero => rfl
    | succ m ih => rw [usedCodes_succ, ih]; simp [blCount]
  have cons : ∀ (x : Nat) (xs : List Nat) (m : Nat), usedCodes (x :: xs) m =
      usedCodes xs m + if 1 ≤ x ∧ x ≤ m then 2 ^ (m - x) else 0 := by
    intro x xs m
    induction m with
    | zero =>
      have : ¬ (1 ≤ x ∧ x ≤ 0) := by omega
      rw [if_neg this]; rfl
    | succ m ih =>
      rw [usedCodes_succ, usedCodes_succ, ih]
      by_cases h1 : 1 ≤ x ∧ x ≤ m
      · have hx : x ≠ m + 1 := by omega
        have e : m + 1 - x = (m - x) + 1 := by omega
        have h2 : 1 ≤ x ∧ x ≤ m + 1 := by omega
        simp [blCount, hx, h1, h2, e, pow_succ]
        ring
      · by_cases h3 : x = m + 1
        · subst h3
          simp [blCount]
          ring
        · have h2 : ¬ (1 ≤ x ∧ x ≤ m + 1) := by omega
          simp [blCount, h3, h1, h2]
  induction lens with
  | nil => simp [nilcase, kraftSum]
  | cons x xs ih =>
    have hx : x ≤ maxlen := h x (by simp)
    rw [cons, ih (fun l hl => h l (by simp [hl]))]
    simp only [kraftSum, List.map_cons, List.sum_cons]
    by_cases h0 : x = 0
    · simp [h0]
    · have : 1 ≤ x ∧ x ≤ maxlen := by omega
      simp [h0, this]; omega

theorem assignCodes_length (next lens : List Nat) : (assignCodes next lens).length = lens.length := by
  induction lens generalizing next with
  | nil => rfl
  | cons l ls ih => simp only [assignCodes]; split <;> simp [ih]

@[simp] theorem codes_length (lens : List Nat) : (codes lens).length = lens.length := assignCodes_length _ _

theorem assignCodes_get (next lens : List Nat) (i l : Nat) (h : lens[i]? = some l) (hl : l ≠ 0) (hn : l < next.length) :
    (assignCodes next lens)[i]? = some (next.getD l 0 + (lens.take i).count l) := by
  induction lens generalizing next i with
  | nil => simp at h
  | cons x xs ih =>
    cases i with
    | zero =>
      simp only [List.getElem?_cons_zero, Option.some.injEq] at h
      subst h
      simp [assignCodes, hl]
    | succ i =>
      simp only [List.getElem?_cons_succ] at h
      by_cases hx : x = 0
      · simp [assignCodes, hx, ih next i h hn, List.count_cons]
        omega
      · simp only [assignCodes, hx, if_false, List.getElem?_cons_succ]
        rw [ih _ i h (by simpa using hn)]
        by_cases hxl : x = l
        · subst hxl
          simp [List.getD_eq_getElem?_getD, hn]
          omega
        · simp [List.getD_eq_getElem?_getD, hxl]

/-- The closed form of CODE[s]: the first code of its length plus the number of earlier symbols of that length
(41_huffman.md R81). -/
theorem codes_get (lens : List Nat) (i l : Nat) (h : lens[i]? = some l) (hl : l ≠ 0) (h16 : l ≤ 16) :
    (codes lens)[i]? = some (firstCode lens l + (lens.take i).count l) := by
  rw [codes, assignCodes_get _ _ i l h hl (by simp [Config.maxlenLimit]; omega)]
  have : l < 17 := by omega
  simp [List.getD_eq_getElem?_getD, Config.maxlenLimit, this]

/-- A symbol has fewer symbols of its length before it than there are. -/
theorem count_take_lt (lens : List Nat) (i l : Nat) (h : lens[i]? = some l) : (lens.take i).count l < lens.count l := by
  induction lens generalizing i with
  | nil => simp at h
  | cons x xs ih =>
    cases i with
    | zero =>
      simp only [List.getElem?_cons_zero, Option.some.injEq] at h
      subst h; simp
    | succ i =>
      simp only [List.getElem?_cons_succ] at h
      have := ih i h
      simp only [List.take_succ_cons, List.count_cons]
      omega

theorem count_take_mono (lens : List Nat) (i j l : Nat) (h : i ≤ j) : (lens.take i).count l ≤ (lens.take j).count l :=
  List.Sublist.count_le l (List.take_sublist_take_left h)

theorem count_take_step (lens : List Nat) (i j l : Nat) (h : lens[i]? = some l) (hij : i < j) :
    (lens.take i).count l < (lens.take j).count l := by
  have h1 : (lens.take (i + 1)).count l = (lens.take i).count l + 1 := by
    rw [List.take_add_one, h]; simp
  have h2 := count_take_mono lens (i + 1) j l hij
  omega

/-- A code lies below the code strings used up to its length. -/
theorem code_lt_used (lens : List Nat) (i l c : Nat) (h : lens[i]? = some l) (hl : l ≠ 0) (h16 : l ≤ 16)
    (hc : (codes lens)[i]? = some c) : firstCode lens l ≤ c ∧ c < usedCodes lens l := by
  rw [codes_get lens i l h hl h16] at hc
  have := count_take_lt lens i l h
  simp only [Option.some.injEq] at hc
  simp only [usedCodes, blCount, hl, if_false]
  omega

/-! ## Code bits -/

@[simp] theorem codeBits_length (l c : Nat) : (codeBits l c).length = l := by simp [codeBits]

theorem codeBits_succ (l c : Nat) : codeBits (l + 1) c = codeBits l (c / 2) ++ [c.testBit 0] := by
  simp only [codeBits, List.range_succ, List.map_append, List.map_cons, List.map_nil]
  congr 1
  · apply List.map_congr_left
    intro i hi
    have hi' : i < l := List.mem_range.mp hi
    have e : l + 1 - 1 - i = (l - 1 - i) + 1 := by omega
    rw [e, Nat.testBit_succ]
  · simp

/-- The bits of a code spell the code, most significant first (41_huffman.md R86). -/
theorem msbFirst_codeBits (l c : Nat) (h : c < 2 ^ l) : msbFirst (codeBits l c) = c := by
  induction l generalizing c with
  | zero => simp at h; subst h; rfl
  | succ l ih =>
    rw [codeBits_succ, msbFirst_append, ih (c / 2) (by rw [Nat.pow_succ] at h; omega)]
    simp only [Nat.testBit_zero]
    rcases Nat.mod_two_eq_zero_or_one c with h1 | h1 <;> simp [h1] <;> omega

theorem msbFirst_cons (b : Bool) (xs : List Bool) : msbFirst (b :: xs) = b.toNat * 2 ^ xs.length + msbFirst xs := by
  induction xs using List.reverseRecOn with
  | nil => simp [msbFirst]
  | append_singleton xs x ih =>
    rw [← List.cons_append, msbFirst_append, ih, msbFirst_append, List.length_append, List.length_singleton, Nat.pow_succ]
    ring

theorem msbFirst_append_list (xs ys : List Bool) : msbFirst (xs ++ ys) = msbFirst xs * 2 ^ ys.length + msbFirst ys := by
  induction xs with
  | nil => simp [msbFirst]
  | cons x xs ih => simp only [List.cons_append, msbFirst_cons, ih, List.length_append, Nat.pow_add]; ring

/-- Bit strings of one length that spell the same number are equal. -/
theorem msbFirst_inj (xs ys : List Bool) (hl : xs.length = ys.length) (h : msbFirst xs = msbFirst ys) : xs = ys := by
  induction xs generalizing ys with
  | nil => cases ys with
    | nil => rfl
    | cons y ys => simp at hl
  | cons x xs ih => cases ys with
    | nil => simp at hl
    | cons y ys =>
      simp only [List.length_cons, Nat.add_right_cancel_iff] at hl
      rw [msbFirst_cons, msbFirst_cons, hl] at h
      have h1 := msbFirst_lt xs
      have h2 := msbFirst_lt ys
      rw [hl] at h1
      cases x <;> cases y <;> simp at h
      · rw [ih ys hl h]
      · omega
      · omega
      · rw [ih ys hl h]

/-! ## The code book -/

/-- The search finds the first symbol with the length and the code, if there is one. -/
theorem symbolOf_spec (book : List (Nat × Nat)) (l c : Nat) :
    match symbolOf book l c with
    | some i => book[i]? = some (l, c) ∧ ∀ j : Nat, j < i → book[j]? ≠ some (l, c)
    | none => ∀ j : Nat, book[j]? ≠ some (l, c) := by
  induction book with
  | nil => simp [symbolOf]
  | cons p ps ih =>
    obtain ⟨pl, pc⟩ := p
    simp only [symbolOf]
    by_cases h : pl = l ∧ pc = c
    · simp [h]
    · simp only [h, if_false]
      cases hr : symbolOf ps l c with
      | none =>
        rw [hr] at ih
        intro j
        cases j with
        | zero => intro hh; simp at hh; exact h hh
        | succ j => simpa using ih j
      | some i =>
        rw [hr] at ih
        refine ⟨by simpa using ih.1, ?_⟩
        intro j hj
        cases j with
        | zero => intro hh; simp at hh; exact h hh
        | succ j =>
          have hj' : j < i := Nat.lt_of_succ_lt_succ hj
          simpa using ih.2 j hj'

/-- The book of a built slot lists the length and the code of each symbol. -/
theorem built_book (lens : List Nat) (maxlen i l c : Nat) :
    (TreeSlot.built lens maxlen).book[i]? = some (l, c) ↔ lens[i]? = some l ∧ (codes lens)[i]? = some c := by
  have e : (TreeSlot.built lens maxlen).book = lens.zip (codes lens) := by
    simp [TreeSlot.book, TreeSlot.built]
  rw [e, List.getElem?_zip_eq_some]

/-! ## Building -/

theorem foldl_max_spec (xs : List Nat) (a : Nat) :
    a ≤ xs.foldl max a ∧ (∀ x ∈ xs, x ≤ xs.foldl max a) ∧ (xs.foldl max a = a ∨ xs.foldl max a ∈ xs) := by
  induction xs generalizing a with
  | nil => simp
  | cons x xs ih =>
    obtain ⟨h1, h2, h3⟩ := ih (max a x)
    simp only [List.foldl_cons, List.mem_cons]
    refine ⟨by omega, ?_, ?_⟩
    · rintro y (rfl | hy)
      · omega
      · exact h2 y hy
    · rcases h3 with h3 | h3
      · rcases Nat.le_total a x with h | h
        · right; left; omega
        · left; omega
      · exact Or.inr (Or.inr h3)

/-- Everything HufBuild can do (41_huffman.md R82, R83). -/
theorem hufBuild_run (k : Slot) (lens : List Nat) (maxlen : Nat) (s : State) :
    hufBuild k lens maxlen s =
      if lenTooLong lens maxlen then .error (.raise .fmtLenTooLong) { s with trees := s.trees.set k .cleared }
      else if oversubscribed lens maxlen then
        .error (.raise .fmtOversubscribed) { s with trees := s.trees.set k .cleared }
      else .ok () { s with trees := s.trees.set k (.built lens maxlen) } := by
  simp only [hufBuild, engine_bind, writeSlot_run, failIf_run]
  by_cases h1 : lenTooLong lens maxlen
  · simp [h1]
  · by_cases h2 : oversubscribed lens maxlen <;> simp [h1, h2]

/-! ## Walking -/

/-- The walk along bits of the stream none of which completes a code goes on from the reader after them (41_huffman.md R85). -/
theorem hufWalk_through (book : List (Nat × Nat)) (xs : List Bool) (fuel c l : Nat) (s : State)
    (h : ReaderGood s.bs) (hl : s.inLen.toNat ≤ Config.inMax) (hc : Coherent s)
    (ha : xs.length ≤ s.bs.avail s.inLen.toNat) (hb : StreamHolds s.bs.mode s.inRam s.bs.bitpos xs)
    (hno : ∀ k, 0 < k → k ≤ xs.length → symbolOf book (l + k) (c * 2 ^ k + msbFirst (xs.take k)) = none) :
    ∃ t, hufWalk book (xs.length + fuel) c l s
        = hufWalk book fuel (c * 2 ^ xs.length + msbFirst xs) (l + xs.length) t ∧ t = { s with bs := t.bs } ∧
      t.bs.mode = s.bs.mode ∧ t.bs.bitpos = s.bs.bitpos + xs.length ∧ ReaderGood t.bs ∧ Coherent t ∧
      t.bs.avail s.inLen.toNat = s.bs.avail s.inLen.toNat - xs.length := by
  induction xs generalizing c l s with
  | nil => exact ⟨s, by simp [msbFirst], rfl, rfl, rfl, h, hc, rfl⟩
  | cons x xs ih =>
    have hb1 : StreamHolds s.bs.mode s.inRam s.bs.bitpos [x] := by
      intro i hi
      obtain rfl : i = 0 := by simpa using hi
      exact hb 0 (Nat.zero_lt_succ _)
    simp only [List.length_cons] at ha hno ⊢
    obtain ⟨v, t, h1, h2, h3, h4, h5, h6, h7, h8⟩ := bsGet_stream s [x] h (by simp) hl hc
      (by simp only [List.length_singleton]; omega) hb1
    have hv : v.toNat = x.toNat := by
      rw [h2]; cases s.bs.mode <;> simp [readValue, lsbFirst, msbFirst]
    have gl : t.inLen = s.inLen := by rw [h3]
    have gr : t.inRam = s.inRam := by rw [h3]
    simp only [List.length_singleton] at h1 h5 h8
    have h0 := hno 1 (by omega) (by omega)
    have e : c * 2 ^ 1 + msbFirst ([x].take 1) = 2 * c + x.toNat := by simp [msbFirst]; omega
    simp only [List.take_succ_cons, List.take_zero] at h0 e
    rw [e] at h0
    obtain ⟨u, k1, k2, k3, k4, k5, k6, k7⟩ := ih (2 * c + x.toNat) (l + 1) t h6 (by rw [gl]; exact hl) h7
      (by rw [gl, h8]; omega)
      (by
        intro i hi
        rw [h4, gr, h5]
        have := hb (i + 1) (by simpa using hi)
        have e5 : s.bs.bitpos + 1 + i = s.bs.bitpos + (i + 1) := by omega
        rw [e5]
        simpa using this)
      (by
        intro k hk1 hk2
        have := hno (k + 1) (by omega) (by omega)
        rw [List.take_succ_cons, msbFirst_cons, List.length_take, Nat.min_eq_left (by omega)] at this
        have e5 : l + 1 + k = l + (k + 1) := by omega
        have e6 : (2 * c + x.toNat) * 2 ^ k + msbFirst (xs.take k)
            = c * 2 ^ (k + 1) + (x.toNat * 2 ^ k + msbFirst (xs.take k)) := by rw [pow_succ]; ring
        rw [e5, e6]; exact this)
    refine ⟨u, ?_, by rw [k2, h3], by rw [k3, h4], by omega, k5, k6, by rw [gl] at k7; omega⟩
    have e1 : xs.length + 1 + fuel = (xs.length + fuel) + 1 := by omega
    have e2 : c * 2 ^ (xs.length + 1) + msbFirst (x :: xs) = (2 * c + x.toNat) * 2 ^ xs.length + msbFirst xs := by
      rw [msbFirst_cons, pow_succ]; ring
    have e3 : l + (xs.length + 1) = l + 1 + xs.length := by omega
    rw [e1, e2, e3, ← k1]
    simp only [hufWalk, engine_bind, h1, hv, h0]

/-- The walk along bits of the stream only the last of which completes a code (41_huffman.md R85). -/
theorem hufWalk_match (book : List (Nat × Nat)) (xs : List Bool) (fuel c l sym : Nat) (s : State)
    (hx : xs ≠ []) (hf : xs.length ≤ fuel) (h : ReaderGood s.bs) (hl : s.inLen.toNat ≤ Config.inMax) (hc : Coherent s)
    (ha : xs.length ≤ s.bs.avail s.inLen.toNat) (hb : StreamHolds s.bs.mode s.inRam s.bs.bitpos xs)
    (hno : ∀ k, 0 < k → k < xs.length → symbolOf book (l + k) (c * 2 ^ k + msbFirst (xs.take k)) = none)
    (hyes : symbolOf book (l + xs.length) (c * 2 ^ xs.length + msbFirst xs) = some sym) :
    ∃ t, hufWalk book fuel c l s = .ok sym t ∧ t = { s with bs := t.bs } ∧ t.bs.mode = s.bs.mode ∧
      t.bs.bitpos = s.bs.bitpos + xs.length ∧ ReaderGood t.bs ∧ Coherent t := by
  obtain ⟨ys, y, rfl⟩ : ∃ ys y, xs = ys ++ [y] := ⟨_, _, (List.dropLast_append_getLast hx).symm⟩
  simp only [List.length_append, List.length_singleton] at hf ha hno hyes ⊢
  obtain ⟨t, k1, k2, k3, k4, k5, k6, k7⟩ := hufWalk_through book ys (fuel - ys.length) c l s h hl hc (by omega)
    (by
      intro i hi
      have := hb i (by simp; omega)
      rwa [List.getElem_append_left hi] at this)
    (by
      intro k hk1 hk2
      have := hno k hk1 (by omega)
      rwa [List.take_append_of_le_length hk2] at this)
  have gl : t.inLen = s.inLen := by rw [k2]
  have gr : t.inRam = s.inRam := by rw [k2]
  obtain ⟨v, u, h1, h2, h3, h4, h5, h6, h7, _⟩ := bsGet_stream t [y] k5 (by simp) (by rw [gl]; exact hl) k6
    (by rw [gl, k7]; simp only [List.length_singleton]; omega)
    (by
      intro i hi
      obtain rfl : i = 0 := by simpa using hi
      rw [k3, gr, k4]
      have := hb ys.length (by simp)
      simpa using this)
  have hv : v.toNat = y.toNat := by
    rw [h2]; cases t.bs.mode <;> simp [readValue, lsbFirst, msbFirst]
  simp only [List.length_singleton] at h1 h5
  obtain ⟨f, hf'⟩ : ∃ f, fuel - ys.length = f + 1 := ⟨fuel - ys.length - 1, by omega⟩
  have e : c * 2 ^ (ys.length + 1) + msbFirst (ys ++ [y]) = 2 * (c * 2 ^ ys.length + msbFirst ys) + y.toNat := by
    rw [msbFirst_append, pow_succ]; ring
  rw [e, ← Nat.add_assoc] at hyes
  refine ⟨u, ?_, by rw [h3, k2], by rw [h4, k3], by omega, h6, h7⟩
  have e1 : fuel = ys.length + (fuel - ys.length) := by omega
  rw [e1, k1, hf']
  simp only [hufWalk, engine_bind, h1, hv, hyes]
  rfl

/-- The walk along LMAX bits none of which completes a code (41_huffman.md R85). -/
theorem hufWalk_noCode (book : List (Nat × Nat)) (xs : List Bool) (c l : Nat) (s : State)
    (h : ReaderGood s.bs) (hl : s.inLen.toNat ≤ Config.inMax) (hc : Coherent s)
    (ha : xs.length ≤ s.bs.avail s.inLen.toNat) (hb : StreamHolds s.bs.mode s.inRam s.bs.bitpos xs)
    (hno : ∀ k, 0 < k → k ≤ xs.length → symbolOf book (l + k) (c * 2 ^ k + msbFirst (xs.take k)) = none) :
    ∃ t, hufWalk book xs.length c l s = .error (.raise .fmtInvalidCode) t ∧ t = { s with bs := t.bs } ∧
      t.bs.mode = s.bs.mode ∧ t.bs.bitpos = s.bs.bitpos + xs.length := by
  obtain ⟨t, k1, k2, k3, k4, _⟩ := hufWalk_through book xs 0 c l s h hl hc ha hb hno
  exact ⟨t, k1, k2, k3, k4⟩

/-- The walk along every bit that is left, none of which completes a code (41_huffman.md R85, 40_bitstream.md R68). -/
theorem hufWalk_exhausted (book : List (Nat × Nat)) (xs : List Bool) (fuel c l : Nat) (s : State) (hf : xs.length < fuel)
    (h : ReaderGood s.bs) (hl : s.inLen.toNat ≤ Config.inMax) (hc : Coherent s)
    (ha : s.bs.avail s.inLen.toNat = xs.length) (hb : StreamHolds s.bs.mode s.inRam s.bs.bitpos xs)
    (hno : ∀ k, 0 < k → k ≤ xs.length → symbolOf book (l + k) (c * 2 ^ k + msbFirst (xs.take k)) = none) :
    ∃ t, hufWalk book fuel c l s = .error (.raise .fmtInputExhausted) t ∧ t = { s with bs := t.bs } ∧
      t.bs.mode = s.bs.mode ∧ t.bs.bitpos = s.bs.bitpos + xs.length := by
  obtain ⟨t, k1, k2, k3, k4, _, _, k7⟩ :=
    hufWalk_through book xs (fuel - xs.length) c l s h hl hc (Nat.le_of_eq ha.symm) hb hno
  obtain ⟨f, hf'⟩ : ∃ f, fuel - xs.length = f + 1 := ⟨fuel - xs.length - 1, by omega⟩
  have gl : t.inLen = s.inLen := by rw [k2]
  refine ⟨t, ?_, k2, k3, k4⟩
  have e1 : fuel = xs.length + (fuel - xs.length) := by omega
  have h1 : bsGet 1 t = .error (.raise .fmtInputExhausted) t := by
    simp only [bsGet]
    rw [if_pos (by rw [gl, k7]; omega)]
    rfl
  rw [e1, k1, hf']
  simp only [hufWalk, engine_bind, h1]

end Sys2Proof.Machine
end

