-- ==== Sys2Proof/Laws/Inflate.lean ====
section
/-! SUPPORT. The DEFLATE engine (42_inflate.md): one lemma per piece of INFLATE that says once what it can do from a reader
inside the stream: what it leaves alone, how far the stream moves, which codes it raises, and that it faults only on an
unwritten byte of the input. -/

namespace Sys2Proof.Machine

open Host (Outcome)

variable {α β : Type}

/-! ## What a piece of INFLATE may change -/

/-- What INFLATE may change of the state (42_inflate.md R89, R108; 20_memory.md R49): never the host's side, IN, CLEN or slot
T3; OUT only between the two values of OUT_POS, and never at or above OUT_CAP. -/
structure EngineFrame (s t : State) : Prop where
  same : t = { s with
    bs := t.bs, outRam := t.outRam, outPos := t.outPos, zhdr := t.zhdr, dictid := t.dictid, adlerCalc := t.adlerCalc,
    adlerStored := t.adlerStored, blkinfo := t.blkinfo, trees := t.trees,
    status := { s.status with ckpres := t.status.ckpres, ckok := t.status.ckok, fdict := t.status.fdict } }
  t3 : t.trees.t3 = s.trees.t3
  grows : s.outPos ≤ t.outPos
  cap : t.outPos ≤ max s.outPos s.outCap.toNat
  below : ∀ a, a < s.outPos → t.outRam.read a = s.outRam.read a
  above : ∀ a, t.outPos ≤ a → t.outRam.read a = s.outRam.read a
  written : ∀ a, s.outPos ≤ a → a < t.outPos → (t.outRam.read a).isSome
  ram : ∀ size, s.outCap.toNat ≤ size → RamGood size s.outRam → RamGood size t.outRam
  header : HeaderGood s → HeaderGood t
  check : (s.status.ckok = true → s.status.ckpres = true) → t.status.ckok = true → t.status.ckpres = true

theorem EngineFrame.refl (s : State) : EngineFrame s s :=
  ⟨rfl, rfl, Nat.le_refl _, Nat.le_max_left _ _, fun _ _ => rfl, fun _ _ => rfl,
    fun a h1 h2 => absurd h1 (by omega), fun _ _ h => h, id, id⟩

theorem EngineFrame.inRam {s t : State} (h : EngineFrame s t) : t.inRam = s.inRam := by rw [h.same]
theorem EngineFrame.inLen {s t : State} (h : EngineFrame s t) : t.inLen = s.inLen := by rw [h.same]
theorem EngineFrame.outCap {s t : State} (h : EngineFrame s t) : t.outCap = s.outCap := by rw [h.same]

theorem EngineFrame.trans {s t u : State} (h : EngineFrame s t) (k : EngineFrame t u) : EngineFrame s u where
  same := by
    have h1 := h.same
    have h2 := k.same
    rw [h1] at h2
    exact h2
  t3 := k.t3.trans h.t3
  grows := Nat.le_trans h.grows k.grows
  cap := by have h1 := h.cap; have h2 := k.cap; rw [h.outCap] at h2; omega
  below a ha := (k.below a (Nat.lt_of_lt_of_le ha h.grows)).trans (h.below a ha)
  above a ha := (k.above a ha).trans (h.above a (Nat.le_trans k.grows ha))
  written a h1 h2 := by
    by_cases ha : a < t.outPos
    · rw [k.below a ha]; exact h.written a h1 ha
    · exact k.written a (by omega) h2
  ram size h1 h2 := k.ram size (by rw [h.outCap]; exact h1) (h.ram size h1 h2)
  header hs := k.header (h.header hs)
  check hs := k.check (h.check hs)

/-- A piece that moves the reader only. -/
theorem engineFrame_bs {s t : State} (h : t = { s with bs := t.bs }) : EngineFrame s t := by
  rw [h]
  exact ⟨rfl, rfl, Nat.le_refl _, Nat.le_max_left _ _, fun _ _ => rfl, fun _ _ => rfl,
    fun _ h1 h2 => absurd h1 (Nat.not_le.mpr h2), fun _ _ h => h, id, id⟩

/-! ## A run of a piece of INFLATE -/

/-- Inside the stream of an INFLATE: a good reader in DEFLATE order, not past IN_LEN, and OUT[0..OUT_POS-1] written. -/
def Going (s : State) : Prop :=
  s.bs.mode = .deflate ∧ ReaderGood s.bs ∧ s.bs.offset ≤ s.inLen.toNat ∧ s.inLen.toNat ≤ Config.inMax ∧
    Written s.outRam 0 s.outPos

/-- The fault of reading an unwritten byte of IN[0..IN_LEN-1]. -/
def InputFault (s : State) (f : Fault) : Prop :=
  ∃ i, f = .unwritten .inRam i ∧ i < s.inLen.toNat ∧ s.inRam.read i = none

/-- How a piece started in s inside the stream ends: well, with a value satisfying Q and at least k bits consumed; with a code
satisfying E; or with a fault, a read of an unwritten byte of the input. Either way of ending keeps the frame and stays
inside the stream. -/
def Ends (k : Nat) (Q : α → Prop) (E : ErrCode → Prop) (s : State) : EStateM.Result Stop State α → Prop
  | .ok a t => Q a ∧ EngineFrame s t ∧ Going t ∧ s.bs.bitpos + k ≤ t.bs.bitpos
  | .error (.raise e) t => E e ∧ EngineFrame s t ∧ Going t
  | .error (.fault f) _ => InputFault s f

/-- From every state inside the stream the piece ends in one of those ways. -/
structure Runs (k : Nat) (m : Engine α) (Q : α → Prop) (E : ErrCode → Prop) : Prop where
  ends : ∀ s, Going s → Ends k Q E s (m s)

theorem Ends.bind {k l : Nat} {m : Engine α} {f : α → Engine β} {Q : α → Prop} {R : β → Prop} {E : ErrCode → Prop}
    {s : State} (hm : Ends k Q E s (m s))
    (hf : ∀ a t, Q a → Going t → EngineFrame s t → s.bs.bitpos + k ≤ t.bs.bitpos → Ends l R E t (f a t)) :
    Ends (k + l) R E s ((m >>= f) s) := by
  rw [engine_bind]
  cases hr : m s with
  | ok a t =>
    rw [hr] at hm
    obtain ⟨h1, h2, h3, h4⟩ := hm
    have g := hf a t h1 h3 h2 h4
    simp only
    cases hr2 : f a t with
    | ok b u =>
      rw [hr2] at g
      obtain ⟨g1, g2, g3, g4⟩ := g
      exact ⟨g1, h2.trans g2, g3, by omega⟩
    | error e u =>
      rw [hr2] at g
      cases e with
      | raise e => exact ⟨g.1, h2.trans g.2.1, g.2.2⟩
      | fault f =>
        obtain ⟨i, g1, g2, g3⟩ := g
        exact ⟨i, g1, by rw [h2.inLen] at g2; exact g2, by rw [h2.inRam] at g3; exact g3⟩
  | error e t =>
    rw [hr] at hm
    cases e with
    | raise e => exact hm
    | fault f => exact hm

/-- A piece followed by one that is known for this run only. -/
theorem Runs.bindEnds {k l : Nat} {m : Engine α} {f : α → Engine β} {Q : α → Prop} {R : β → Prop} {E : ErrCode → Prop}
    {s : State} (hm : Runs k m Q E) (hs : Going s)
    (hf : ∀ a t, Q a → Going t → EngineFrame s t → s.bs.bitpos + k ≤ t.bs.bitpos → Ends l R E t (f a t)) :
    Ends (k + l) R E s ((m >>= f) s) := (hm.ends s hs).bind hf

theorem Runs.bind {k l : Nat} {m : Engine α} {f : α → Engine β} {Q : α → Prop} {R : β → Prop} {E : ErrCode → Prop}
    (hm : Runs k m Q E) (hf : ∀ a, Q a → Runs l (f a) R E) : Runs (k + l) (m >>= f) R E :=
  ⟨fun s hs => (hm.ends s hs).bind fun a t ha ht _ _ => (hf a ha).ends t ht⟩

theorem Ends.conseq {k l : Nat} {s : State} {r : EStateM.Result Stop State α} {Q R : α → Prop} {E F : ErrCode → Prop}
    (h : Ends k Q E s r) (hk : l ≤ k) (hQ : ∀ a, Q a → R a) (hE : ∀ e, E e → F e) : Ends l R F s r := by
  match r, h with
  | .ok a t, g => exact ⟨hQ a g.1, g.2.1, g.2.2.1, Nat.le_trans (Nat.add_le_add_left hk _) g.2.2.2⟩
  | .error (.raise e) t, g => exact ⟨hE e g.1, g.2⟩
  | .error (.fault f) _, g => exact g

theorem Runs.conseq {k l : Nat} {m : Engine α} {Q R : α → Prop} {E F : ErrCode → Prop} (h : Runs k m Q E) (hk : l ≤ k)
    (hQ : ∀ a, Q a → R a) (hE : ∀ e, E e → F e) : Runs l m R F :=
  ⟨fun s hs => (h.ends s hs).conseq hk hQ hE⟩

theorem Runs.pure {Q : α → Prop} {E : ErrCode → Prop} (a : α) (h : Q a) : Runs 0 (pure a) Q E :=
  ⟨fun s hs => ⟨h, .refl s, hs, Nat.le_refl _⟩⟩

theorem Runs.raise {Q : α → Prop} {E : ErrCode → Prop} {k : Nat} (e : ErrCode) (h : E e) : Runs k (raise e) Q E :=
  ⟨fun s hs => ⟨h, .refl s, hs⟩⟩

theorem Runs.failIf {E : ErrCode → Prop} (c : Bool) (e : ErrCode) (h : E e) : Runs 0 (failIf c e) (fun _ => c = false) E := by
  constructor
  intro s hs
  cases c with
  | false => exact ⟨rfl, .refl s, hs, Nat.le_refl _⟩
  | true => exact ⟨h, .refl s, hs⟩

theorem Runs.ite {k : Nat} {c : Prop} [Decidable c] {m n : Engine α} {Q : α → Prop} {E : ErrCode → Prop}
    (hm : c → Runs k m Q E) (hn : ¬ c → Runs k n Q E) : Runs k (if c then m else n) Q E := by
  split
  · next h => exact hm h
  · next h => exact hn h

/-- A piece that starts by looking at the state. -/
theorem Runs.get {k : Nat} {f : State → Engine α} {Q : α → Prop} {E : ErrCode → Prop}
    (h : ∀ s, Going s → Ends k Q E s (f s s)) : Runs k (get >>= f) Q E := by
  constructor
  intro s hs
  rw [engine_bind, engine_get]
  exact h s hs

/-- Recording something about the stream leaves the reader and OUT alone. -/
theorem Runs.modify {E : ErrCode → Prop} (f : State → State)
    (h : ∀ s, Going s → EngineFrame s (f s) ∧ (f s).bs = s.bs ∧ (f s).outPos = s.outPos) :
    Runs 0 (modify f : Engine Unit) (fun _ => True) E := by
  constructor
  intro s hs
  obtain ⟨h1, h2, h3⟩ := h s hs
  obtain ⟨g1, g2, g3, g4, g5⟩ := hs
  refine ⟨trivial, h1, ⟨by rw [h2]; exact g1, by rw [h2]; exact g2, by rw [h2, h1.inLen]; exact g3,
    by rw [h1.inLen]; exact g4, ?_⟩, by rw [h2]; exact Nat.le_refl _⟩
  intro a ha hb
  rw [h1.below a (by omega)]
  exact g5 a ha (by omega)

/-! ## The reader's pieces -/

/-- Everything BsGet can do inside the stream of an INFLATE (40_bitstream.md R68). -/
theorem bsGet_runs (n : Nat) (hn : n ≤ 32) :
    Runs n (bsGet n) (fun v => v.toNat < 2 ^ n) (fun e => e = .fmtInputExhausted) := by
  constructor
  intro s hs
  obtain ⟨h1, h2, h3, h4, h5⟩ := hs
  have h := bsGet_spec n s h2 hn h4
  cases hr : bsGet n s with
  | ok v t =>
    rw [hr] at h
    obtain ⟨_, k2, k3, k4, k5, k6, k7, _⟩ := h
    have gl : t.inLen = s.inLen := by rw [k2]
    refine ⟨k7, engineFrame_bs k2, ⟨by rw [k3]; exact h1, k5, by rw [gl]; omega, by rw [gl]; exact h4, ?_⟩, by omega⟩
    rw [k2]; exact h5
  | error e t =>
    rw [hr] at h
    rcases h with ⟨rfl, rfl, _⟩ | ⟨_, _, i, rfl, k3, k4, _⟩
    · exact ⟨rfl, .refl _, h1, h2, h3, h4, h5⟩
    · exact ⟨i, rfl, k4, k3⟩

/-- BsAlign inside the stream of an INFLATE (40_bitstream.md R73). -/
theorem bsAlign_runs {E : ErrCode → Prop} : Runs 0 bsAlign (fun _ => True) E := by
  constructor
  intro s hs
  obtain ⟨h1, h2, h3, h4, h5⟩ := hs
  have e := align_eq s.bs h2
  refine ⟨trivial, engineFrame_bs rfl, ⟨?_, readerGood_aligned _ h2, ?_, h4, h5⟩, ?_⟩
  · simp only [e]; exact h1
  · simp only [e]; exact h3
  · simp only [e, Reader.bitpos]; omega

/-- A walk takes at least one bit and answers a symbol of the book (41_huffman.md R85). -/
theorem hufWalk_runs (book : List (Nat × Nat)) (fuel c l : Nat) :
    Runs 1 (hufWalk book fuel c l) (fun sym => sym < book.length)
      (fun e => e = .fmtInputExhausted ∨ e = .fmtInvalidCode) := by
  induction fuel generalizing c l with
  | zero => exact Runs.raise _ (Or.inr rfl)
  | succ fuel ih =>
    have h : Runs (1 + 0) (hufWalk book (fuel + 1) c l) (fun sym => sym < book.length)
        (fun e => e = .fmtInputExhausted ∨ e = .fmtInvalidCode) := by
      refine ((bsGet_runs 1 (by decide)).conseq (Nat.le_refl _) (fun _ h => h) (fun _ h => Or.inl h)).bind ?_
      intro b _
      have hs := symbolOf_spec book (l + 1) (2 * c + b.toNat)
      cases hr : symbolOf book (l + 1) (2 * c + b.toNat) with
      | some sym =>
        rw [hr] at hs
        exact Runs.pure _ (List.getElem?_eq_some_iff.mp hs.1).1
      | none => exact (ih _ _).conseq (by omega) (fun _ h => h) (fun _ h => h)
    exact h

/-- HufDecode inside the stream of an INFLATE (41_huffman.md R85). -/
theorem hufDecode_runs (k : Slot) :
    Runs 1 (hufDecode k) (fun _ => True) (fun e => e = .fmtInputExhausted ∨ e = .fmtInvalidCode) := by
  constructor
  intro s hs
  exact ((hufWalk_runs (s.trees.get k).book (s.trees.get k).lmax 0 0).conseq (Nat.le_refl _) (fun _ _ => trivial)
    (fun _ h => h)).ends s hs

/-- A build inside an INFLATE writes one of T0, T1, T2 (41_huffman.md R83). -/
theorem hufBuild_runs (k : Slot) (hk : k ≠ .t3) (lens : List Nat) (maxlen : Nat) (h : ∀ l ∈ lens, l ≤ maxlen) :
    Runs 0 (hufBuild k lens maxlen) (fun _ => True) (fun e => e = .fmtOversubscribed) := by
  have frame : ∀ (s : State) (v : TreeSlot), EngineFrame s { s with trees := s.trees.set k v } := by
    intro s v
    refine ⟨rfl, ?_, Nat.le_refl _, Nat.le_max_left _ _, fun _ _ => rfl, fun _ _ => rfl,
      fun _ h1 h2 => absurd h1 (Nat.not_le.mpr h2), fun _ _ h => h, id, id⟩
    cases k <;> first | rfl | exact absurd rfl hk
  have hlen : lenTooLong lens maxlen = false := by
    simp only [lenTooLong, List.any_eq_false, decide_eq_true_eq]
    intro l hl; have := h l hl; omega
  constructor
  intro s hs
  have hg : ∀ v, Going { s with trees := s.trees.set k v } := fun _ => hs
  rw [hufBuild_run, if_neg (by simp [hlen])]
  by_cases h2 : oversubscribed lens maxlen = true
  · rw [if_pos h2]
    exact ⟨rfl, frame s _, hg _⟩
  · rw [if_neg h2]
    exact ⟨trivial, frame s _, hg _, Nat.le_refl _⟩

/-! ## The pieces of INFLATE -/

/-- The codes INFLATE can end with after its argument checks, but for success (60_exceptions.md R117). -/
def InflateCode (e : ErrCode) : Prop :=
  e ∉ [ErrCode.ok, .argIllegalCmd, .argNRange, .argTreeParam, .argTreeInvalid, .argLenRange, .fmtLenTooLong]

theorem inflate_bsGet (n : Nat) (hn : n ≤ 32) : Runs n (bsGet n) (fun v => v.toNat < 2 ^ n) InflateCode :=
  (bsGet_runs n hn).conseq (Nat.le_refl _) (fun _ h => h) (by rintro _ rfl; simp [InflateCode])

theorem inflate_hufDecode (k : Slot) : Runs 1 (hufDecode k) (fun _ => True) InflateCode :=
  (hufDecode_runs k).conseq (Nat.le_refl _) (fun _ h => h) (by rintro _ (rfl | rfl) <;> simp [InflateCode])

theorem inflate_hufBuild (k : Slot) (hk : k ≠ .t3) (lens : List Nat) (maxlen : Nat) (h : ∀ l ∈ lens, l ≤ maxlen) :
    Runs 0 (hufBuild k lens maxlen) (fun _ => True) InflateCode :=
  (hufBuild_runs k hk lens maxlen h).conseq (Nat.le_refl _) (fun _ h => h) (by rintro _ rfl; simp [InflateCode])

/-- Four bytes of the stream, big-endian (42_inflate.md R93, R107). -/
theorem getBE32_runs : Runs 32 getBE32 (fun _ => True) InflateCode :=
  (inflate_bsGet 8 (by decide)).bind fun _ _ => (inflate_bsGet 8 (by decide)).bind fun _ _ =>
    (inflate_bsGet 8 (by decide)).bind fun _ _ => (inflate_bsGet 8 (by decide)).bind fun _ _ => Runs.pure _ trivial

/-- Setting a register that HeaderGood and the check bits do not speak of keeps the frame. -/
theorem engineFrame_registers (s : State) (dictid adlerCalc adlerStored : Word) (fdict : Bool) :
    EngineFrame s { s with dictid := dictid, adlerCalc := adlerCalc, adlerStored := adlerStored,
                           status := { s.status with fdict := fdict } } :=
  ⟨rfl, rfl, Nat.le_refl _, Nat.le_max_left _ _, fun _ _ => rfl, fun _ _ => rfl,
    fun _ h1 h2 => absurd h1 (Nat.not_le.mpr h2), fun _ _ h => h, id, id⟩

/-- Setting ZHDR to a value whose reserved bits are 0 keeps the frame. -/
theorem engineFrame_zhdr (s : State) (z : Word) (hz : z.extractLsb' 16 16 = 0) : EngineFrame s { s with zhdr := z } :=
  ⟨rfl, rfl, Nat.le_refl _, Nat.le_max_left _ _, fun _ _ => rfl, fun _ _ => rfl,
    fun _ h1 h2 => absurd h1 (Nat.not_le.mpr h2), fun _ _ h => h, fun h => ⟨hz, h.2⟩, id⟩

/-- Setting BLKINFO to a value whose reserved bits are 0 keeps the frame. -/
theorem engineFrame_blkinfo (s : State) (b : Word) (hb : b.extractLsb' 3 13 = 0) :
    EngineFrame s { s with blkinfo := b } :=
  ⟨rfl, rfl, Nat.le_refl _, Nat.le_max_left _ _, fun _ _ => rfl, fun _ _ => rfl,
    fun _ h1 h2 => absurd h1 (Nat.not_le.mpr h2), fun _ _ h => h, fun h => ⟨h.1, hb⟩, id⟩

theorem presetDict_runs (flg : Word) : Runs 0 (presetDict flg) (fun _ => True) InflateCode := by
  unfold presetDict
  refine Runs.ite (fun _ => ?_) (fun _ => Runs.pure _ trivial)
  refine (Runs.modify _ fun s _ => ⟨engineFrame_registers s s.dictid s.adlerCalc s.adlerStored true, rfl, rfl⟩).bind
    fun _ _ => (getBE32_runs.bind (l := 0) fun id _ => ?_).conseq (Nat.zero_le _) (fun _ h => h) (fun _ h => h)
  exact Runs.modify _ fun s _ => ⟨engineFrame_registers s id s.adlerCalc s.adlerStored s.status.fdict, rfl, rfl⟩

theorem zhdr_reserved (flg cmf : Word) (hf : flg.toNat < 2 ^ 8) (hc : cmf.toNat < 2 ^ 8) :
    ((flg <<< 8) ||| cmf).extractLsb' 16 16 = 0 := by
  apply BitVec.eq_of_getLsbD_eq
  intro i hi
  have h1 : flg.getLsbD (8 + i) = false := by
    rw [BitVec.getLsbD, Nat.testBit_lt_two_pow]
    exact Nat.lt_of_lt_of_le hf (Nat.pow_le_pow_right (by decide) (by omega))
  have h2 : cmf.getLsbD (16 + i) = false := by
    rw [BitVec.getLsbD, Nat.testBit_lt_two_pow]
    exact Nat.lt_of_lt_of_le hc (Nat.pow_le_pow_right (by decide) (by omega))
  have e : 16 + i - 8 = 8 + i := by omega
  simp [BitVec.getLsbD_extractLsb', BitVec.getLsbD_shiftLeft, e, h1, h2]

/-- The zlib header takes two bytes at least (42_inflate.md R92, R93). -/
theorem zlibHeader_runs : Runs 16 zlibHeader (fun _ => True) InflateCode := by
  unfold zlibHeader
  refine (inflate_bsGet 8 (by decide)).bind (l := 8) fun cmf hc =>
    (inflate_bsGet 8 (by decide)).bind (l := 0) fun flg hf => ?_
  exact (Runs.modify _ fun s _ => ⟨engineFrame_zhdr s _ (zhdr_reserved flg cmf hf hc), rfl, rfl⟩).bind fun _ _ =>
    (Runs.failIf _ _ (by simp [InflateCode])).bind fun _ _ =>
      (Runs.failIf _ _ (by simp [InflateCode])).bind fun _ _ => presetDict_runs flg

theorem blkinfo_reserved (b bfinal btype : Word) (hf : bfinal.toNat < 2 ^ 1) (ht : btype.toNat < 2 ^ 2) :
    (nextBlkinfo b bfinal btype).extractLsb' 3 13 = 0 := by
  apply BitVec.eq_of_getLsbD_eq
  intro i hi
  have h1 : bfinal.getLsbD (1 + i) = false := by
    rw [BitVec.getLsbD, Nat.testBit_lt_two_pow]
    exact Nat.lt_of_lt_of_le hf (Nat.pow_le_pow_right (by decide) (by omega))
  have h2 : btype.getLsbD (3 + i) = false := by
    rw [BitVec.getLsbD, Nat.testBit_lt_two_pow]
    exact Nat.lt_of_lt_of_le ht (Nat.pow_le_pow_right (by decide) (by omega))
  have e : 3 + i - 2 = 1 + i := by omega
  have e2 : 3 + i < 16 := by omega
  simp [nextBlkinfo, BitVec.getLsbD_extractLsb', BitVec.getLsbD_shiftLeft, e, e2, h1, h2]

/-- A block header takes three bits (42_inflate.md R94). -/
theorem blockHeader_runs : Runs 3 blockHeader (fun _ => True) InflateCode := by
  unfold blockHeader
  refine (inflate_bsGet 1 (by decide)).bind (l := 2) fun bfinal hf =>
    (inflate_bsGet 2 (by decide)).bind (l := 0) fun btype ht => ?_
  exact (Runs.modify _ fun s _ => ⟨engineFrame_blkinfo s _ (blkinfo_reserved s.blkinfo bfinal btype hf ht), rfl, rfl⟩).bind
    fun _ _ => Runs.pure _ trivial

/-- Storing the next output byte below OUT_CAP (42_inflate.md R95, R102, R105). -/
theorem pushOut_frame (s : State) (b : Byte) (h : s.outPos < s.outCap.toNat) :
    EngineFrame s { s with outRam := s.outRam.write s.outPos b, outPos := s.outPos + 1 } where
  same := rfl
  t3 := rfl
  grows := Nat.le_succ _
  cap := by change s.outPos + 1 ≤ _; omega
  below a ha := by
    change (s.outRam.write s.outPos b).read a = _
    rw [memory_read_write, if_neg (by omega)]
  above a ha := by
    change (s.outRam.write s.outPos b).read a = _
    change s.outPos + 1 ≤ a at ha
    rw [memory_read_write, if_neg (by omega)]
  written a h1 h2 := by
    change ((s.outRam.write s.outPos b).read a).isSome
    change a < s.outPos + 1 at h2
    rw [memory_read_write, if_pos (by omega)]
    rfl
  ram size h1 h2 := ramGood_write size _ _ _ h2 (by omega)
  header := id
  check := id

theorem pushOut_going (s : State) (b : Byte) (h : Going s) :
    Going { s with outRam := s.outRam.write s.outPos b, outPos := s.outPos + 1 } := by
  obtain ⟨h1, h2, h3, h4, h5⟩ := h
  refine ⟨h1, h2, h3, h4, ?_⟩
  intro a _ hb
  change a < 0 + (s.outPos + 1) at hb
  change ((s.outRam.write s.outPos b).read a).isSome
  rw [memory_read_write]
  by_cases ha : a = s.outPos
  · rw [if_pos ha]; rfl
  · rw [if_neg ha]; exact h5 a (Nat.zero_le _) (by omega)

/-- The raw copy of a stored block that fits the input left and OUT_CAP (42_inflate.md R95). -/
theorem storedCopy_ends (n : Nat) (s : State) (hs : Going s) (hi : s.bs.offset + n ≤ s.inLen.toNat)
    (ho : s.outPos + n ≤ s.outCap.toNat) : Ends 0 (fun _ => True) InflateCode s (storedCopy n s) := by
  induction n generalizing s with
  | zero => exact ⟨trivial, .refl s, hs, Nat.le_refl _⟩
  | succ n ih =>
    simp only [storedCopy, engine_bind, engine_get, readIn]
    cases hr : s.inRam.read s.bs.offset with
    | none => exact ⟨_, rfl, by omega, hr⟩
    | some b =>
      simp only [pushOut_run, engine_modify]
      obtain ⟨g1, g2, g3, g4, g5⟩ := pushOut_going s b hs
      have hf := pushOut_frame s b (by omega)
      have hr2 : ReaderGood { s.bs with offset := s.bs.offset + 1 } := by
        obtain ⟨r1, r2, r3, r4, r5⟩ := g2
        refine ⟨r1, ?_, r3, ?_, ?_⟩
        · intro hm
          have hd : s.bs.mode = .deflate := g1
          exact absurd (hd.symm.trans hm) (by decide)
        · change s.bs.bitcnt ≤ 8 * s.bs.offset at r4
          change s.bs.bitcnt ≤ 8 * (s.bs.offset + 1)
          omega
        · change s.bs.offset + 1 ≤ Config.inMax
          change s.inLen.toNat ≤ Config.inMax at g4
          omega
      have h := ih
        { s with outRam := s.outRam.write s.outPos b, outPos := s.outPos + 1,
                 bs := { s.bs with offset := s.bs.offset + 1 } }
        ⟨g1, hr2, by change s.bs.offset + 1 ≤ s.inLen.toNat; omega, g4, g5⟩
        (by change s.bs.offset + 1 + n ≤ s.inLen.toNat; omega)
        (by change s.outPos + 1 + n ≤ s.outCap.toNat; omega)
      have hf2 : EngineFrame s { s with
          outRam := s.outRam.write s.outPos b, outPos := s.outPos + 1,
          bs := { s.bs with offset := s.bs.offset + 1 } } := hf.trans (engineFrame_bs rfl)
      revert h
      generalize storedCopy n _ = r
      intro h
      match r, h with
      | .ok a t, h =>
        obtain ⟨k1, k2, k3, k4⟩ := h
        refine ⟨k1, hf2.trans k2, k3, Nat.le_trans ?_ k4⟩
        simp only [Reader.bitpos]; omega
      | .error (.raise e) t, h => exact ⟨h.1, hf2.trans h.2.1, h.2.2⟩
      | .error (.fault f) _, h => exact h

/-- A stored block (42_inflate.md R95). -/
theorem storedBlock_runs : Runs 0 storedBlock (fun _ => True) InflateCode := by
  unfold storedBlock
  refine bsAlign_runs.bind fun _ _ => ((inflate_bsGet 16 (by decide)).bind (l := 16) fun len hl =>
    (inflate_bsGet 16 (by decide)).bind (l := 0) fun nlen _ =>
      (Runs.failIf _ _ (by simp [InflateCode])).bind (l := 0) fun _ _ => ?_).conseq (Nat.zero_le _) (fun _ h => h)
        (fun _ h => h)
  constructor
  intro s hs
  simp only [storedChecks, engine_bind, engine_get, failIf_run]
  by_cases h1 : s.inLen.toNat - s.bs.offset < len.toNat
  · simp only [h1, decide_true, if_true]
    exact ⟨by simp [InflateCode], .refl s, hs⟩
  · by_cases h2 : s.outCap.toNat < s.outPos + len.toNat
    · simp only [h1, h2, decide_true, decide_false, if_true, Bool.false_eq_true, if_false]
      exact ⟨by simp [InflateCode], .refl s, hs⟩
    · simp only [h1, h2, decide_false, Bool.false_eq_true, if_false]
      have := hs.2.2.1
      exact storedCopy_ends _ s hs (by omega) (by omega)

/-- A literal (42_inflate.md R102). -/
theorem literal_runs (sym : Nat) : Runs 0 (literal sym) (fun _ => True) InflateCode := by
  refine Runs.get fun s hs => ?_
  simp only [engine_bind, failIf_run]
  by_cases h : s.outCap.toNat ≤ s.outPos
  · simp only [h, decide_true, if_true]
    exact ⟨by simp [InflateCode], .refl s, hs⟩
  · simp only [h, decide_false, Bool.false_eq_true, if_false, pushOut_run]
    exact ⟨trivial, pushOut_frame s _ (by omega), pushOut_going s _ hs, Nat.le_refl _⟩

theorem lExtra_le (i : Nat) : lExtra.getD i 0 ≤ 5 := by
  by_cases h : i < 29
  · interval_cases i <;> decide
  · rw [List.getD_eq_default _ _ (by simp [lExtra]; omega)]; decide

theorem dExtra_le (i : Nat) : dExtra.getD i 0 ≤ 13 := by
  by_cases h : i < 30
  · interval_cases i <;> decide
  · rw [List.getD_eq_default _ _ (by simp [dExtra]; omega)]; decide

theorem dBase_pos (i : Nat) (h : i < 30) : 1 ≤ dBase.getD i 0 := by interval_cases i <;> decide

/-- The copy length (42_inflate.md R103). -/
theorem matchLength_runs (sym : Nat) : Runs 0 (matchLength sym) (fun _ => True) InflateCode := by
  have hx := lExtra_le (sym - 257)
  have hn : lExtra.getD (sym - 257) 0 ≤ 32 := by omega
  unfold matchLength
  generalize lExtra.getD (sym - 257) 0 = n at hn
  generalize lBase.getD (sym - 257) 0 = base
  exact ((inflate_bsGet n hn).bind fun _ _ => Runs.pure _ trivial).conseq (Nat.zero_le _) (fun _ h => h) (fun _ h => h)

/-- The copy distance is at least 1 (42_inflate.md R104). -/
theorem matchDistance_runs : Runs 1 matchDistance (fun dist => 1 ≤ dist) InflateCode := by
  unfold matchDistance
  refine (inflate_hufDecode .t1).bind (l := 0) fun d _ => ?_
  refine (Runs.failIf _ _ (by simp [InflateCode])).bind (l := 0) fun _ hd => ?_
  have hd' : d < 30 := by simpa using hd
  have h1 := dExtra_le d
  have h2 := dBase_pos d hd'
  exact ((inflate_bsGet (dExtra.getD d 0) (by omega)).bind fun _ _ => Runs.pure _ (by omega)).conseq
    (Nat.zero_le _) (fun _ h => h) (fun _ h => h)

/-- The copy of a match that starts inside the output and fits OUT_CAP (42_inflate.md R105). -/
theorem matchCopy_ends (dist n : Nat) (s : State) (hs : Going s) (h1 : 1 ≤ dist) (h2 : dist ≤ s.outPos)
    (ho : s.outPos + n ≤ s.outCap.toNat) : Ends 0 (fun _ => True) InflateCode s (matchCopy dist n s) := by
  induction n generalizing s with
  | zero => exact ⟨trivial, .refl s, hs, Nat.le_refl _⟩
  | succ n ih =>
    have hw : (s.outRam.read (s.outPos - dist)).isSome := hs.2.2.2.2 _ (Nat.zero_le _) (by omega)
    obtain ⟨b, hb⟩ := Option.isSome_iff_exists.mp hw
    simp only [matchCopy, engine_bind, engine_get, readOut_some _ _ _ hb, pushOut_run]
    have hf := pushOut_frame s b (by omega)
    have h := ih { s with outRam := s.outRam.write s.outPos b, outPos := s.outPos + 1 } (pushOut_going s b hs)
      (by change dist ≤ s.outPos + 1; omega) (by change s.outPos + 1 + n ≤ s.outCap.toNat; omega)
    revert h
    generalize matchCopy dist n _ = r
    intro h
    match r, h with
    | .ok a t, h => exact ⟨h.1, hf.trans h.2.1, h.2.2.1, h.2.2.2⟩
    | .error (.raise e) t, h => exact ⟨h.1, hf.trans h.2.1, h.2.2⟩
    | .error (.fault f) _, h => exact h

/-- A back-reference (42_inflate.md R103 to R106). -/
theorem backReference_runs (sym : Nat) : Runs 0 (backReference sym) (fun _ => True) InflateCode := by
  unfold backReference
  refine (matchLength_runs sym).bind (l := 0) fun len _ => ?_
  refine (matchDistance_runs.bind (l := 0) fun dist hd => ?_).conseq (Nat.zero_le _) (fun _ h => h) (fun _ h => h)
  constructor
  intro s hs
  simp only [matchChecks, engine_bind, engine_get, failIf_run]
  by_cases h1 : s.outPos < dist
  · simp only [h1, decide_true, if_true]
    exact ⟨by simp [InflateCode], .refl s, hs⟩
  · by_cases h2 : s.outCap.toNat < s.outPos + len
    · simp only [h1, h2, decide_true, decide_false, if_true, Bool.false_eq_true, if_false]
      exact ⟨by simp [InflateCode], .refl s, hs⟩
    · simp only [h1, h2, decide_false, Bool.false_eq_true, if_false]
      exact matchCopy_ends dist len s hs hd (by omega) (by omega)

theorem bitpos_le (s : State) (hs : Going s) : s.bs.bitpos ≤ 8 * s.inLen.toNat := by
  have := hs.2.2.1
  simp only [Reader.bitpos]; omega

/-- The symbol loop ends before its bound: every turn takes a bit (70_reset_and_hazards.md R133; log 11). -/
theorem symbolLoop_ends (fuel : Nat) (s : State) (hs : Going s) (hf : 8 * s.inLen.toNat < s.bs.bitpos + fuel) :
    Ends 1 (fun _ => True) InflateCode s (symbolLoop fuel s) := by
  induction fuel generalizing s with
  | zero => have := bitpos_le s hs; omega
  | succ fuel ih =>
    rw [symbolLoop]
    refine (inflate_hufDecode .t0).bindEnds (l := 0) hs fun sym t _ ht hst hp => ?_
    have again : ∀ u, Going u → EngineFrame t u → t.bs.bitpos ≤ u.bs.bitpos →
        Ends 0 (fun _ => True) InflateCode u (symbolLoop fuel u) := by
      intro u hu htu hp2
      refine (ih u hu ?_).conseq (Nat.zero_le _) (fun _ h => h) (fun _ h => h)
      rw [htu.inLen, hst.inLen]; omega
    split
    · exact (literal_runs sym).bindEnds (l := 0) ht fun _ u _ hu htu hp2 => again u hu htu hp2
    · split
      · exact ⟨trivial, .refl t, ht, Nat.le_refl _⟩
      · split
        · have hb := backReference_runs sym
          revert hb
          generalize backReference sym = m
          intro hb
          exact hb.bindEnds (l := 0) ht fun _ u _ hu htu hp2 => again u hu htu hp2
        · exact ⟨by simp [InflateCode], .refl t, ht⟩

/-- The symbols of a block. -/
theorem blockSymbols_runs : Runs 1 blockSymbols (fun _ => True) InflateCode :=
  ⟨fun s hs => symbolLoop_ends s.turns s hs (by simp only [State.turns]; omega)⟩

theorem fixLit_le : ∀ l ∈ fixLit, l ≤ 15 := by
  intro l hl
  simp only [fixLit, List.mem_append, List.mem_replicate] at hl
  omega

/-- A fixed-Huffman block (42_inflate.md R96). -/
theorem fixedBlock_runs : Runs 0 fixedBlock (fun _ => True) InflateCode := by
  unfold fixedBlock
  refine (inflate_hufBuild .t0 (by decide) fixLit 15 fixLit_le).bind (l := 0) fun _ _ => ?_
  refine (inflate_hufBuild .t1 (by decide) fixDist 15 (by decide)).bind (l := 0) fun _ _ => ?_
  exact blockSymbols_runs.conseq (Nat.zero_le _) (fun _ h => h) (fun _ h => h)

/-- The pre-code lengths are below 8 (42_inflate.md R98). -/
theorem preLengths_runs (order pl : List Nat) (h : ∀ l ∈ pl, l ≤ 7) :
    Runs 0 (preLengths order pl) (fun pl => ∀ l ∈ pl, l ≤ 7) InflateCode := by
  induction order generalizing pl with
  | nil => exact Runs.pure _ h
  | cons o order ih =>
    refine ((inflate_bsGet 3 (by decide)).bind (l := 0) fun v hv => ih _ ?_).conseq (Nat.zero_le _) (fun _ h => h)
      (fun _ h => h)
    intro l hl
    rcases List.mem_or_eq_of_mem_set hl with hl | rfl
    · exact h l hl
    · omega

theorem repeatLength_runs (total : Nat) (cl : List Nat) (r v : Nat) (hr : 1 ≤ r) (hv : v ≤ 15) (h : ∀ l ∈ cl, l ≤ 15) :
    Runs 0 (repeatLength total cl r v) (fun cl' => (∀ l ∈ cl', l ≤ 15) ∧ cl.length < cl'.length) InflateCode := by
  unfold repeatLength
  refine (Runs.failIf _ _ (by simp [InflateCode])).bind fun _ _ => Runs.pure _ ⟨?_, by simp; omega⟩
  intro l hl
  rcases List.mem_append.mp hl with hl | hl
  · exact h l hl
  · rw [List.eq_of_mem_replicate hl]; exact hv

theorem getLastD_mem (cl : List Nat) (hc : cl ≠ []) : cl.getLastD 0 ∈ cl := by
  rw [List.getLastD_eq_getLast?, List.getLast?_eq_some_getLast hc]
  exact List.getLast_mem hc

/-- A code-length symbol appends at least one length of at most 15 (42_inflate.md R99). -/
theorem codeLengthStep_runs (total : Nat) (cl : List Nat) (h : ∀ l ∈ cl, l ≤ 15) :
    Runs 1 (codeLengthStep total cl) (fun cl' => (∀ l ∈ cl', l ≤ 15) ∧ cl.length < cl'.length) InflateCode := by
  unfold codeLengthStep
  refine (inflate_hufDecode .t2).bind (l := 0) fun sym _ => ?_
  refine Runs.ite (fun h15 => Runs.pure _ ⟨?_, by simp⟩) fun _ => Runs.ite (fun _ => ?_) fun _ => Runs.ite (fun _ => ?_)
    fun _ => ?_
  · intro l hl
    rcases List.mem_append.mp hl with hl | hl
    · exact h l hl
    · rw [List.mem_singleton.mp hl]; exact h15
  · refine (Runs.failIf _ _ (by simp [InflateCode])).bind (l := 0) fun _ hc => ?_
    have hne : cl ≠ [] := by intro hn; simp [hn] at hc
    exact ((inflate_bsGet 2 (by decide)).bind (l := 0) fun x _ => repeatLength_runs total cl _ _ (by omega)
      (h _ (getLastD_mem cl hne)) h).conseq (Nat.zero_le _) (fun _ h => h) (fun _ h => h)
  · exact ((inflate_bsGet 3 (by decide)).bind (l := 0) fun x _ => repeatLength_runs total cl _ _ (by omega)
      (by omega) h).conseq (Nat.zero_le _) (fun _ h => h) (fun _ h => h)
  · exact ((inflate_bsGet 7 (by decide)).bind (l := 0) fun x _ => repeatLength_runs total cl _ _ (by omega)
      (by omega) h).conseq (Nat.zero_le _) (fun _ h => h) (fun _ h => h)

/-- The lengths of a dynamic block, as many as asked for at least (42_inflate.md R99). -/
theorem codeLengths_runs (total fuel : Nat) (cl : List Nat) (h : ∀ l ∈ cl, l ≤ 15) (hf : total ≤ cl.length + fuel) :
    Runs 0 (codeLengths total fuel cl) (fun cl' => (∀ l ∈ cl', l ≤ 15) ∧ total ≤ cl'.length) InflateCode := by
  induction fuel generalizing cl with
  | zero => exact Runs.pure _ ⟨h, by omega⟩
  | succ fuel ih =>
    rw [codeLengths]
    refine Runs.ite (fun hlt => ?_) (fun hge => Runs.pure _ ⟨h, by omega⟩)
    exact ((codeLengthStep_runs total cl h).bind (l := 0) fun cl' hc => ih cl' hc.1 (by omega)).conseq (Nat.zero_le _)
      (fun _ h => h) (fun _ h => h)

/-- The counts of a dynamic block (42_inflate.md R97). -/
theorem dynamicCounts_runs : Runs 14 dynamicCounts (fun _ => True) InflateCode :=
  (inflate_bsGet 5 (by decide)).bind (l := 9) fun _ _ => (inflate_bsGet 5 (by decide)).bind (l := 4) fun _ _ =>
    (inflate_bsGet 4 (by decide)).bind (l := 0) fun _ _ => (Runs.failIf _ _ (by simp [InflateCode])).bind fun _ _ =>
      (Runs.failIf _ _ (by simp [InflateCode])).bind fun _ _ => Runs.pure _ trivial

/-- A dynamic-Huffman block (42_inflate.md R97 to R100). -/
theorem dynamicBlock_runs : Runs 0 dynamicBlock (fun _ => True) InflateCode := by
  unfold dynamicBlock
  refine (dynamicCounts_runs.bind (l := 0) fun c _ => ?_).conseq (Nat.zero_le _) (fun _ h => h) (fun _ h => h)
  obtain ⟨hlit, hdist, hclen⟩ := c
  refine (preLengths_runs _ _ (fun l hl => by rw [List.eq_of_mem_replicate hl]; omega)).bind (l := 0) fun pl hpl => ?_
  refine (inflate_hufBuild .t2 (by decide) pl 7 hpl).bind (l := 0) fun _ _ => ?_
  refine (codeLengths_runs _ _ [] (by simp) (by simp)).bind (l := 0) fun cl hcl => ?_
  refine (Runs.failIf _ _ (by simp [InflateCode])).bind (l := 0) fun _ _ => ?_
  refine (inflate_hufBuild .t0 (by decide) _ 15 (fun l hl => hcl.1 l (List.mem_of_mem_take hl))).bind (l := 0)
    fun _ _ => ?_
  refine (inflate_hufBuild .t1 (by decide) _ 15 (fun l hl => hcl.1 l (List.mem_of_mem_drop hl))).bind (l := 0)
    fun _ _ => ?_
  exact blockSymbols_runs.conseq (Nat.zero_le _) (fun _ h => h) (fun _ h => h)

/-- The data of a block (42_inflate.md R89, R94). -/
theorem blockBody_runs (btype : Word) : Runs 0 (blockBody btype) (fun _ => True) InflateCode := by
  unfold blockBody
  split
  · exact storedBlock_runs
  · exact fixedBlock_runs
  · exact dynamicBlock_runs
  · exact Runs.raise _ (by simp [InflateCode])

/-- The blocks end before the loop's bound: every block header takes bits (70_reset_and_hazards.md R133; log 11). -/
theorem blockLoop_ends (fuel : Nat) (s : State) (hs : Going s) (hf : 8 * s.inLen.toNat < s.bs.bitpos + fuel) :
    Ends 0 (fun _ => True) InflateCode s (blockLoop fuel s) := by
  induction fuel generalizing s with
  | zero => have := bitpos_le s hs; omega
  | succ fuel ih =>
    rw [blockLoop]
    refine (blockHeader_runs.bindEnds (l := 0) hs fun h t _ ht hst hp => ?_).conseq (Nat.zero_le _) (fun _ h => h)
      (fun _ h => h)
    obtain ⟨bfinal, btype⟩ := h
    refine (blockBody_runs btype).bindEnds (l := 0) ht fun _ u _ hu htu hp2 => ?_
    split
    · exact ⟨trivial, .refl u, hu, Nat.le_refl _⟩
    · exact ih u hu (by rw [htu.inLen, hst.inLen]; omega)

/-- The trailer's comparison (42_inflate.md R107). -/
theorem checkTrailer_runs : Runs 0 checkTrailer (fun _ => True) InflateCode := by
  unfold checkTrailer
  refine (getBE32_runs.bind (l := 0) fun stored _ => ?_).conseq (Nat.zero_le _) (fun _ h => h) (fun _ h => h)
  constructor
  intro s hs
  simp only [engine_bind, engine_modify, engine_get, failIf_run]
  have f1 : EngineFrame s { s with adlerStored := stored, status := { s.status with ckpres := true } } :=
    ⟨rfl, rfl, Nat.le_refl _, Nat.le_max_left _ _, fun _ _ => rfl, fun _ _ => rfl,
      fun _ h1 h2 => absurd h1 (Nat.not_le.mpr h2), fun _ _ h => h, id, fun _ _ => rfl⟩
  have f2 : EngineFrame s { s with
      adlerStored := stored, status := { s.status with ckpres := true, ckok := true } } :=
    ⟨rfl, rfl, Nat.le_refl _, Nat.le_max_left _ _, fun _ _ => rfl, fun _ _ => rfl,
      fun _ h1 h2 => absurd h1 (Nat.not_le.mpr h2), fun _ _ h => h, id, fun _ _ => rfl⟩
  by_cases h : (stored != s.adlerCalc) = true
  · simp only [h, if_true]
    exact ⟨by simp [InflateCode], f1, hs⟩
  · simp only [h]
    exact ⟨trivial, f2, hs, Nat.le_refl _⟩

/-- A list of written bytes of OUT can be read (42_inflate.md R107). -/
theorem outList_written (s : State) (n i : Nat) (h : Written s.outRam i n) : ∃ out, outList i n s = .ok out s := by
  induction n generalizing i with
  | zero => exact ⟨[], rfl⟩
  | succ n ih =>
    obtain ⟨b, hb⟩ := Option.isSome_iff_exists.mp (h i (Nat.le_refl _) (by omega))
    obtain ⟨bs, hbs⟩ := ih (i + 1) (fun a h1 h2 => h a (by omega) (by omega))
    exact ⟨b :: bs, by simp [outList, engine_bind, engine_map, readOut_some s i b hb, hbs]⟩

/-- The end of the stream (42_inflate.md R107). -/
theorem endOfStream_runs : Runs 0 endOfStream (fun _ => True) InflateCode := by
  unfold endOfStream
  refine bsAlign_runs.bind (l := 0) fun _ _ => ?_
  refine Runs.get fun s hs => ?_
  obtain ⟨out, ho⟩ := outList_written s s.outPos 0 hs.2.2.2.2
  have hm : Runs 0 (modify fun s => { s with adlerCalc := adler32 1 out } : Engine Unit) (fun _ => True) InflateCode :=
    Runs.modify _ fun s _ => ⟨engineFrame_registers s s.dictid _ s.adlerStored s.status.fdict, rfl, rfl⟩
  rw [engine_bind, ho]
  refine (hm.bind (l := 0) fun _ _ => ?_).ends s hs
  exact Runs.ite (fun _ => checkTrailer_runs) (fun _ => Runs.pure _ trivial)

/-- The start of an INFLATE is inside its stream (42_inflate.md R91). -/
theorem inflateInit_going (s : State) (h : s.inLen.toNat ≤ Config.inMax) : Going (inflateInit s) :=
  ⟨rfl, readerGood_start _, Nat.zero_le _, h, fun a h1 h2 => by
    have h3 : a < 0 + (inflateInit s).outPos := h2
    simp at h3⟩

/-- Everything INFLATE can do after its argument checks and its initialisation (42_inflate.md R89). -/
theorem inflateBody_ends (s : State) (h : s.inLen.toNat ≤ Config.inMax) :
    Ends 0 (fun _ => True) InflateCode (inflateInit s) (inflateBody s) := by
  have e : inflateBody s = (do
      zlibHeader
      let s ← get
      blockLoop s.turns
      endOfStream : Engine Unit) (inflateInit s) := by
    simp only [inflateBody, engine_bind, engine_modify]
  rw [e]
  refine (zlibHeader_runs.bindEnds (l := 0) (inflateInit_going s h) fun _ t _ ht _ _ => ?_).conseq (Nat.zero_le _)
    (fun _ h => h) (fun _ h => h)
  rw [engine_bind, engine_get]
  exact (blockLoop_ends t.turns t ht (by simp only [State.turns]; omega)).bind (l := 0) fun _ u _ hu _ _ =>
    endOfStream_runs.ends u hu

end Sys2Proof.Machine
end

