-- ==== Sys2Proof/Laws/Commands.lean ====
section
/-! SUPPORT. Each command as a whole: one lemma per command that says once everything it can do when it answers a next
state, and what the pieces of the small commands leave alone from any state. -/

namespace Sys2Proof.Machine

open Host (Outcome)

variable {α β : Type}

/-! ## What the reader's pieces leave alone, from any state -/

/-- A piece that moves the reader only, in its bit order; it ends with one of the codes E or with a fault. -/
def ReaderOnly (E : ErrCode → Prop) (s : State) : EStateM.Result Stop State α → Prop
  | .ok _ t => t = { s with bs := t.bs } ∧ t.bs.mode = s.bs.mode
  | .error (.raise e) t => E e ∧ t = { s with bs := t.bs } ∧ t.bs.mode = s.bs.mode
  | .error (.fault _) _ => True

theorem ReaderOnly.bind {E : ErrCode → Prop} {m : Engine α} {f : α → Engine β} {s : State} (hm : ReaderOnly E s (m s))
    (hf : ∀ a t, ReaderOnly E t (f a t)) : ReaderOnly E s ((m >>= f) s) := by
  rw [engine_bind]
  cases hr : m s with
  | ok a t =>
    rw [hr] at hm
    have h := hf a t
    simp only
    cases hr2 : f a t with
    | ok b u =>
      rw [hr2] at h
      exact ⟨by rw [h.1, hm.1], by rw [h.2, hm.2]⟩
    | error e u =>
      rw [hr2] at h
      cases e with
      | raise e => exact ⟨h.1, by rw [h.2.1, hm.1], by rw [h.2.2, hm.2]⟩
      | fault f => trivial
  | error e t =>
    rw [hr] at hm
    cases e with
    | raise e => exact hm
    | fault f => trivial

theorem refillOne_only (E : ErrCode → Prop) (s : State) : ReaderOnly E s (refillOne s) := by
  unfold refillOne
  rw [engine_bind, engine_get]
  cases hm : s.bs.mode with
  | deflate =>
    simp only [hm, engine_bind, readIn]
    cases s.inRam.read s.bs.offset with
    | none => trivial
    | some b => exact ⟨rfl, rfl⟩
  | lzx =>
    simp only [hm, engine_bind, readIn]
    cases s.inRam.read s.bs.offset with
    | none => trivial
    | some lo =>
      simp only
      cases s.inRam.read (s.bs.offset + 1) with
      | none => trivial
      | some hi => exact ⟨rfl, rfl⟩

theorem refill_only (E : ErrCode → Prop) (n fuel : Nat) (s : State) : ReaderOnly E s (refill n fuel s) := by
  induction fuel generalizing s with
  | zero => exact ⟨rfl, rfl⟩
  | succ fuel ih =>
    simp only [refill, engine_bind, engine_get]
    split
    · exact (refillOne_only E s).bind fun _ t => ih t
    · exact ⟨rfl, rfl⟩

/-- BsGet from any state: it moves the reader only, and not at all when it fails (40_bitstream.md R68). -/
theorem bsGet_only (n : Nat) (s : State) : ReaderOnly (fun e => e = .fmtInputExhausted) s (bsGet n s) := by
  unfold bsGet
  split
  · exact ⟨rfl, rfl, rfl⟩
  · split
    · exact ⟨rfl, rfl⟩
    · exact (refill_only _ n n s).bind fun _ t => ⟨rfl, rfl⟩

/-- A BsGet that fails with a code changes nothing (40_bitstream.md R68). -/
theorem bsGet_raise (n : Nat) (s t : State) (e : ErrCode) (h : bsGet n s = .error (.raise e) t) :
    e = .fmtInputExhausted ∧ t = s := by
  unfold bsGet at h
  split at h
  · simp only [raise_run, EStateM.Result.error.injEq, Stop.raise.injEq] at h
    exact ⟨h.1.symm, h.2.symm⟩
  · split at h
    · simp at h
    · have hr := refill_only (fun _ => False) n n s
      simp only [takeBits, engine_bind] at h
      cases hq : refill n n s with
      | ok a u => rw [hq] at h; simp [consume] at h
      | error x u =>
        rw [hq] at h hr
        cases x with
        | raise c => exact hr.1.elim
        | fault f => simp at h

theorem hufWalk_only (book : List (Nat × Nat)) (fuel c l : Nat) (s : State) :
    ReaderOnly (fun e => e = .fmtInputExhausted ∨ e = .fmtInvalidCode) s (hufWalk book fuel c l s) := by
  induction fuel generalizing c l s with
  | zero => exact ⟨Or.inr rfl, rfl, rfl⟩
  | succ fuel ih =>
    have hb : ReaderOnly (fun e => e = .fmtInputExhausted ∨ e = .fmtInvalidCode) s (bsGet 1 s) := by
      have h := bsGet_only 1 s
      match hr : bsGet 1 s, h with
      | .ok a t, h => exact h
      | .error (.raise e) t, h => exact ⟨Or.inl h.1, h.2⟩
      | .error (.fault f) t, h => trivial
    rw [hufWalk]
    refine hb.bind fun b t => ?_
    cases symbolOf book (l + 1) (2 * c + b.toNat) with
    | some sym => exact ⟨rfl, rfl⟩
    | none => exact ih _ _ t

/-- HufDecode from any state moves the reader only (41_huffman.md R85). -/
theorem hufDecode_only (k : Slot) (s : State) :
    ReaderOnly (fun e => e = .fmtInputExhausted ∨ e = .fmtInvalidCode) s (hufDecode k s) := hufWalk_only _ _ _ _ s

/-! ## The commands -/

/-- Everything BS_GET and BS_SKIP can do: k is what they make of the value read (40_bitstream.md R75, R76). -/
theorem getBits_next (n : Nat) (k : Word → Word) (s t : State)
    (h : runCommand (do let v ← getBits n; pure (k v)) s = .next t) :
    (n ≤ 32 ∧ s.inLen.toNat ≤ Config.inMax ∧ ∃ v u, bsGet n s = .ok v u ∧ t = completed .ok (k v) u) ∨
    (32 < n ∧ t = completed .argNRange 0 s) ∨
    (n ≤ 32 ∧ Config.inMax < s.inLen.toNat ∧ t = completed .argLenRange 0 s) ∨
    (n ≤ 32 ∧ s.inLen.toNat ≤ Config.inMax ∧ s.bs.avail s.inLen.toNat < n ∧ t = completed .fmtInputExhausted 0 s) := by
  have e32 : Config.nmaxGet = 32 := rfl
  by_cases c1 : Config.nmaxGet < n
  · rw [runCommand_raise _ _ s .argNRange (by simp [engine_bind, getBits, c1])] at h
    exact Or.inr (Or.inl ⟨by omega, by simpa using h.symm⟩)
  · by_cases c2 : Config.inMax < s.inLen.toNat
    · rw [runCommand_raise _ _ s .argLenRange (by simp [engine_bind, getBits, checkInLen, c1, c2])] at h
      exact Or.inr (Or.inr (Or.inl ⟨by omega, c2, by simpa using h.symm⟩))
    · have hg := getBits_run n s (by omega) (by omega)
      cases hr : bsGet n s with
      | ok v u =>
        rw [runCommand_ok _ _ u (k v) (by simp [engine_bind, hg, hr])] at h
        exact Or.inl ⟨by omega, by omega, v, u, rfl, by simpa using h.symm⟩
      | error x u =>
        cases x with
        | raise e =>
          obtain ⟨rfl, rfl⟩ := bsGet_raise n s u e hr
          rw [runCommand_raise _ _ u .fmtInputExhausted (by simp [engine_bind, hg, hr])] at h
          refine Or.inr (Or.inr (Or.inr ⟨by omega, by omega, ?_, by simpa using h.symm⟩))
          by_contra hn
          simp only [bsGet, if_neg hn] at hr
          split at hr
          · simp at hr
          · have ho := refill_only (fun _ => False) n n u
            simp only [takeBits, engine_bind] at hr
            cases hq : refill n n u with
            | ok a w => rw [hq] at hr; simp [consume] at hr
            | error x w =>
              rw [hq] at hr ho
              cases x with
              | raise c => exact ho.1.elim
              | fault f => simp at hr
        | fault f =>
          rw [runCommand_fault _ _ u f (by simp [engine_bind, hg, hr])] at h
          simp at h

/-- Reading a list of RAM elements ends with the list or with a fault. -/
theorem clenList_cases (n i : Nat) (s : State) :
    (∃ lens, clenList i n s = .ok lens s ∧ lens.length = n) ∨ ∃ f, clenList i n s = .error (.fault f) s := by
  induction n generalizing i with
  | zero => exact Or.inl ⟨[], rfl, rfl⟩
  | succ n ih =>
    simp only [clenList, engine_bind, readClen]
    cases s.clen.read i with
    | none => exact Or.inr ⟨_, rfl⟩
    | some l =>
      rcases ih (i + 1) with ⟨lens, h, hl⟩ | ⟨f, h⟩
      · exact Or.inl ⟨l.toNat :: lens, by simp [h], by simp [hl]⟩
      · exact Or.inr ⟨f, by simp [h]⟩

theorem inList_cases (n i : Nat) (s : State) :
    (∃ bytes, inList i n s = .ok bytes s ∧ bytes.length = n ∧ Holds s.inRam i bytes) ∨
      ∃ f, inList i n s = .error (.fault f) s := by
  induction n generalizing i with
  | zero => exact Or.inl ⟨[], rfl, rfl, by intro j hj; simp at hj⟩
  | succ n ih =>
    simp only [inList, engine_bind, readIn]
    cases hb : s.inRam.read i with
    | none => exact Or.inr ⟨_, rfl⟩
    | some b =>
      rcases ih (i + 1) with ⟨bytes, h, hl, hh⟩ | ⟨f, h⟩
      · exact Or.inl ⟨b :: bytes, by simp [h], by simp [hl], (holds_cons _ _ _ _).mpr ⟨hb, hh⟩⟩
      · exact Or.inr ⟨f, by simp [h]⟩

/-- Everything TREE_BUILD can do (41_huffman.md R84). -/
theorem treeBuild_next (k : Slot) (count maxlen : Nat) (s t : State) (h : exec (.treeBuild k count maxlen) s = .next t) :
    (treeParamBad count maxlen = true ∧ t = completed .argTreeParam 0 s) ∨
    (treeParamBad count maxlen = false ∧ ∃ lens, clenList 0 count s = .ok lens s ∧ lens.length = count ∧
      ((lenTooLong lens maxlen = true ∧
          t = completed .fmtLenTooLong 0 { s with trees := s.trees.set k .cleared }) ∨
        (lenTooLong lens maxlen = false ∧ oversubscribed lens maxlen = true ∧
          t = completed .fmtOversubscribed 0 { s with trees := s.trees.set k .cleared }) ∨
        (ValidLengths lens maxlen ∧ t = completed .ok 0 { s with trees := s.trees.set k (.built lens maxlen) }))) := by
  change execTreeBuild k count maxlen s = _ at h
  unfold execTreeBuild at h
  by_cases hb : treeParamBad count maxlen = true
  · rw [runCommand_raise _ _ s .argTreeParam (by simp [engine_bind, hb])] at h
    exact Or.inl ⟨hb, by simpa using h.symm⟩
  · refine Or.inr ⟨by simpa using hb, ?_⟩
    rcases clenList_cases count 0 s with ⟨lens, hr, hl⟩ | ⟨f, hr⟩
    · refine ⟨lens, hr, hl, ?_⟩
      by_cases c1 : lenTooLong lens maxlen = true
      · rw [runCommand_raise _ _ { s with trees := s.trees.set k .cleared } .fmtLenTooLong
          (by simp [engine_bind, engine_map, hb, hr, hufBuild_run, c1])] at h
        exact Or.inl ⟨c1, by simpa using h.symm⟩
      · have c1' : lenTooLong lens maxlen = false := by simpa using c1
        by_cases c2 : oversubscribed lens maxlen = true
        · rw [runCommand_raise _ _ { s with trees := s.trees.set k .cleared } .fmtOversubscribed
            (by simp [engine_bind, engine_map, hb, hr, hufBuild_run, c1, c2])] at h
          exact Or.inr (Or.inl ⟨c1', c2, by simpa using h.symm⟩)
        · rw [runCommand_ok _ _ { s with trees := s.trees.set k (.built lens maxlen) } 0
            (by simp [engine_bind, engine_map, hb, hr, hufBuild_run, c1, c2])] at h
          exact Or.inr (Or.inr ⟨⟨c1', by simpa using c2⟩, by simpa using h.symm⟩)
    · rw [runCommand_fault _ _ s f (by simp [engine_bind, hb, hr])] at h
      simp at h

/-- Everything TREE_DECODE can do (41_huffman.md R87). -/
theorem treeDecode_next (k : Slot) (s t : State) (h : exec (.treeDecode k) s = .next t) :
    ((s.trees.get k).valid = false ∧ t = completed .argTreeInvalid 0 s) ∨
    ((s.trees.get k).valid = true ∧ Config.inMax < s.inLen.toNat ∧ t = completed .argLenRange 0 s) ∨
    ((s.trees.get k).valid = true ∧ s.inLen.toNat ≤ Config.inMax ∧
      ((∃ sym u, hufDecode k s = .ok sym u ∧ t = completed .ok (BitVec.ofNat 32 sym) u) ∨
        (∃ e u, hufDecode k s = .error (.raise e) u ∧ (e = .fmtInputExhausted ∨ e = .fmtInvalidCode) ∧
          t = completed e 0 u))) := by
  change execTreeDecode k s = _ at h
  unfold execTreeDecode at h
  by_cases hv : (s.trees.get k).valid = true
  · by_cases c2 : Config.inMax < s.inLen.toNat
    · rw [runCommand_raise _ _ s .argLenRange (by simp [engine_bind, checkValid, checkInLen, hv, c2])] at h
      exact Or.inr (Or.inl ⟨hv, c2, by simpa using h.symm⟩)
    · refine Or.inr (Or.inr ⟨hv, by omega, ?_⟩)
      have ho := hufDecode_only k s
      cases hr : hufDecode k s with
      | ok sym u =>
        rw [runCommand_ok _ _ u (BitVec.ofNat 32 sym)
          (by simp [engine_bind, engine_map, checkValid, checkInLen, hv, c2, hr])] at h
        exact Or.inl ⟨sym, u, rfl, by simpa using h.symm⟩
      | error x u =>
        rw [hr] at ho
        cases x with
        | raise e =>
          rw [runCommand_raise _ _ u e (by simp [engine_bind, engine_map, checkValid, checkInLen, hv, c2, hr])] at h
          exact Or.inr ⟨e, u, rfl, ho.1, by simpa using h.symm⟩
        | fault f =>
          rw [runCommand_fault _ _ u f (by simp [engine_bind, engine_map, checkValid, checkInLen, hv, c2, hr])] at h
          simp at h
  · rw [runCommand_raise _ _ s .argTreeInvalid (by simp [engine_bind, checkValid, hv])] at h
    exact Or.inl ⟨by simpa using hv, by simpa using h.symm⟩

/-- Everything ADLER32 can do (43_checksum_and_control.md R112). -/
theorem adler32_next (s t : State) (h : exec .adler32 s = .next t) :
    (Config.inMax < s.inLen.toNat ∧ t = completed .argLenRange 0 s) ∨
    (s.inLen.toNat ≤ Config.inMax ∧ ∃ bytes, bytes.length = s.inLen.toNat ∧ Holds s.inRam 0 bytes ∧
      t = completed .ok (adler32 s.arg bytes) { s with adlerCalc := adler32 s.arg bytes }) := by
  change execAdler32 s = _ at h
  unfold execAdler32 at h
  by_cases c2 : Config.inMax < s.inLen.toNat
  · rw [runCommand_raise _ _ s .argLenRange (by simp [engine_bind, checkInLen, c2])] at h
    exact Or.inl ⟨c2, by simpa using h.symm⟩
  · rcases inList_cases s.inLen.toNat 0 s with ⟨bytes, hr, hl, hh⟩ | ⟨f, hr⟩
    · rw [runCommand_ok _ _ { s with adlerCalc := adler32 s.arg bytes } (adler32 s.arg bytes)
        (by simp [engine_bind, engine_map, checkInLen, c2, hr])] at h
      exact Or.inr ⟨by omega, bytes, hl, hh, by simpa using h.symm⟩
    · rw [runCommand_fault _ _ s f (by simp [engine_bind, checkInLen, c2, hr])] at h
      simp at h

/-- Everything INFLATE can do (42_inflate.md R89, R90, R108). -/
theorem inflate_next (s t : State) (h : exec .inflate s = .next t) :
    (inflateArgsBad s = true ∧ t = completed .argLenRange 0 s) ∨
    (InflateArgsGood s ∧ ∃ e u, t = inflateDone e u ∧ EngineFrame (inflateInit s) u ∧ Going u ∧
      ((e = .ok ∧ inflateBody s = .ok () u) ∨ (InflateCode e ∧ inflateBody s = .error (.raise e) u))) := by
  change execInflate s = _ at h
  unfold execInflate at h
  split at h
  · next hb => exact Or.inl ⟨hb, by simpa [complete_eq_completed] using h.symm⟩
  · next hb =>
    have hb2 : InflateArgsGood s := by
      simp only [inflateArgsBad, Bool.or_eq_true, decide_eq_true_eq, not_or, not_lt] at hb
      exact ⟨hb.1.1, hb.1.2, hb.2⟩
    have he := inflateBody_ends s hb2.2.1
    refine Or.inr ⟨hb2, ?_⟩
    cases hr : inflateBody s with
    | ok a u =>
      rw [hr] at he h
      exact ⟨.ok, u, by simpa using h.symm, he.2.1, he.2.2.1, Or.inl ⟨rfl, rfl⟩⟩
    | error x u =>
      rw [hr] at he h
      cases x with
      | raise e => exact ⟨e, u, by simpa using h.symm, he.2.1, he.2.2, Or.inr ⟨he.1, rfl⟩⟩
      | fault f => simp at h

end Sys2Proof.Machine
end

