-- ==== Sys2Proof/Laws/Host.lean ====
section
/-! SUPPORT. The host interface and the step: one lemma per operation that says once everything it can do. -/

namespace Sys2Proof.Machine

open Host (Outcome)

/-- A write of a window keeps the RAM good and touches only the bytes of the access inside the RAM (20_memory.md R44, R47). -/
theorem writeWindow_spec (size : Nat) (m : Memory Byte) (i : Nat) (v : Word) (n : Nat) :
    (RamGood size m → RamGood size (writeWindow size m i v n)) ∧
      (∀ a, (writeWindow size m i v n).read a =
        if i ≤ a ∧ a < i + n ∧ a < size then some ((v >>> (8 * (a - i))).setWidth 8) else m.read a) := by
  induction n generalizing m i v with
  | zero => exact ⟨id, fun a => by rw [if_neg (by omega)]; rfl⟩
  | succ n ih =>
    simp only [writeWindow]
    obtain ⟨h1, h2⟩ := ih (if size ≤ i then m else m.write i (v.setWidth 8)) (i + 1) (v >>> 8)
    constructor
    · intro hm
      apply h1
      split
      · exact hm
      · exact ramGood_write size m i _ hm (by omega)
    · intro a
      rw [h2]
      by_cases h3 : i + 1 ≤ a ∧ a < i + 1 + n ∧ a < size
      · rw [if_pos h3, if_pos (by omega)]
        have e : 8 * (a - i) = 8 + 8 * (a - (i + 1)) := by omega
        rw [e, BitVec.shiftRight_add]
      · rw [if_neg h3]
        by_cases hs : size ≤ i
        · rw [if_pos hs, if_neg (by omega)]
        · rw [if_neg hs, memory_read_write]
          by_cases h4 : a = i
          · subst h4
            rw [if_pos rfl, if_pos (by omega)]
            simp
          · rw [if_neg h4, if_neg (by omega)]

/-- Everything a host read can do (20_memory.md R46, R48, R52). -/
theorem hostRead_next (w : Width) (addr : BitVec 24) (s t : State) (h : hostRead w addr s = .next t) :
    (∃ v, t = { s with rdata := v }) ∨ (s.busy = true ∧ ∃ v, t = { s with rdata := v, free := s.free + 1 }) := by
  unfold hostRead at h
  split at h
  · simp at h
  · next x _ =>
    split at h
    · next hb =>
      simp only [Bool.and_eq_true] at hb
      exact Or.inr ⟨hb.1, _, by simpa using h.symm⟩
    · left
      unfold readTarget at h
      split at h
      · exact ⟨_, by simpa using h.symm⟩
      · split at h
        · exact ⟨_, by simpa using h.symm⟩
        · simp at h
      · split at h
        · exact ⟨_, by simpa using h.symm⟩
        · simp at h
      · split at h
        · exact ⟨_, by simpa using h.symm⟩
        · simp at h
      · exact ⟨_, by simpa using h.symm⟩

/-- A register access is a 32-bit one of the address it names (20_memory.md R42, R43). -/
theorem target_reg (w : Width) (addr : BitVec 24) (o : Nat) (h : target w addr = some (.reg o)) :
    w = .w32 ∧ o = addr.toNat := by
  unfold target at h
  simp only at h
  split at h
  · split at h
    · next h2 => simp only [Option.some.injEq, Target.reg.injEq] at h; exact ⟨h2.1, h.symm⟩
    · simp at h
  · repeat' split at h
    all_goals simp at h

/-- A CLEN entry exists (20_memory.md R42, R45). -/
theorem target_clen (w : Width) (addr : BitVec 24) (i : Nat) (h : target w addr = some (.clen i)) : i < Config.treeCap := by
  unfold target at h
  simp only at h
  split at h
  · split at h <;> simp at h
  · split at h
    · split at h
      · simp only [Option.some.injEq, Target.clen.injEq] at h
        simp only [Config.treeCap]
        omega
      · simp at h
    · repeat' split at h
      all_goals simp at h

/-- The target of an access by its address as a number (20_memory.md R42). -/
theorem target_eq (w : Width) (addr : BitVec 24) (a : Nat) (h : addr.toNat = a) : target w addr =
    if a < 0x001000 then if w = .w32 ∧ a % 4 = 0 then some (.reg a) else none
    else if a < 0x001800 then if w = .w32 ∧ a % 4 = 0 then some (.clen ((a - 0x001000) / 4)) else none
    else if a < 0x400000 then if a + w.bytes ≤ 0x400000 then some .reserved else none
    else if a < 0x800000 then if a % w.bytes = 0 then some (.inWindow (a - 0x400000)) else none
    else if a < 0xC00000 then if a % w.bytes = 0 then some (.outWindow (a - 0x800000)) else none
    else if a + w.bytes ≤ 0x1000000 then some .reserved else none := by
  subst h; rfl

/-- An aligned 32-bit access of the register file reaches the register at its address. -/
theorem target_register (addr : BitVec 24) (h : addr.toNat < 0x001000) (ha : addr.toNat % 4 = 0) :
    target .w32 addr = some (.reg addr.toNat) := by
  rw [target_eq _ _ _ rfl, if_pos h, if_pos ⟨rfl, ha⟩]

/-- CLEN entry i lies at 0x001000 + 4*i (20_memory.md R42). -/
theorem target_clenEntry (i : Nat) (h : i < 512) : target .w32 (BitVec.ofNat 24 (0x001000 + 4 * i)) = some (.clen i) := by
  have e : (BitVec.ofNat 24 (0x001000 + 4 * i)).toNat = 0x001000 + 4 * i := Nat.mod_eq_of_lt (by omega)
  have e2 : (0x001000 + 4 * i - 0x001000) / 4 = i := by omega
  rw [target_eq _ _ _ e, if_neg (by omega), if_pos (by omega), if_pos ⟨rfl, by omega⟩, e2]

/-- Byte i of IN lies at 0x400000 + i (20_memory.md R42). -/
theorem target_inByte (w : Width) (i : Nat) (h : i < 0x400000) (ha : i % w.bytes = 0) :
    target w (BitVec.ofNat 24 (0x400000 + i)) = some (.inWindow i) := by
  have e : (BitVec.ofNat 24 (0x400000 + i)).toNat = 0x400000 + i := Nat.mod_eq_of_lt (by omega)
  have e2 : 0x400000 + i - 0x400000 = i := by omega
  have e3 : (0x400000 + i) % w.bytes = 0 := by cases w <;> simp only [Width.bytes] at ha ⊢ <;> omega
  rw [target_eq _ _ _ e, if_neg (by omega), if_neg (by omega), if_neg (by omega), if_pos (by omega), if_pos e3, e2]

/-- Byte i of OUT lies at 0x800000 + i (20_memory.md R42). -/
theorem target_outByte (w : Width) (i : Nat) (h : i < 0x400000) (ha : i % w.bytes = 0) :
    target w (BitVec.ofNat 24 (0x800000 + i)) = some (.outWindow i) := by
  have e : (BitVec.ofNat 24 (0x800000 + i)).toNat = 0x800000 + i := Nat.mod_eq_of_lt (by omega)
  have e2 : 0x800000 + i - 0x800000 = i := by omega
  have e3 : (0x800000 + i) % w.bytes = 0 := by cases w <;> simp only [Width.bytes] at ha ⊢ <;> omega
  rw [target_eq _ _ _ e, if_neg (by omega), if_neg (by omega), if_neg (by omega), if_neg (by omega), if_pos (by omega),
    if_pos e3, e2]

/-- A window read of bytes that hold v, lowest byte first, returns v (20_memory.md R44). -/
theorem readWindow_ok (size : Nat) (m : Memory Byte) (v : Word) (i n : Nat) (h1 : i + n ≤ size) (h4 : n ≤ 4)
    (h2 : ∀ j, j < n → m.read (i + j) = some ((v >>> (8 * j)).setWidth 8)) :
    readWindow size m i n = .ok (BitVec.ofNat 32 (v.toNat % 2 ^ (8 * n))) := by
  induction n generalizing v i with
  | zero => simp [readWindow, Nat.mod_one]
  | succ n ih =>
    have h3 := h2 0 (Nat.zero_lt_succ _)
    have ih' := ih (v >>> 8) (i + 1) (by omega) (by omega) (by
      intro j hj
      have h5 := h2 (j + 1) (by omega)
      have e : 8 * (j + 1) = 8 + 8 * j := by omega
      rw [e, BitVec.shiftRight_add] at h5
      rw [← h5]
      congr 1
      omega)
    simp only [Nat.mul_zero, Nat.add_zero] at h3
    simp only [readWindow, ih', if_neg (show ¬ size ≤ i by omega), h3]
    congr 1
    apply BitVec.eq_of_getLsbD_eq
    intro j hj
    simp only [BitVec.getLsbD_or, BitVec.getLsbD_shiftLeft, BitVec.getLsbD_setWidth, BitVec.getLsbD_ofNat,
      Nat.testBit_mod_two_pow, BitVec.testBit_toNat, BitVec.getLsbD_ushiftRight, Nat.zero_add]
    by_cases hj8 : j < 8
    · have e1 : j < 8 * (n + 1) := by omega
      simp [hj8, e1, hj]
    · have e1 : 8 + (j - 8) = j := by omega
      have e2 : (j - 8 < 8 * n) ↔ (j < 8 * (n + 1)) := by omega
      have e3 : j - 8 < 32 := by omega
      simp [hj8, e1, e2, e3, hj]

/-- Everything a host write can do (20_memory.md R48, R52; 10_state.md R14 to R18). -/
theorem hostWrite_next (w : Width) (addr : BitVec 24) (v : Word) (s t : State) (h : hostWrite w addr v s = .next t) :
    t = s ∨ t = { s with ctrl := Ctrl.ofWord v } ∨
    (s.busy = true ∧ t = { s with status := { s.status with ovr := true } }) ∨
    (s.busy = false ∧ t = accept v s) ∨
    (w = .w32 ∧ addr = 0x00000C ∧ t = { s with status := s.status.writeOneToClear v }) ∨
    (s.busy = false ∧ ∃ arg inLen outCap, t = { s with arg := arg, inLen := inLen, outCap := outCap }) ∨
    (s.busy = false ∧ ∃ i, i < Config.treeCap ∧ t = { s with clen := s.clen.write i (v.setWidth 5) }) ∨
    (s.busy = false ∧ ∃ i, t = { s with inRam := writeWindow Config.inMax s.inRam i v w.bytes }) ∨
    (s.busy = false ∧ ∃ i, t = { s with outRam := writeWindow Config.outMax s.outRam i v w.bytes }) := by
  unfold hostWrite at h
  split at h
  · simp at h
  · next o ho =>
    obtain ⟨rfl, rfl⟩ := target_reg _ _ _ ho
    unfold writeReg at h
    split at h
    · exact Or.inr (Or.inl (by simpa using h.symm))
    · split at h
      · next hb => exact Or.inr (Or.inr (Or.inl ⟨hb, by simpa using h.symm⟩))
      · next hb =>
        have hb' : s.busy = false := by simpa using hb
        exact Or.inr (Or.inr (Or.inr (Or.inl ⟨hb', by simpa using h.symm⟩)))
    · next e =>
      refine Or.inr (Or.inr (Or.inr (Or.inr (Or.inl ⟨rfl, ?_, by simpa using h.symm⟩))))
      exact BitVec.eq_of_toNat_eq e
    · split at h
      · simp at h
      · next hb =>
        refine Or.inr (Or.inr (Or.inr (Or.inr (Or.inr (Or.inl ⟨by simpa using hb, v, s.inLen, s.outCap, ?_⟩)))))
        simpa using h.symm
    · split at h
      · simp at h
      · next hb =>
        refine Or.inr (Or.inr (Or.inr (Or.inr (Or.inr (Or.inl ⟨by simpa using hb, s.arg, v, s.outCap, ?_⟩)))))
        simpa using h.symm
    · split at h
      · simp at h
      · next hb =>
        refine Or.inr (Or.inr (Or.inr (Or.inr (Or.inr (Or.inl ⟨by simpa using hb, s.arg, s.inLen, v, ?_⟩)))))
        simpa using h.symm
    · exact Or.inl (by simpa using h.symm)
  · next i hi =>
    split at h
    · simp at h
    · next hb =>
      refine Or.inr (Or.inr (Or.inr (Or.inr (Or.inr (Or.inr (Or.inl ⟨by simpa using hb, i, target_clen _ _ _ hi, ?_⟩))))))
      simpa using h.symm
  · next i _ =>
    split at h
    · simp at h
    · next hb =>
      refine Or.inr (Or.inr (Or.inr (Or.inr (Or.inr (Or.inr (Or.inr (Or.inl ⟨by simpa using hb, i, ?_⟩)))))))
      simpa using h.symm
  · next i _ =>
    split at h
    · simp at h
    · next hb =>
      refine Or.inr (Or.inr (Or.inr (Or.inr (Or.inr (Or.inr (Or.inr (Or.inr ⟨by simpa using hb, i, ?_⟩)))))))
      simpa using h.symm
  · exact Or.inl (by simpa using h.symm)

/-- With the engine to step, the step is the engine's (70_reset_and_hazards.md R133). -/
theorem step_engine (s : State) (w : Word) (h1 : s.cmd = some w) (h2 : EnginesTurn s) : step s = engineStep w s := by
  unfold step
  rw [h1]
  cases hh : s.host with
  | nil => rfl
  | cons a rest =>
    rcases h2 with h2 | h2
    · simp only [h2]
    · simp [hh] at h2

/-- Everything a step can be (70_reset_and_hazards.md R133; 20_memory.md R51; 60_exceptions.md R126). -/
theorem step_next (s t : State) (h : step s = .next t) :
    (s.cmd = none ∧ s.host = [] ∧ t = s) ∨
    (∃ w, s.cmd = some w ∧ EnginesTurn s ∧ engineStep w s = .next t) ∨
    (∃ a rest n, s.host = a :: rest ∧ (s.cmd = none ∧ n = s.wait ∨ s.cmd.isSome ∧ n + 1 = s.wait) ∧
      hostAction a { s with host := rest, wait := n } = .next t) := by
  unfold step at h
  split at h
  · next h1 h2 => exact Or.inl ⟨h1, h2, by simpa using h.symm⟩
  · next a rest h1 h2 => exact Or.inr (Or.inr ⟨a, rest, s.wait, h2, Or.inl ⟨h1, rfl⟩, h⟩)
  · next w h1 h2 => exact Or.inr (Or.inl ⟨w, h1, Or.inr h2, h⟩)
  · next w a rest h1 h2 =>
    split at h
    · next h3 => exact Or.inr (Or.inl ⟨w, h1, Or.inl h3, h⟩)
    · next n h3 => exact Or.inr (Or.inr ⟨a, rest, n, h2, Or.inr ⟨by rw [h1]; rfl, h3.symm⟩, h⟩)

/-- Everything the engine's step can be (30_encoding.md R62). -/
theorem engineStep_next (w : Word) (s t : State) (h : engineStep w s = .next t) :
    (∃ i, decode w = .ok i ∧ exec i s = .next t) ∨
    ((∃ x, decode w = .error x) ∧ t = completed .argIllegalCmd 0 s) := by
  unfold engineStep at h
  split at h
  · next i hi => exact Or.inl ⟨i, hi, h⟩
  · next x hx => exact Or.inr ⟨⟨x, hx⟩, by simpa [illegalCommand, complete_eq_completed] using h.symm⟩

end Sys2Proof.Machine
end

