-- ==== Sys2Proof/Laws/PerInstr.lean ====
section
/-! SUPPORT. Statements made per command: the word of a well-formed command selects its own row of the opcode map
(30_encoding.md R58). -/

namespace Sys2Proof.Laws

/-- The word of i selects the row of i's OP (30_encoding.md R58). -/
def SelectsItsRow.Statement (i : Instr) : Prop :=
  WellFormed i = true → ∃ r ∈ opcodeMap, r.op = opOf i ∧ r.selects (encode i) = true

/-- A number below 2^w has no bit from w on. -/
theorem testBit_above (n w j : Nat) (h : n < 2 ^ w) (hj : w ≤ j) : n.testBit j = false :=
  Nat.testBit_lt_two_pow (Nat.lt_of_lt_of_le h (Nat.pow_le_pow_right (by omega) hj))

theorem SelectsItsRow.nop : SelectsItsRow.Statement .nop := fun _ => ⟨opcodeMap[0], by decide, by decide, by decide⟩
theorem SelectsItsRow.bsInit : SelectsItsRow.Statement .bsInit :=
  fun _ => ⟨opcodeMap[1], by decide, by decide, by decide⟩
theorem SelectsItsRow.bsGet (n : Nat) : SelectsItsRow.Statement (.bsGet n) := by
  intro h
  have hn : n < 64 := by simpa [WellFormed, fitsN] using h
  refine ⟨opcodeMap[2], by decide, rfl, ?_⟩
  interval_cases n <;> decide
theorem SelectsItsRow.bsSkip (n : Nat) : SelectsItsRow.Statement (.bsSkip n) := by
  intro h
  have hn : n < 64 := by simpa [WellFormed, fitsN] using h
  refine ⟨opcodeMap[3], by decide, rfl, ?_⟩
  interval_cases n <;> decide
theorem SelectsItsRow.bsAlign : SelectsItsRow.Statement .bsAlign :=
  fun _ => ⟨opcodeMap[4], by decide, by decide, by decide⟩
theorem SelectsItsRow.treeBuild (slot : Slot) (count maxlen : Nat) :
    SelectsItsRow.Statement (.treeBuild slot count maxlen) := by
  intro h
  simp only [WellFormed, fitsCount, fitsMaxlen, Bool.and_eq_true, decide_eq_true_eq] at h
  refine ⟨opcodeMap[5], by decide, rfl, ?_⟩
  have hm : (BitVec.ofNat 32 maxlen)[5] = false := by
    rw [← BitVec.getLsbD_eq_getElem, BitVec.getLsbD_ofNat, testBit_above maxlen 5 5 h.2 (Nat.le_refl 5)]
    rfl
  simp only [OpcodeRow.selects, beq_iff_eq]
  apply BitVec.eq_of_getLsbD_eq
  intro i hi
  interval_cases i <;> cases slot <;>
    simp [encode, packWord, slotField, opcodeMap, hm]
theorem SelectsItsRow.treeDecode (slot : Slot) : SelectsItsRow.Statement (.treeDecode slot) :=
  fun _ => ⟨opcodeMap[6], by decide, rfl, by cases slot <;> decide⟩
theorem SelectsItsRow.inflate : SelectsItsRow.Statement .inflate :=
  fun _ => ⟨opcodeMap[7], by decide, by decide, by decide⟩
theorem SelectsItsRow.adler32 : SelectsItsRow.Statement .adler32 :=
  fun _ => ⟨opcodeMap[8], by decide, by decide, by decide⟩

end Sys2Proof.Laws
end

