-- ==== Sys2Proof/Tests/Slice0.lean ====
section
/-! SUPPORT. Tests of the model. Expected values are those of 95_test_vectors.md (the vector is named in each comment) or of
the rule named, never the model's own. After them, one witness for the hypotheses of each statement. -/

set_option maxRecDepth 100000

namespace Sys2Proof.Tests

open Sys2Proof Sys2Proof.Machine

/-! ## Helpers -/

/-- A RAM that holds the list from index 0 on. -/
def ram {α : Type} (l : List α) : Memory α := (List.range l.length).zip l

/-- The reset state with IN and IN_LEN set and a reader at work. -/
def onInput (r : Reader) (l : List Byte) : State :=
  { State.reset with bs := r, inRam := ram l, inLen := BitVec.ofNat 32 l.length }

/-- The reset state ready for INFLATE. -/
def onStream (l : List Byte) (cap : Word) : State := { onInput ⟨.deflate, 0, 0, 0⟩ l with outCap := cap }

/-- The reset state with CLEN set. -/
def onLengths (l : List (BitVec 5)) : State := { State.reset with clen := ram l }

/-- The reset state with the word w accepted, `n` host accesses to go before the engine's step, and a host program. -/
def running (w : Word) (n : Nat) (program : List HostAction) : State :=
  { State.reset with cmd := some w, wait := n, host := program }

/-- ERRCODE, RESULT, BS_OFFSET and BS_BITCNT after a step. -/
def brief : Host.Outcome State Fault Refusal → Option (ErrCode × Word × Nat × Nat)
  | .next t => some (t.status.errcode, t.result, t.bs.offset, t.bs.bitcnt)
  | _ => none

/-- One field of the next state. -/
def after {α : Type} (f : State → α) : Host.Outcome State Fault Refusal → Option α
  | .next t => some (f t)
  | _ => none

/-- What a piece of a command answers and leaves; none where it stops. -/
def ran {α : Type} (m : Engine α) (s : State) : Option (α × State) :=
  match m s with
  | .ok a t => some (a, t)
  | .error _ _ => none

/-! ## Well-formedness: each check refuses an operand its field cannot hold (30_encoding.md R56) -/

theorem test_wf_bsGet : WellFormed (.bsGet 63) = true ∧ WellFormed (.bsGet 64) = false := by decide
theorem test_wf_bsSkip : WellFormed (.bsSkip 63) = true ∧ WellFormed (.bsSkip 64) = false := by decide
theorem test_wf_count : WellFormed (.treeBuild .t0 1023 15) = true ∧ WellFormed (.treeBuild .t0 1024 15) = false := by decide
theorem test_wf_maxlen : WellFormed (.treeBuild .t0 4 31) = true ∧ WellFormed (.treeBuild .t0 4 32) = false := by decide

/-! ## Decoding: words written out from 30_encoding.md R56 and R58, with the fields COUNT, 0, MAXLEN, N, SLOT, 0000, OP -/

theorem test_decode_nop : decode 0b0000000000_0_00000_000000_00_0000_0000 = .ok .nop := by decide
theorem test_decode_bsInit : decode 0b0000000000_0_00000_000000_00_0000_0001 = .ok .bsInit := by decide
theorem test_decode_bsGet : decode 0b0000000000_0_00000_100000_00_0000_0010 = .ok (.bsGet 32) := by decide
theorem test_decode_bsSkip : decode 0b0000000000_0_00000_000101_00_0000_0011 = .ok (.bsSkip 5) := by decide
theorem test_decode_bsAlign : decode 0b0000000000_0_00000_000000_00_0000_0100 = .ok .bsAlign := by decide
theorem test_decode_treeBuild : decode 0b0000000100_0_01111_000000_01_0000_0101 = .ok (.treeBuild .t1 4 15) := by decide
theorem test_decode_treeBuild_t0 : decode 0b1000000001_0_10000_000000_00_0000_0101 = .ok (.treeBuild .t0 513 16) := by decide
theorem test_decode_treeDecode : decode 0b0000000000_0_00000_000000_11_0000_0110 = .ok (.treeDecode .t3) := by decide
theorem test_decode_treeDecode_t2 : decode 0b0000000000_0_00000_000000_10_0000_0110 = .ok (.treeDecode .t2) := by decide
theorem test_decode_inflate : decode 0b0000000000_0_00000_000000_00_0000_0111 = .ok .inflate := by decide
theorem test_decode_adler32 : decode 0b0000000000_0_00000_000000_00_0000_1000 = .ok .adler32 := by decide
/-- V-HUF-7: bit 21 set; R60: OP 9; R59: N under NOP. -/
theorem test_decode_illegal : decode 0x006F0005 = .error (.reservedBits 5) ∧ decode 0x00000009 = .error (.reservedOp 9) ∧
    decode 0x00000400 = .error (.reservedBits 0) := by decide
/-- V-INF-1 and V-HUF-1 through the host's table interface. -/
theorem test_decodeTableWord : decodeTableWord 32 0x00000007 = some .inflate ∧
    decodeTableWord 32 0x010F0105 = some (.treeBuild .t1 4 15) ∧ decodeTableWord 32 0x0000000F = none := by decide

/-! ## One step of each command -/

/-- 43_checksum_and_control.md R113: with CTRL.IE = 1, STATUS = 0x00000002 and IRQ = 1. -/
theorem test_nop : after (fun t => (t.statusWord, t.irq))
    (step { State.reset.withFetchWord 32 0 with ctrl := ⟨.deflate, true⟩ }) = some (0x00000002, true) := by decide

/-- V-HUF-7: STATUS = 0x00001006. -/
theorem test_illegal : after State.statusWord (step (State.reset.withFetchWord 32 0x006F0005)) = some 0x00001006 := by
  decide

/-- V-BS-12: BS_INIT latches CTRL.MODE = 1. -/
theorem test_bsInit : after (fun t => t.bs)
    (step ({ onInput ⟨.deflate, 1, 7, 0x5A⟩ [0x34, 0x12] with ctrl := ⟨.lzx, false⟩ }.withFetchWord 32 1)) =
      some ⟨.lzx, 0, 0, 0⟩ := by decide

/-- 70_reset_and_hazards.md R135: a CTRL.MODE write while BS_INIT waits changes CTRL and not the mode BS_INIT will latch. -/
theorem test_bsInit_waiting : after (fun t => (t.ctrl.mode, t.cmdMode)) (step (running 1 1 [.write .w32 0x000004 1])) =
    some (.lzx, .deflate) := by decide

/-- The reader of V-BS-2 after step 1. -/
def midDeflate : State := onInput ⟨.deflate, 1, 7, 0x5A⟩ [0xB5, 0x3C, 0xFF, 0x00, 0x81, 0x7E, 0x5A]

/-- The reader of V-BS-3 after step 2. -/
def midLzx : State := onInput ⟨.lzx, 2, 4, 0x4000000000000000⟩ [0x34, 0x12, 0x78, 0x56, 0xAA]

/-- V-BS-2 step 2. -/
theorem test_bsGet_deflate : brief (exec (.bsGet 32) midDeflate) = some (.ok, 0x807F9E5A, 5, 7) := by decide

/-- V-BS-3 step 3. -/
theorem test_bsGet_lzx : brief (exec (.bsGet 8) midLzx) = some (.ok, 0x45, 4, 12) := by decide

/-- V-BS-5 step 1. -/
theorem test_bsSkip : brief (exec (.bsSkip 5) (onInput ⟨.deflate, 0, 0, 0⟩ [0xB5, 0x3C])) = some (.ok, 0, 1, 3) := by decide

/-- V-BS-5 step 5: STATUS = 0x00001106. -/
theorem test_bsSkip_range : after State.statusWord (exec (.bsSkip 33) midDeflate) = some 0x00001106 := by decide

/-- V-BS-6 step 2. -/
theorem test_bsAlign_deflate : after (fun t => (t.bs, t.bs.bitpos)) (exec .bsAlign midDeflate) =
    some (⟨.deflate, 1, 0, 0⟩, 8) := by decide

/-- V-BS-4 step 2. -/
theorem test_bsAlign_lzx : after (fun t => (t.bs, t.bs.bitpos))
    (exec .bsAlign (onInput ⟨.lzx, 2, 13, 0x91A0000000000000⟩ [0x34, 0x12, 0x78, 0x56])) =
      some (⟨.lzx, 2, 0, 0⟩, 16) := by decide

/-- V-HUF-1: TREE_INFO1 = 0x830F0004. -/
theorem test_treeBuild : after (fun t => (t.statusWord, t.trees.t1.info)) (exec (.treeBuild .t1 4 15) (onLengths [2, 1, 3, 3])) =
    some (0x00000002, 0x830F0004) := by decide

/-- V-HUF-2: STATUS = 0x00003806, TREE_INFO0 = 0. -/
theorem test_treeBuild_over : after (fun t => (t.statusWord, t.trees.t0.info))
    (exec (.treeBuild .t0 3 15) (onLengths [1, 1, 1])) = some (0x00003806, 0) := by decide

/-- The slot and reader of V-HUF-1 before decode 4. -/
def midDecode : State :=
  { onInput ⟨.deflate, 1, 2, 3⟩ [0xDA, 0x01] with
    trees := ⟨.cleared, ⟨true, 4, 15, 3, [2, 1, 3, 3]⟩, .cleared, .cleared⟩ }

/-- V-HUF-1 decode 4. -/
theorem test_treeDecode : brief (exec (.treeDecode .t1) midDecode) = some (.ok, 3, 2, 7) := by decide

/-- The slot and reader of V-HUF-12 before decode 2. -/
def midIncomplete : State :=
  { onInput ⟨.deflate, 1, 5, 1⟩ [0x08] with trees := ⟨⟨true, 2, 15, 3, [0, 3]⟩, .cleared, .cleared, .cleared⟩ }

/-- V-HUF-12 decode 2: after `100`, BS_BITPOS = 6. -/
theorem test_treeDecode_noCode : brief (exec (.treeDecode .t0) midIncomplete) = some (.fmtInvalidCode, 0, 1, 2) := by decide

/-- "Wikipedia". -/
def wikipedia : List Byte := [0x57, 0x69, 0x6B, 0x69, 0x70, 0x65, 0x64, 0x69, 0x61]

/-- W2: Adler-32("Wikipedia") = 0x11E60398, from seed 1. -/
theorem test_adler32 : after (fun t => (t.result, t.adlerCalc))
    (exec .adler32 { onInput ⟨.deflate, 0, 0, 0⟩ wikipedia with arg := 1 }) = some (0x11E60398, 0x11E60398) := by decide

/-- W1: Adler-32 of nothing with seed 1 is 1. -/
theorem test_adler32_empty : after State.result (exec .adler32 { State.reset with arg := 1 }) = some 1 := by decide

/-- The input of V-INF-1. -/
def aaaStream : List Byte := [0x78, 0x9C, 0x73, 0x74, 0x74, 0x04, 0x00, 0x01, 0x89, 0x00, 0xC4]

/-- V-INF-1. -/
theorem test_inflate : after (fun t => (t.statusWord, t.result, t.outRam.map Prod.snd, t.bs.offset, t.blkinfo))
    (exec .inflate (onStream aaaStream 16)) = some (0x00030002, 3, [0x41, 0x41, 0x41], 11, 0x00010005) := by
  decide +kernel

/-- V-INF-20: an overlapping match. -/
theorem test_inflate_match : after (fun t => (t.statusWord, t.result, t.outRam.map Prod.snd, t.adlerStored))
    (exec .inflate (onStream [0x78, 0xDA, 0x4B, 0x4C, 0x4A, 0x84, 0x43, 0x00, 0x1D, 0xBE, 0x04, 0x93] 32)) =
      some (0x00030002, 12, [0x61, 0x62, 0x61, 0x62, 0x61, 0x62, 0x61, 0x62, 0x61, 0x62, 0x61, 0x62], 0x1DBE0493) := by
  decide +kernel

/-! ## The host side -/

/-- 10_state.md R15: ID reads "BRI1". -/
theorem test_read_id : after State.rdata (step (State.reset.withHost [.read .w32 0x000000])) = some 0x42524931 := by decide

/-- 60_exceptions.md R122: a CMD write while BUSY only sets OVR, so STATUS = 0x00000009. -/
theorem test_cmd_while_busy : after (fun t => (t.cmd, t.statusWord)) (step (running 7 1 [.write .w32 0x000008 1])) =
    some (some 7, 0x00000009) := by decide

/-- 20_memory.md R44: bytes of a window word are little-endian. -/
theorem test_window : after State.inRam (hostWrite .w32 0x400000 0x0403FF01 State.reset) =
    some [(0, 0x01), (1, 0xFF), (2, 0x03), (3, 0x04)] := by decide

/-- 20_memory.md R46, R52: a 16-bit access of a register, and a write of IN_LEN while BUSY, have no step. -/
theorem test_refused : hostRead .w16 0x000010 State.reset = .refused (.hostAccess .w16 0x000010) ∧
    hostWrite .w32 0x000018 5 (running 7 1 []) = .refused (.hostWriteBusy 0x000018) := ⟨rfl, rfl⟩

/-- 93_implementation_defined.md I1: a command that reads an unwritten byte stops with the fault. -/
theorem test_unwritten : exec (.bsGet 1) { State.reset with inLen := 1 } = .fault (.unwritten .inRam 0) := rfl

/-! ## Witnesses: states and operands that meet the hypotheses of each statement -/

/-- A built tree is a good slot. -/
theorem slotGood_built (lens : List Nat) (maxlen : Nat) (h1 : lens.length ≤ Config.treeCap) (h2 : 1 ≤ maxlen)
    (h3 : maxlen ≤ Config.maxlenLimit) (h4 : lenTooLong lens maxlen = false) (h5 : oversubscribed lens maxlen = false) :
    SlotGood (.built lens maxlen) := Or.inr ⟨rfl, h1, h2, h3, h4, h5⟩

theorem witness_DecodeEncode : WellFormed (.treeBuild .t3 1023 31) = true ∧ WellFormed (.bsGet 63) = true := by decide
theorem witness_EncodeDecode : decode 0xFFDF0305 = .ok (.treeBuild .t3 1023 31) ∧ decode 0x0000FC02 = .ok (.bsGet 63) := by
  decide
theorem witness_StepRunsDecodedCommand : (running 0x00000402 0 [.reset]).cmd = some 0x00000402 ∧
    EnginesTurn (running 0x00000402 0 [.reset]) ∧ decode 0x00000402 = .ok (.bsGet 1) ∧ WellFormed (.bsGet 1) = true :=
  ⟨rfl, Or.inl rfl, by decide, by decide⟩
theorem witness_StepRunsDecodedCommand_noHost : (running 0x00000007 3 []).cmd = some 0x00000007 ∧
    EnginesTurn (running 0x00000007 3 []) ∧ decode 0x00000007 = .ok .inflate ∧ WellFormed .inflate = true :=
  ⟨rfl, Or.inr rfl, by decide, by decide⟩
theorem witness_IllegalWordChangesNothing : (running 9 0 []).cmd = some 9 ∧ EnginesTurn (running 9 0 []) ∧
    (∀ r ∈ opcodeMap, r.selects 9 = false) ∧ (∀ r ∈ opcodeMap, r.selects 0x006F0005 = false) :=
  ⟨rfl, Or.inl rfl, by decide, by decide⟩
theorem witness_IdleStep : State.reset.cmd = none ∧ State.reset.host = [] ∧
    (State.reset.withHost [.reset]).cmd = none ∧ (State.reset.withHost [.reset]).host = .reset :: [] := by decide
theorem witness_WaitingCommandIsKept : (running 7 1 [.read .w32 0x00000C]).cmd = some 7 ∧
    ¬ EnginesTurn (running 7 1 [.read .w32 0x00000C]) ∧
    Completes (step (running 7 1 [.read .w32 0x00000C])) (fun t => t.cmd = some 7 ∧ t.wait = 0) ∧
    ¬ EnginesTurn (running 7 1 [.reset]) ∧ Completes (step (running 7 1 [.reset])) (fun t => t.cmd = none) :=
  ⟨rfl, by simp [EnginesTurn, running], ⟨_, rfl, rfl, rfl⟩, by simp [EnginesTurn, running], ⟨_, rfl, rfl⟩⟩
theorem witness_PollingReachesTheEngine : (running 7 2 (List.replicate 3 (.read .w32 0x00000C))).cmd = some 7 ∧
    (running 7 2 (List.replicate 3 (.read .w32 0x00000C))).host = List.replicate 3 (.read .w32 0x00000C) := by decide

/-- Every command can complete, with success and, where it has an error, with one: for the statements about a completion. -/
theorem witness_completions :
    Completes (exec .nop State.reset) (fun t => t.status.errcode = .ok) ∧
    Completes (exec .bsInit State.reset) (fun t => t.status.errcode = .ok) ∧
    Completes (exec .bsAlign State.reset) (fun t => t.status.errcode = .ok) ∧
    Completes (exec (.bsGet 1) State.reset) (fun t => t.status.errcode = .fmtInputExhausted) ∧
    Completes (exec (.bsSkip 33) State.reset) (fun t => t.status.errcode = .argNRange) ∧
    Completes (exec (.treeBuild .t0 0 15) State.reset) (fun t => t.status.errcode = .ok) ∧
    Completes (exec (.treeDecode .t3) State.reset) (fun t => t.status.errcode = .argTreeInvalid) ∧
    Completes (exec .adler32 { State.reset with inLen := 65537 }) (fun t => t.status.errcode = .argLenRange) ∧
    Completes (exec .inflate State.reset) (fun t => t.status.errcode = .argLenRange) :=
  ⟨⟨_, rfl, rfl⟩, ⟨_, rfl, rfl⟩, ⟨_, rfl, rfl⟩, ⟨_, rfl, rfl⟩, ⟨_, rfl, rfl⟩, ⟨_, rfl, rfl⟩, ⟨_, rfl, rfl⟩, ⟨_, rfl, rfl⟩,
    ⟨_, rfl, rfl⟩⟩

theorem witness_BsInitStartsAStream : ({ State.reset with ctrl := ⟨.lzx, false⟩ } : State).busy = false ∧
    encode .bsInit = 1 := by decide
theorem witness_OnlyBsInitReadsCtrl : Instr.nop ≠ .bsInit ∧
    exec .nop State.reset = .next (completed .ok 0 State.reset) := ⟨by decide, rfl⟩
theorem witness_NopCompletes : ({ State.reset with ctrl := ⟨.lzx, true⟩ } : State).ctrl.ie = true ∧
    State.reset.status.ovr = false ∧ State.reset.status.ckpres = false ∧ State.reset.status.ckok = false ∧
    State.reset.status.fdict = false ∧ field 0x00000010 0 4 = 0 ∧ (0x00000010 : Word) ≠ 0 ∧
    (running 0x00000010 0 []).cmd = some 0x00000010 ∧ EnginesTurn (running 0x00000010 0 []) :=
  ⟨by decide, by decide, by decide, by decide, by decide, by decide, by decide, rfl, Or.inl rfl⟩

/-- The bits of a value, the first of the stream least significant. -/
def lowFirst (n v : Nat) : List Bool := (List.range n).map (fun i => v.testBit i)

theorem good_midDeflate : ReaderGood midDeflate.bs :=
  ⟨by decide, by decide, show (0x5A : BitVec 64).toNat < 2 ^ 7 by decide, by decide, by decide⟩
theorem coherent_midDeflate : Coherent midDeflate :=
  show ∀ i, i < 7 → streamBit .deflate midDeflate.inRam (1 + i) = some (midDeflate.bs.pending i) by decide
theorem good_midLzx : ReaderGood midLzx.bs :=
  ⟨by decide, by decide, show (0x4000000000000000 : BitVec 64).toNat % 2 ^ 60 = 0 by decide, by decide, by decide⟩
theorem coherent_midLzx : Coherent midLzx :=
  show ∀ i, i < 4 → streamBit .lzx midLzx.inRam (12 + i) = some (midLzx.bs.pending i) by decide

theorem witness_BsAlign : ReaderGood midDeflate.bs ∧ State.reset.bs.bitcnt = 0 := ⟨good_midDeflate, rfl⟩

/-- V-BS-2 step 2; then V-BS-3 from bit 12 to the last of its 32 bits and one bit past it; then V-BS-11, the 7 bits still in
ACC with IN_LEN = 0. -/
theorem witness_BsGetReadsTheStream : 32 ≤ 32 ∧ midDeflate.inLen.toNat ≤ Config.inMax ∧ ReaderGood midDeflate.bs ∧
    Coherent midDeflate ∧ (lowFirst 32 0x807F9E5A).length = 32 ∧ Readable midDeflate 32 ∧
    StreamHolds midDeflate.bs.mode midDeflate.inRam midDeflate.bs.bitpos (lowFirst 32 0x807F9E5A) :=
  ⟨by decide, by decide, good_midDeflate, coherent_midDeflate, by decide, Or.inr ⟨by decide, by decide⟩,
    show ∀ i (h : i < 32), streamBit .deflate midDeflate.inRam (1 + i) = some (lowFirst 32 0x807F9E5A)[i] by decide +kernel⟩
theorem witness_BsGetReadsTheStream_lzx : midLzx.inLen.toNat ≤ Config.inMax ∧ ReaderGood midLzx.bs ∧
    Coherent midLzx ∧ midLzx.bs.offset ≤ midLzx.inLen.toNat ∧ (codeBits 20 0x45678).length = 20 ∧
    midLzx.bs.bitpos + 20 = streamEnd midLzx.bs.mode midLzx.inLen.toNat ∧
    StreamHolds midLzx.bs.mode midLzx.inRam midLzx.bs.bitpos (codeBits 20 0x45678) ∧
    streamEnd midLzx.bs.mode midLzx.inLen.toNat < midLzx.bs.bitpos + 21 :=
  ⟨by decide, good_midLzx, coherent_midLzx, by decide, by decide, by decide,
    show ∀ i (h : i < 20), streamBit .lzx midLzx.inRam (12 + i) = some (codeBits 20 0x45678)[i] by decide +kernel, by decide⟩
theorem witness_BsGetReadsTheStream_pending : ReaderGood { midDeflate with inLen := 0 }.bs ∧
    Coherent { midDeflate with inLen := 0 } ∧ Readable { midDeflate with inLen := 0 } 7 ∧
    StreamHolds .deflate midDeflate.inRam 1 (lowFirst 7 0x5A) :=
  ⟨good_midDeflate, coherent_midDeflate, Or.inl (by decide),
    show ∀ i (h : i < 7), streamBit .deflate midDeflate.inRam (1 + i) = some (lowFirst 7 0x5A)[i] by decide⟩
theorem witness_BsSkipDiscardsBits : (codeBits 20 0x45678).length ≤ 32 ∧ midLzx.inLen.toNat ≤ Config.inMax ∧
    ReaderGood midLzx.bs ∧ Coherent midLzx ∧ Readable midLzx (codeBits 20 0x45678).length ∧
    StreamHolds midLzx.bs.mode midLzx.inRam midLzx.bs.bitpos (codeBits 20 0x45678) :=
  ⟨by decide, by decide, good_midLzx, coherent_midLzx, Or.inr ⟨by decide, by decide⟩,
    witness_BsGetReadsTheStream_lzx.2.2.2.2.2.2.1⟩
/-- N = 33; IN_LEN = IN_MAX + 1; one bit more than Avail in each order, the last with IN_LEN below BS_OFFSET. -/
theorem witness_FailedReadChangesNothing : 32 < 33 ∧ Config.inMax < (65537 : Word).toNat ∧
    midDeflate.bs.bitcnt + 8 * (midDeflate.inLen.toNat - midDeflate.bs.offset) < 56 ∧
    midDeflate.bs.bitcnt + 8 * ((4 : Word).toNat - midDeflate.bs.offset) < 32 ∧
    midLzx.bs.bitcnt + 16 * ((midLzx.inLen.toNat - midLzx.bs.offset) / 2) < 21 ∧
    midDeflate.bs.bitcnt + 8 * ((0 : Word).toNat - midDeflate.bs.offset) < 8 := by decide
/-- V-BS-13: byte 0 changes after its load. -/
theorem witness_StaleAccumulator : 0 < midDeflate.bs.offset ∧
    Completes (exec (.bsGet 7) midDeflate) (fun t => t.result = 0x5A) := ⟨by decide, _, rfl, rfl⟩

/-- W3: lens = [2, 1, 3, 3] has the codes 10, 0, 110, 111. -/
theorem witness_CodesArePrefixFree : ValidLengths [2, 1, 3, 3] 16 ∧ (1 : Nat) ≠ 3 ∧ (2 : Nat) ≠ 3 ∧
    (codes [2, 1, 3, 3])[1]? = some 0 ∧ (codes [2, 1, 3, 3])[2]? = some 6 ∧ (codes [2, 1, 3, 3])[3]? = some 7 :=
  ⟨⟨by decide, by decide⟩, by decide, by decide, by decide, by decide, by decide⟩
/-- V-HUF-1's lengths with the smallest MAXLEN, where the Kraft sum is 1; V-HUF-3's with the largest. -/
theorem witness_TreeBuildWritesTheSlot : Holds (onLengths [2, 1, 3, 3]).clen 0 [2, 1, 3, 3] ∧
    (∀ e ∈ ([2, 1, 3, 3] : List (BitVec 5)), e.toNat ≤ 3) ∧ kraftSum [2, 1, 3, 3] 3 = 2 ^ 3 ∧
    Holds (onLengths [1, 16]).clen 0 [1, 16] ∧ (∀ e ∈ ([1, 16] : List (BitVec 5)), e.toNat ≤ 16) ∧
    kraftSum [1, 16] 16 ≤ 2 ^ 16 :=
  ⟨show ∀ i (h : i < 4), (onLengths [2, 1, 3, 3]).clen.read (0 + i) = some ([2, 1, 3, 3] : List (BitVec 5))[i] by decide,
    by decide, by decide,
    show ∀ i (h : i < 2), (onLengths [1, 16]).clen.read (0 + i) = some ([1, 16] : List (BitVec 5))[i] by decide,
    by decide, by decide⟩
/-- MAXLEN 0, MAXLEN 17, COUNT 513; V-HUF-3's length 16 with MAXLEN 15; a Kraft sum of 1 + 2^-16. -/
theorem witness_TreeBuildErrors : 0 < 1 ∧ 16 < 17 ∧ 512 < (List.replicate 513 (0 : BitVec 5)).length ∧
    Holds (onLengths [1, 16]).clen 0 [1, 16] ∧ (∃ e ∈ ([1, 16] : List (BitVec 5)), 15 < e.toNat) ∧
    Holds (onLengths [1, 1, 16]).clen 0 [1, 1, 16] ∧ (∀ e ∈ ([1, 1, 16] : List (BitVec 5)), e.toNat ≤ 16) ∧
    2 ^ 16 < kraftSum [1, 1, 16] 16 :=
  ⟨by decide, by decide, by simp, witness_TreeBuildWritesTheSlot.2.2.2.1, by decide,
    show ∀ i (h : i < 3), (onLengths [1, 1, 16]).clen.read (0 + i) = some ([1, 1, 16] : List (BitVec 5))[i] by decide,
    by decide, by decide⟩

theorem good_midDecode : SlotGood (midDecode.trees.get .t1) :=
  slotGood_built [2, 1, 3, 3] 15 (by decide) (by decide) (by decide) (by decide) (by decide)
/-- V-HUF-1 decode 4: the code 111 of symbol 3, from bit 6. -/
theorem witness_TreeDecodeReturnsTheSymbol : SlotGood (midDecode.trees.get .t1) ∧ (midDecode.trees.get .t1).valid = true ∧
    (midDecode.trees.get .t1).lens[3]? = some 3 ∧ (codes (midDecode.trees.get .t1).lens)[3]? = some 7 ∧
    midDecode.inLen.toNat ≤ Config.inMax ∧ ReaderGood midDecode.bs ∧ Coherent midDecode ∧ Readable midDecode 3 ∧
    StreamHolds midDecode.bs.mode midDecode.inRam midDecode.bs.bitpos (codeBits 3 7) :=
  ⟨good_midDecode, by decide, by decide, by decide, by decide,
    ⟨by decide, by decide, show (3 : BitVec 64).toNat < 2 ^ 2 by decide, by decide, by decide⟩,
    show ∀ i, i < 2 → streamBit .deflate midDecode.inRam (6 + i) = some (midDecode.bs.pending i) by decide,
    Or.inr ⟨by decide, by decide⟩,
    show ∀ i (h : i < 3), streamBit .deflate midDecode.inRam (6 + i) = some (codeBits 3 7)[i] by decide⟩
/-- V-HUF-12 decode 2: no code of the tree begins 100, and LMAX is 3. -/
theorem witness_TreeDecodeNoCode : SlotGood (midIncomplete.trees.get .t0) ∧ (midIncomplete.trees.get .t0).valid = true ∧
    (∀ (sym l c : Nat), (midIncomplete.trees.get .t0).lens[sym]? = some l → l ≠ 0 →
      (codes (midIncomplete.trees.get .t0).lens)[sym]? = some c → ¬ codeBits l c <+: [true, false, false]) ∧
    midIncomplete.inLen.toNat ≤ Config.inMax ∧ ReaderGood midIncomplete.bs ∧ Coherent midIncomplete ∧
    Readable midIncomplete 3 ∧
    StreamHolds midIncomplete.bs.mode midIncomplete.inRam midIncomplete.bs.bitpos [true, false, false] ∧
    [true, false, false].length = (midIncomplete.trees.get .t0).lmax := by
  refine ⟨slotGood_built [0, 3] 15 (by decide) (by decide) (by decide) (by decide) (by decide), by decide, ?_,
    by decide, ⟨by decide, by decide, show (1 : BitVec 64).toNat < 2 ^ 5 by decide, by decide, by decide⟩,
    show ∀ i, i < 5 → streamBit .deflate midIncomplete.inRam (3 + i) = some (midIncomplete.bs.pending i) by decide,
    Or.inl (by decide),
    show ∀ i (h : i < 3), streamBit .deflate midIncomplete.inRam (3 + i) = some [true, false, false][i] by decide,
    by decide⟩
  intro sym l c hl h0 hc
  match sym, hl, hc with
  | 0, hl, _ => exact absurd (Option.some.inj hl).symm h0
  | 1, hl, hc =>
    obtain rfl : (3 : Nat) = l := Option.some.inj hl
    obtain rfl : (0 : Nat) = c := Option.some.inj hc
    decide
  | n + 2, hl, _ => simp [midIncomplete, Trees.get] at hl
/-- The slot and reader of V-HUF-9 before decode 3, in T1: two 1 bits are left. -/
def midExhausted : State := { midDecode with bs := ⟨.deflate, 1, 2, 3⟩, inRam := ram [0xFF], inLen := 1 }
/-- V-HUF-9 decode 3: 11 begins the codes 110 and 111 and is none, and the input ends. -/
theorem witness_TreeDecodeNoCode_exhausted : SlotGood (midExhausted.trees.get .t1) ∧
    (∀ (sym l c : Nat), (midExhausted.trees.get .t1).lens[sym]? = some l → l ≠ 0 →
      (codes (midExhausted.trees.get .t1).lens)[sym]? = some c → ¬ codeBits l c <+: [true, true]) ∧
    ReaderGood midExhausted.bs ∧ Coherent midExhausted ∧ Readable midExhausted 2 ∧
    StreamHolds midExhausted.bs.mode midExhausted.inRam midExhausted.bs.bitpos [true, true] ∧
    [true, true].length < (midExhausted.trees.get .t1).lmax ∧ ¬ Readable midExhausted 3 := by
  refine ⟨good_midDecode, ?_, ⟨by decide, by decide, show (3 : BitVec 64).toNat < 2 ^ 2 by decide, by decide, by decide⟩,
    show ∀ i, i < 2 → streamBit .deflate midExhausted.inRam (6 + i) = some (midExhausted.bs.pending i) by decide,
    Or.inl (by decide),
    show ∀ i (h : i < 2), streamBit .deflate midExhausted.inRam (6 + i) = some [true, true][i] by decide, by decide,
    fun h => by rcases h with h | h <;> revert h <;> decide⟩
  intro sym l c hl _ hc
  match sym, hl, hc with
  | 0, hl, hc => cases hl; cases hc; decide
  | 1, hl, hc => cases hl; cases hc; decide
  | 2, hl, hc => cases hl; cases hc; decide
  | 3, hl, hc => cases hl; cases hc; decide
  | n + 4, hl, _ => simp [midExhausted, midDecode, Trees.get] at hl
/-- V-HUF-6; and a valid slot with IN_LEN = IN_MAX + 1. -/
theorem witness_TreeDecodeArgumentErrors : (State.reset.trees.get .t3).valid = false ∧
    (midDecode.trees.get .t1).valid = true ∧ Config.inMax < (65537 : Word).toNat := by decide

theorem witness_AdlerOfTheInput : (onInput ⟨.deflate, 0, 0, 0⟩ wikipedia).inLen.toNat ≤ Config.inMax ∧
    wikipedia.length = (onInput ⟨.deflate, 0, 0, 0⟩ wikipedia).inLen.toNat ∧
    Holds (onInput ⟨.deflate, 0, 0, 0⟩ wikipedia).inRam 0 wikipedia ∧ Config.inMax < (65537 : Word).toNat :=
  ⟨by decide, by decide,
    show ∀ i (h : i < 9), (ram wikipedia).read (0 + i) = some wikipedia[i] by decide, by decide⟩
theorem witness_AdlerReductionSchedule : (List.replicate 5552 (0xFF : Byte)).length ≤ 5552 ∧ 65535 < 65536 ∧ 0 < 5552 :=
  ⟨Nat.le_of_eq List.length_replicate, by decide, by decide⟩

theorem witness_InflateArgumentErrors : (1 : Word).toNat < 2 ∧ Config.inMax < (65537 : Word).toNat ∧
    Config.outMax < (65537 : Word).toNat := by decide

theorem written_aaa : Written (onStream aaaStream 16).inRam 0 (onStream aaaStream 16).inLen.toNat := by
  have h : ∀ i, i < 11 → ((onStream aaaStream 16).inRam.read i).isSome = true := by decide
  exact fun i _ hi => h i (by simpa [onStream, onInput, aaaStream] using hi)
/-- V-INF-1 passes the checks, its bytes are written, and it completes: for the statements about INFLATE. -/
theorem witness_Inflate : InflateArgsGood (onStream aaaStream 16) ∧
    Written (onStream aaaStream 16).inRam 0 (onStream aaaStream 16).inLen.toNat ∧
    (after (fun t => t.status.errcode) (exec .inflate (onStream aaaStream 16)) = some .ok) :=
  ⟨⟨by decide, by decide, by decide⟩, written_aaa, by decide +kernel⟩
/-- V-INF-6: the same with a wrong trailer. -/
theorem witness_InflateChecksum_mismatch :
    InflateArgsGood (onStream [0x78, 0x9C, 0x73, 0x74, 0x74, 0x04, 0x00, 0x01, 0x89, 0x00, 0xC5] 16) ∧
    after (fun t => (t.status.errcode, t.adlerStored))
      (exec .inflate (onStream [0x78, 0x9C, 0x73, 0x74, 0x74, 0x04, 0x00, 0x01, 0x89, 0x00, 0xC5] 16)) =
        some (.chkAdlerMismatch, 0x018900C5) :=
  ⟨⟨by decide, by decide, by decide⟩, by decide +kernel⟩
/-- The smallest IN_LEN and the largest OUT_CAP the checks admit. -/
theorem witness_InflateAlwaysEnds_bounds : InflateArgsGood (onStream [0x78, 0x9C] 65536) ∧
    Written (onStream [0x78, 0x9C] 65536).inRam 0 (onStream [0x78, 0x9C] 65536).inLen.toNat := by
  refine ⟨⟨by decide, by decide, by decide⟩, fun i _ hi => ?_⟩
  have h : ∀ i, i < 2 → ((onStream [0x78, 0x9C] 65536).inRam.read i).isSome = true := by decide
  exact h i (by simpa [onStream, onInput] using hi)
/-- V-INF-1 again after other commands have left CTRL, the reader, the slots and OUT as they are here. -/
theorem witness_InflateDependsOnItsInputOnly :
    let s₁ := onStream aaaStream 16
    let s₂ := { s₁ with ctrl := ⟨.lzx, true⟩, bs := midLzx.bs, trees := midDecode.trees, outRam := [(0, 9)], outPos := 1 }
    InflateArgsGood s₁ ∧ s₂.inLen = s₁.inLen ∧ s₂.outCap = s₁.outCap ∧
      (∀ a, a < s₁.inLen.toNat → s₂.inRam.read a = s₁.inRam.read a) ∧
      after (fun t => t.status.errcode) (exec .inflate s₁) = some .ok :=
  ⟨witness_Inflate.1, rfl, rfl, fun _ _ => rfl, witness_Inflate.2.2⟩
/-- V-INF-11, V-INF-12, and V-INF-16's truncated dictionary id. -/
theorem witness_InflateHeaderErrors : InflateArgsGood (onStream [0x79, 0x9C, 0, 0] 16) ∧
    (onStream [0x79, 0x9C, 0, 0] 16).inRam.read 0 = some 0x79 ∧ (onStream [0x79, 0x9C, 0, 0] 16).inRam.read 1 = some 0x9C ∧
    ¬ HeaderAccepted 0x79 ∧ (0x79 : Byte).toNat % 16 ≠ 8 ∧ (onStream [0x88, 0x1C, 0, 0] 16).inRam.read 0 = some 0x88 ∧
    ¬ HeaderAccepted 0x88 ∧ (0x88 : Byte).toNat % 16 = 8 :=
  ⟨⟨by decide, by decide, by decide⟩, by decide, by decide, fun h => absurd h.1 (by decide), by decide, by decide,
    fun h => absurd h.2 (by decide), by decide⟩
theorem witness_InflateHeaderErrors_truncated : InflateArgsGood (onStream [0x78, 0xBB, 0x12, 0x34] 16) ∧
    HeaderAccepted 0x78 ∧ (0xBB : Byte).getLsbD 5 = true ∧ (onStream [0x78, 0xBB, 0x12, 0x34] 16).inLen.toNat < 6 ∧
    Written (onStream [0x78, 0xBB, 0x12, 0x34] 16).inRam 0 (onStream [0x78, 0xBB, 0x12, 0x34] 16).inLen.toNat := by
  refine ⟨⟨by decide, by decide, by decide⟩, ⟨by decide, by decide⟩, by decide, by decide, fun i _ hi => ?_⟩
  have h : ∀ i, i < 4 → ((onStream [0x78, 0xBB, 0x12, 0x34] 16).inRam.read i).isSome = true := by decide
  exact h i (by simpa [onStream, onInput] using hi)

/-- "hello", and the input of V-INF-7. -/
def hello : List Byte := [0x68, 0x65, 0x6C, 0x6C, 0x6F]
def helloStream : List Byte :=
  [0x78, 0x01, 0x01, 0x05, 0x00, 0xFA, 0xFF, 0x68, 0x65, 0x6C, 0x6C, 0x6F, 0x06, 0x2C, 0x02, 0x15]
theorem test_storedStream : storedStream 0x78 0x01 0 hello (adler32 1 hello) = helloStream := by decide
theorem witness_InflateStoredBlock : HeaderAccepted 0x78 ∧
    (onStream helloStream 5).inLen.toNat = (storedStream 0x78 0x01 0 hello (adler32 1 hello)).length ∧
    (onStream helloStream 5).inLen.toNat ≤ Config.inMax ∧ hello.length ≤ (onStream helloStream 5).outCap.toNat ∧
    (onStream helloStream 5).outCap.toNat ≤ Config.outMax ∧
    Holds (onStream helloStream 5).inRam 0 (storedStream 0x78 0x01 0 hello (adler32 1 hello)) := by
  rw [test_storedStream]
  exact ⟨⟨by decide, by decide⟩, by decide, by decide, by decide, by decide,
    show ∀ i (h : i < 16), (ram helloStream).read (0 + i) = some helloStream[i] by decide⟩
/-- The input of V-INF-15: FLG[5] = 1, the id 0x12345678, no literal. -/
def dictStream : List Byte := [0x78, 0xBB, 0x12, 0x34, 0x56, 0x78, 0x03, 0x00]
theorem witness_InflateFixedLiterals_dict :
    (onStream dictStream 0).inLen.toNat
      = (zlibHeaderBytes 0x78 0xBB 0x12345678).length + ((fixedLiteralBits []).length + 7) / 8 ∧
    Holds (onStream dictStream 0).inRam 0 (zlibHeaderBytes 0x78 0xBB 0x12345678) ∧
    StreamHolds .deflate (onStream dictStream 0).inRam (8 * (zlibHeaderBytes 0x78 0xBB 0x12345678).length)
      (fixedLiteralBits []) :=
  ⟨by decide,
    show ∀ i (h : i < 6), (ram dictStream).read (0 + i) = some (zlibHeaderBytes 0x78 0xBB 0x12345678)[i] by decide,
    show ∀ i (h : i < 10), streamBit .deflate (ram dictStream) (48 + i) = some (fixedLiteralBits [])[i] by decide⟩
/-- V-INF-4: V-INF-1 without its trailer. -/
theorem witness_InflateFixedLiterals : HeaderAccepted 0x78 ∧
    (onStream (aaaStream.take 7) 3).inLen.toNat
      = (zlibHeaderBytes 0x78 0x9C 0).length + ((fixedLiteralBits [0x41, 0x41, 0x41]).length + 7) / 8 ∧
    [(0x41 : Byte), 0x41, 0x41].length ≤ (onStream (aaaStream.take 7) 3).outCap.toNat ∧
    Holds (onStream (aaaStream.take 7) 3).inRam 0 (zlibHeaderBytes 0x78 0x9C 0) ∧
    StreamHolds .deflate (onStream (aaaStream.take 7) 3).inRam (8 * (zlibHeaderBytes 0x78 0x9C 0).length)
      (fixedLiteralBits [0x41, 0x41, 0x41]) :=
  ⟨⟨by decide, by decide⟩, by decide, by decide,
    show ∀ i (h : i < 2), (ram (aaaStream.take 7)).read (0 + i) = some (zlibHeaderBytes 0x78 0x9C 0)[i] by decide,
    show ∀ i (h : i < 34), streamBit .deflate (ram (aaaStream.take 7)) (16 + i) =
      some (fixedLiteralBits [0x41, 0x41, 0x41])[i] by decide +kernel⟩
/-- A match of symbol 265 with extra bit 1 (length 12) and distance symbol 4, code 0, with extra bit 1 (distance 6). -/
def midMatch (p : Nat × Word) (r : Reader) : State :=
  { onInput r [0x05] with
    trees := ⟨.cleared, .built [0, 0, 0, 0, 1] 15, .cleared, .cleared⟩
    outRam := ram [1, 2, 3, 4, 5, 6], outPos := p.1, outCap := p.2 }
/-- The match runs with OUT_POS = 6 and room for 12 bytes; it is too far with OUT_POS = 5, too long with one byte less. -/
theorem witness_MatchCopyRepeats_backReference : (265, 11, 1) ∈ lengthRows ∧ (4, 5, 1) ∈ distanceRows ∧
    (∀ p ∈ [((6 : Nat), (18 : Word)), (5, 18), (6, 17)],
      ran (bsGet 1) (midMatch p ⟨.deflate, 0, 0, 0⟩) = some (1, midMatch p ⟨.deflate, 1, 7, 2⟩) ∧
      ran (hufDecode .t1) (midMatch p ⟨.deflate, 1, 7, 2⟩) = some (4, midMatch p ⟨.deflate, 1, 6, 1⟩) ∧
      ran (bsGet 1) (midMatch p ⟨.deflate, 1, 6, 1⟩) = some (1, midMatch p ⟨.deflate, 1, 5, 0⟩)) ∧
    5 < 5 + (1 : Word).toNat ∧ (17 : Word).toNat < 6 + (11 + (1 : Word).toNat) ∧
    6 + (11 + (1 : Word).toNat) ≤ (18 : Word).toNat ∧ Written (ram [(1 : Byte), 2, 3, 4, 5, 6]) 0 6 := by
  refine ⟨by decide, by decide, by decide, by decide, by decide, by decide, fun i _ hi => ?_⟩
  have h : ∀ i, i < 6 → ((ram [(1 : Byte), 2, 3, 4, 5, 6]).read i).isSome = true := by decide
  exact h i (by omega)
/-- Distance 2 after two bytes. -/
theorem witness_MatchCopyRepeats : 1 ≤ 2 ∧ 2 ≤ ({ State.reset with outRam := ram [7, 8], outPos := 2 } : State).outPos ∧
    Written (ram [(7 : Byte), 8]) 0 2 := by
  refine ⟨by decide, by decide, fun i _ hi => ?_⟩
  have h : ∀ i, i < 2 → ((ram [(7 : Byte), 8]).read i).isSome = true := by decide
  exact h i (by omega)

theorem witness_RegisterReads : State.reset.busy = false ∧ 0x058 ≤ (0x058 : BitVec 24).toNat ∧
    (0xFFC : BitVec 24).toNat ≤ 0xFFC ∧ (0xFFC : BitVec 24).toNat % 4 = 0 := by decide
theorem witness_TreeInfoLayout : SlotGood (midDecode.trees.get .t1) ∧ SlotGood .cleared := ⟨good_midDecode, Or.inl rfl⟩
theorem witness_MisalignedAccessHasNoStep : (0x0017FC : BitVec 24).toNat < 0x001800 ∧ Width.w16 ≠ .w32 ∧
    (0x0017FE : BitVec 24).toNat % 4 ≠ 0 ∧ 0x400000 ≤ (0x400001 : BitVec 24).toNat ∧
    (0x400001 : BitVec 24).toNat % Width.w16.bytes ≠ 0 ∧ (0xBFFFFE : BitVec 24).toNat < 0xC00000 ∧
    (0xBFFFFE : BitVec 24).toNat % Width.w32.bytes ≠ 0 := by decide
/-- The first and the last access of each reserved range. -/
theorem witness_ReservedReadsZero : State.reset.busy = false ∧ (0x000FFC : BitVec 24).toNat < 0x001000 ∧
    0x001800 ≤ (0x001800 : BitVec 24).toNat ∧ (0x3FFFFC : BitVec 24).toNat + Width.w32.bytes ≤ 0x400000 ∧
    0x400000 + Config.inMax ≤ (0x410000 : BitVec 24).toNat ∧ (0x7FFFFC : BitVec 24).toNat % Width.w32.bytes = 0 ∧
    0x800000 + Config.outMax ≤ (0x810000 : BitVec 24).toNat ∧ (0xBFFFFF : BitVec 24).toNat % Width.w8.bytes = 0 ∧
    0xC00000 ≤ (0xC00000 : BitVec 24).toNat ∧ (0xFFFFFE : BitVec 24).toNat + Width.w16.bytes ≤ 0x1000000 := by decide
theorem witness_HostReadsChangeNothing :
    Completes (hostRead .w32 0x000000 State.reset) (fun t => t.rdata = 0x42524931) ∧ State.reset.busy = false ∧
    Completes (hostRead .w8 0x400000 (running 7 1 [])) (fun t => t.free = 1) ∧ (running 7 1 []).busy = true :=
  ⟨⟨_, rfl, rfl⟩, rfl, ⟨_, rfl, rfl⟩, rfl⟩
/-- The last word of each window. -/
theorem witness_WindowWriteThenRead : State.reset.busy = false ∧ 65532 % Width.w32.bytes = 0 ∧
    65532 + Width.w32.bytes ≤ Config.inMax ∧ 65535 + Width.w8.bytes ≤ Config.outMax := by decide
/-- The last entry; and V-HUF-11's length 31 in entry 0. -/
theorem witness_ClenHoldsFiveBits : State.reset.busy = false ∧ 511 < 512 ∧ 17 ≤ ((31 : Word) &&& 0x1F).toNat ∧
    Completes (hostWrite .w32 0x001000 31 State.reset) (fun t => Written t.clen 0 1) :=
  ⟨rfl, by decide, by decide, _, rfl, fun i _ hi => by
    obtain rfl : i = 0 := by omega
    rfl⟩
theorem witness_CmdWrites : State.reset.busy = false ∧ (running 7 1 []).busy = true := by decide
theorem witness_OvrStays : ({ running 0 0 [] with status := { State.reset.status with ovr := true } } : State).status.ovr = true ∧
    Completes (step { running 0 0 [] with status := { State.reset.status with ovr := true } }) (fun t => t.status.ovr = true) :=
  ⟨rfl, _, rfl, rfl⟩
/-- The ends of the ranges that have no write while BUSY. -/
theorem witness_BusyHostAccesses : (running 7 1 []).busy = true ∧ target .w32 0x000010 ≠ none ∧
    target .w32 0x001000 ≠ none ∧ target .w32 0x0017FC ≠ none ∧ target .w8 0x400000 ≠ none ∧ target .w8 0xBFFFFF ≠ none ∧
    (0x18 : BitVec 24) ∈ [(0x14 : BitVec 24), 0x18, 0x1C] ∧
    (0x054 : BitVec 24) ∈ readOnlyRegisters := by decide
theorem witness_IrqFollowsDone :
    Completes (exec .nop { State.reset with ctrl := ⟨.deflate, true⟩ }) (fun t => t.irq = true) ∧
    Completes (hostWrite .w32 0x00000C 2 (completed .ok 0 { State.reset with ctrl := ⟨.deflate, true⟩ }))
      (fun t => t.irq = false) ∧
    Completes (hostWrite .w32 0x000004 2 (completed .ok 0 State.reset)) (fun t => t.irq = true) ∧
    Completes (hostWrite .w32 0x000008 0 State.reset) (fun t => t.irq = false) ∧
    Completes (hostAction .reset State.reset) (fun t => t.irq = false) :=
  ⟨⟨_, rfl, rfl⟩, ⟨_, rfl, rfl⟩, ⟨_, rfl, rfl⟩, ⟨_, rfl, rfl⟩, ⟨_, rfl, rfl⟩⟩
theorem witness_ResetValues : 0 < (0x004 : BitVec 24).toNat ∧ (0xFFC : BitVec 24).toNat < 0x001000 ∧
    65535 < Config.inMax ∧ 65535 < Config.outMax := by decide

/-- A good state in the middle of a command whose step is taken: for the invariants. -/
theorem witness_StepKeeps :
    let s := { midDecode with cmd := some 0x00000106 }
    RamsGood s ∧ ReaderGood s.bs ∧ SlotsGood s ∧ StatusGood s ∧ OutputGood s ∧ HeaderGood s ∧
      Completes (step s) (fun t => t.result = 3) := by
  refine ⟨⟨⟨by decide, by decide⟩, ⟨by decide, by decide⟩, ⟨by decide, by decide⟩⟩,
    witness_TreeDecodeReturnsTheSymbol.2.2.2.2.2.1, ?_, ⟨by decide, by decide, by decide⟩, ⟨by decide, ?_⟩,
    ⟨by decide, by decide⟩, ⟨_, rfl, by decide⟩⟩
  · intro k
    cases k
    · exact Or.inl rfl
    · exact good_midDecode
    · exact Or.inl rfl
    · exact Or.inl rfl
  · intro i _ hi
    exact absurd hi (by simp [midDecode, onInput, State.reset])

end Sys2Proof.Tests
end

section
/-! PROOFS. The statements of 10_state.md: the invariants every step keeps, what RESULT holds after a command, what the host
reads and writes at each register, and the state after reset. -/

namespace Sys2Proof.Machine

/-! ## What a completion can change -/

/-- What a command may do to the slots: nothing, or one good value written to one slot (41_huffman.md R83). -/
def SlotWritten (a b : Trees) : Prop := b = a ∨ ∃ k v, SlotGood v ∧ b = a.set k v

/-- The completion of a command that has at most moved the reader, written ADLER_CALC and written one slot. -/
def PlainCompletion (e : ErrCode) (v : Word) (s t : State) : Prop :=
  ∃ bs trees adler, SlotWritten s.trees trees ∧
    t = completed e v { s with bs := bs, trees := trees, adlerCalc := adler }

/-- The commands that answer a value in RESULT (10_state.md R19). -/
def answersValue : Instr → Bool
  | .bsGet _ => true
  | .treeDecode _ => true
  | .inflate => true
  | .adler32 => true
  | _ => false

theorem PlainCompletion.unchanged (e : ErrCode) (v : Word) (s : State) : PlainCompletion e v s (completed e v s) :=
  ⟨s.bs, s.trees, s.adlerCalc, Or.inl rfl, rfl⟩

theorem PlainCompletion.reader (e : ErrCode) (v : Word) {s u : State} (h : u = { s with bs := u.bs }) :
    PlainCompletion e v s (completed e v u) :=
  ⟨u.bs, s.trees, s.adlerCalc, Or.inl rfl, by rw [h]⟩

theorem PlainCompletion.slot (e : ErrCode) (v : Word) (s : State) (k : Slot) {x : TreeSlot} (hx : SlotGood x) :
    PlainCompletion e v s (completed e v { s with trees := s.trees.set k x }) :=
  ⟨s.bs, s.trees.set k x, s.adlerCalc, Or.inr ⟨k, x, hx, rfl⟩, rfl⟩

theorem slotGood_cleared : SlotGood .cleared := Or.inl rfl

/-- What a TREE_BUILD past its operand check writes on success is a good slot (41_huffman.md R83, R84). -/
theorem slotGood_built (lens : List Nat) (count maxlen : Nat) (hp : treeParamBad count maxlen = false)
    (hc : lens.length = count) (hv : ValidLengths lens maxlen) : SlotGood (.built lens maxlen) := by
  simp only [treeParamBad, Bool.or_eq_false_iff, decide_eq_false_iff_not, not_lt] at hp
  obtain ⟨⟨h1, h16⟩, hcap⟩ := hp
  exact Or.inr ⟨rfl, hc ▸ hcap, h1, h16, hv⟩

/-- BS_GET and BS_SKIP end with one completion that has moved the reader only (40_bitstream.md R75, R76). -/
theorem getBits_plain (n : Nat) (k : Word → Word) (s t : State)
    (h : runCommand (do let v ← getBits n; pure (k v)) s = .next t) :
    (∃ v, PlainCompletion .ok (k v) s t) ∨ ∃ e, PlainCompletion e 0 s t := by
  rcases getBits_next n k s t h with ⟨_, _, v, u, hr, rfl⟩ | ⟨_, rfl⟩ | ⟨_, _, rfl⟩ | ⟨_, _, _, rfl⟩
  · have ho := bsGet_only n s
    rw [hr] at ho
    exact Or.inl ⟨v, .reader _ _ ho.1⟩
  all_goals exact Or.inr ⟨_, .unchanged _ _ s⟩

/-- Every command but INFLATE ends with one completion, and with RESULT 0 unless it is a success of a command that answers a
value (10_state.md R19, 60_exceptions.md R115, R121). -/
theorem exec_plain (i : Instr) (s t : State) (hi : i ≠ .inflate) (h : exec i s = .next t) :
    ∃ e v, PlainCompletion e v s t ∧ (v = 0 ∨ e = .ok ∧ answersValue i = true) := by
  cases i with
  | inflate => exact absurd rfl hi
  | nop =>
    obtain rfl : completed .ok 0 s = t := by simpa [exec, execNop, complete_eq_completed] using h
    exact ⟨.ok, 0, .unchanged _ _ s, Or.inl rfl⟩
  | bsInit =>
    obtain rfl : completed .ok 0 { s with bs := Reader.start s.cmdMode } = t := by
      simpa [exec, execBsInit, complete_eq_completed] using h
    exact ⟨.ok, 0, .reader _ _ rfl, Or.inl rfl⟩
  | bsAlign =>
    obtain rfl : completed .ok 0 { s with bs := s.bs.align } = t := by
      simpa [exec, execBsAlign, complete_eq_completed] using h
    exact ⟨.ok, 0, .reader _ _ rfl, Or.inl rfl⟩
  | bsGet n =>
    rcases getBits_plain n id s t (by simpa [exec, execBsGet] using h) with ⟨v, hp⟩ | ⟨e, hp⟩
    · exact ⟨.ok, v, hp, Or.inr ⟨rfl, rfl⟩⟩
    · exact ⟨e, 0, hp, Or.inl rfl⟩
  | bsSkip n =>
    rcases getBits_plain n (fun _ => 0) s t h with ⟨_, hp⟩ | ⟨e, hp⟩
    · exact ⟨.ok, 0, hp, Or.inl rfl⟩
    · exact ⟨e, 0, hp, Or.inl rfl⟩
  | treeBuild k count maxlen =>
    rcases treeBuild_next k count maxlen s t h with
      ⟨_, rfl⟩ | ⟨hp, lens, _, hc, ⟨_, rfl⟩ | ⟨_, _, rfl⟩ | ⟨hv, rfl⟩⟩
    · exact ⟨_, 0, .unchanged _ _ s, Or.inl rfl⟩
    · exact ⟨_, 0, .slot _ _ s k slotGood_cleared, Or.inl rfl⟩
    · exact ⟨_, 0, .slot _ _ s k slotGood_cleared, Or.inl rfl⟩
    · exact ⟨_, 0, .slot _ _ s k (slotGood_built lens count maxlen hp hc hv), Or.inl rfl⟩
  | treeDecode k =>
    have ho := hufDecode_only k s
    rcases treeDecode_next k s t h with
      ⟨_, rfl⟩ | ⟨_, _, rfl⟩ | ⟨_, _, ⟨sym, u, hr, rfl⟩ | ⟨e, u, hr, _, rfl⟩⟩
    · exact ⟨_, 0, .unchanged _ _ s, Or.inl rfl⟩
    · exact ⟨_, 0, .unchanged _ _ s, Or.inl rfl⟩
    · rw [hr] at ho
      exact ⟨_, _, .reader _ _ ho.1, Or.inr ⟨rfl, rfl⟩⟩
    · rw [hr] at ho
      exact ⟨_, 0, .reader _ _ ho.2.1, Or.inl rfl⟩
  | adler32 =>
    rcases adler32_next s t h with ⟨_, rfl⟩ | ⟨_, bytes, _, _, rfl⟩
    · exact ⟨_, 0, .unchanged _ _ s, Or.inl rfl⟩
    · exact ⟨_, _, ⟨s.bs, s.trees, _, Or.inl rfl, rfl⟩, Or.inr ⟨rfl, rfl⟩⟩

/-- The engine's step ends with a plain completion or with that of an INFLATE past its argument checks. -/
theorem engineStep_completes (w : Word) (s t : State) (h : engineStep w s = .next t) :
    (∃ e v, PlainCompletion e v s t) ∨
      (InflateArgsGood s ∧ ∃ e u, t = inflateDone e u ∧ EngineFrame (inflateInit s) u ∧ Going u) := by
  rcases engineStep_next w s t h with ⟨i, _, hx⟩ | ⟨_, rfl⟩
  · by_cases hi : i = .inflate
    · subst hi
      rcases inflate_next s t hx with ⟨_, rfl⟩ | ⟨hg, e, u, ht, hf, hgo, _⟩
      · exact Or.inl ⟨_, _, .unchanged _ _ s⟩
      · exact Or.inr ⟨hg, e, u, ht, hf, hgo⟩
    · obtain ⟨e, v, hp, _⟩ := exec_plain i s t hi hx
      exact Or.inl ⟨e, v, hp⟩
  · exact Or.inl ⟨_, _, .unchanged _ _ s⟩

/-! ## Invariants of the step -/

/-- I is kept by every step when the host's list and the count before the engine's step do not matter to it and a plain
completion, an INFLATE past its argument checks and a host action each keep it (70_reset_and_hazards.md R133). -/
theorem step_keeps (I : State → Prop)
    (hturn : ∀ s host wait, I s → I { s with host := host, wait := wait })
    (hplain : ∀ e v s t, I s → PlainCompletion e v s t → I t)
    (hinflate : ∀ s e u, I s → InflateArgsGood s → EngineFrame (inflateInit s) u → Going u → I (inflateDone e u))
    (hhost : ∀ a s t, I s → hostAction a s = .next t → I t)
    (s t : State) (hs : I s) (h : step s = .next t) : I t := by
  rcases step_next s t h with ⟨_, _, rfl⟩ | ⟨w, _, _, hw⟩ | ⟨a, rest, n, _, _, ha⟩
  · exact hs
  · rcases engineStep_completes w s t hw with ⟨e, v, hp⟩ | ⟨hg, e, u, rfl, hf, hgo⟩
    · exact hplain e v s t hs hp
    · exact hinflate s e u hs hg hf hgo
  · exact hhost a _ t (hturn s rest n hs) ha

/-- A window write leaves every written byte written (20_memory.md R44). -/
theorem writeWindow_keeps_written (size : Nat) (m : Memory Byte) (i : Nat) (v : Word) (n a k : Nat) (h : Written m a k) :
    Written (writeWindow size m i v n) a k := by
  intro b hb hk
  rw [(writeWindow_spec size m i v n).2 b]
  split
  · rfl
  · exact h b hb hk

/-- Without a reset the host reaches no slot and none of the engine's registers, and of OUT it only writes bytes
(10_state.md R14, R36). -/
theorem hostAction_engine (a : HostAction) (s t : State) (h : hostAction a s = .next t) :
    t = hostReset s ∨ (t.trees = s.trees ∧ t.outPos = s.outPos ∧ t.zhdr = s.zhdr ∧ t.blkinfo = s.blkinfo ∧
      ∀ n k, Written s.outRam n k → Written t.outRam n k) := by
  cases a with
  | reset => exact Or.inl (by simpa [hostAction] using h.symm)
  | read w addr =>
    rcases hostRead_next w addr s t h with ⟨v, rfl⟩ | ⟨_, v, rfl⟩
    all_goals exact Or.inr ⟨rfl, rfl, rfl, rfl, fun _ _ hw => hw⟩
  | write w addr v =>
    right
    rcases hostWrite_next w addr v s t h with rfl | rfl | ⟨_, rfl⟩ | ⟨_, rfl⟩ | ⟨_, _, rfl⟩ | ⟨_, _, _, _, rfl⟩ |
      ⟨_, _, _, rfl⟩ | ⟨_, _, rfl⟩ | ⟨_, i, rfl⟩
    iterate 8 · exact ⟨rfl, rfl, rfl, rfl, fun _ _ hw => hw⟩
    · exact ⟨rfl, rfl, rfl, rfl, fun n k hw => writeWindow_keeps_written _ _ i v _ n k hw⟩

/-! ### The reset state -/

theorem slotsGood_reset : SlotsGood State.reset := fun k => by cases k <;> exact slotGood_cleared

theorem statusGood_reset : StatusGood State.reset := ⟨rfl, fun h => h, fun h => by simp [State.busy, State.reset] at h⟩

theorem outputGood_of_outPos_zero (s : State) (h : s.outPos = 0) : OutputGood s :=
  ⟨by rw [h]; exact Nat.zero_le _, fun i _ hi => by omega⟩

theorem headerGood_of_zero (s : State) (hz : s.zhdr = 0) (hb : s.blkinfo = 0) : HeaderGood s := by
  rw [HeaderGood, hz, hb]
  exact ⟨rfl, rfl⟩

theorem ramGood_nil {α : Type} (size : Nat) : RamGood size ([] : Memory α) := ⟨List.Pairwise.nil, by simp⟩

/-- Settles O55: each invariant holds of the reset values. -/
theorem resetIsGood : Obligations.ResetIsGood :=
  ⟨⟨ramGood_nil _, ramGood_nil _, ramGood_nil _⟩, readerGood_start .deflate, slotsGood_reset, statusGood_reset,
    outputGood_of_outPos_zero _ rfl, headerGood_of_zero _ rfl rfl⟩

/-! ### The slots -/

theorem slotsGood_congr {s t : State} (h : t.trees = s.trees) (hs : SlotsGood s) : SlotsGood t := by
  intro k
  rw [h]
  exact hs k

theorem slotsGood_plain (e : ErrCode) (v : Word) (s t : State) (hs : SlotsGood s) (h : PlainCompletion e v s t) :
    SlotsGood t := by
  obtain ⟨bs, trees, adler, ht, rfl⟩ := h
  intro j
  rcases ht with rfl | ⟨k, x, hx, rfl⟩
  · exact hs j
  · by_cases hj : j = k
    · subst hj
      simpa [completed] using hx
    · simpa [completed, trees_get_set_other _ _ _ _ hj] using hs j

/-- INFLATE ends with T0, T1 and T2 cleared and T3 as it was (42_inflate.md R108). -/
theorem slotsGood_inflateDone (s : State) (e : ErrCode) (u : State) (hs : SlotsGood s)
    (hf : EngineFrame (inflateInit s) u) : SlotsGood (inflateDone e u) := by
  have h3 : u.trees.t3 = s.trees.t3 := hf.t3
  intro k
  cases k with
  | t3 => simpa [Trees.get, h3] using hs .t3
  | _ => exact slotGood_cleared

/-- Settles O58: a command writes at most one good slot or ends as INFLATE does, and the host reaches no slot but by reset. -/
theorem stepKeepsSlots : Obligations.StepKeepsSlots := by
  refine fun s t hs h => step_keeps SlotsGood (fun _ _ _ hs => hs) slotsGood_plain
    (fun s e u hs _ hf _ => slotsGood_inflateDone s e u hs hf) (fun a s t hs ha => ?_) s t hs h
  rcases hostAction_engine a s t ha with rfl | ⟨htrees, _⟩
  · exact slotsGood_reset
  · exact slotsGood_congr htrees hs

/-! ### OUT, ZHDR and BLKINFO -/

/-- What INFLATE has written lies below OUT_CAP, which its argument check has bounded by OUT_MAX (42_inflate.md R90, R105). -/
theorem outputGood_inflateDone (s : State) (e : ErrCode) (u : State) (hg : InflateArgsGood s)
    (hf : EngineFrame (inflateInit s) u) (hu : Going u) : OutputGood (inflateDone e u) := by
  obtain ⟨_, _, hcap⟩ := hg
  obtain ⟨_, _, _, _, hwritten⟩ := hu
  have hpos : u.outPos ≤ max 0 s.outCap.toNat := hf.cap
  have hmax : u.outPos ≤ Config.outMax := by omega
  exact ⟨hmax, hwritten⟩

/-- Settles O60: only INFLATE writes OUT_POS, ZHDR and BLKINFO, starting from 0, and a host write leaves OUT's bytes written. -/
theorem stepKeepsInflateRegisters : Obligations.StepKeepsInflateRegisters := by
  refine fun s t ho hh h => step_keeps (fun s => OutputGood s ∧ HeaderGood s) (fun _ _ _ hs => hs) ?_ ?_ ?_ s t ⟨ho, hh⟩ h
  · rintro e v s t hs ⟨bs, trees, adler, _, rfl⟩
    exact hs
  · intro s e u _ hg hf hu
    exact ⟨outputGood_inflateDone s e u hg hf hu, hf.header (headerGood_of_zero _ rfl rfl)⟩
  · rintro a s t ⟨⟨hmax, hwritten⟩, hheader⟩ ha
    rcases hostAction_engine a s t ha with rfl | ⟨_, hpos, hzhdr, hblk, hout⟩
    · exact ⟨outputGood_of_outPos_zero _ rfl, headerGood_of_zero _ rfl rfl⟩
    · refine ⟨⟨by rw [hpos]; exact hmax, ?_⟩, ?_⟩
      · rw [hpos]
        exact hout _ _ hwritten
      · rw [HeaderGood, hzhdr, hblk]
        exact hheader

/-! ### STATUS -/

/-- Any completion leaves ERR and ERRCODE agreeing and BUSY 0; CKOK and CKPRES are the engine's (60_exceptions.md R115). -/
theorem statusGood_completed (e : ErrCode) (v : Word) (u : State) (h : u.status.ckok = true → u.status.ckpres = true) :
    StatusGood (completed e v u) := ⟨rfl, h, fun hb => by simp [State.busy] at hb⟩

/-- STATUS and RESULT are consistent after anything that leaves them and BUSY alone. -/
theorem statusGood_congr {s t : State} (hst : t.status = s.status) (hc : t.cmd = s.cmd) (hr : t.result = s.result)
    (hs : StatusGood s) : StatusGood t := by
  rw [StatusGood, State.busy, hst, hc, hr]
  exact hs

/-- Of the host's actions an acceptance, a refused CMD write, a STATUS write and a reset reach STATUS (10_state.md R17, R18). -/
theorem statusGood_hostAction (a : HostAction) (s t : State) (hs : StatusGood s) (h : hostAction a s = .next t) :
    StatusGood t := by
  obtain ⟨herr, hck, hbusy⟩ := hs
  cases a with
  | reset =>
    obtain rfl : hostReset s = t := by simpa [hostAction] using h
    exact statusGood_congr (s := State.reset) rfl rfl rfl statusGood_reset
  | read w addr =>
    rcases hostRead_next w addr s t h with ⟨v, rfl⟩ | ⟨_, v, rfl⟩
    all_goals exact ⟨herr, hck, hbusy⟩
  | write w addr v =>
    rcases hostWrite_next w addr v s t h with rfl | rfl | ⟨_, rfl⟩ | ⟨_, rfl⟩ | ⟨_, _, rfl⟩ | ⟨_, _, _, _, rfl⟩ |
      ⟨_, _, _, rfl⟩ | ⟨_, _, rfl⟩ | ⟨_, _, rfl⟩
    iterate 3 · exact ⟨herr, hck, hbusy⟩
    · exact ⟨rfl, hck, fun _ => ⟨rfl, rfl, rfl⟩⟩
    · refine ⟨herr, hck, fun hb => ?_⟩
      obtain ⟨hdone, hcode, hresult⟩ := hbusy hb
      exact ⟨by simp [Status.writeOneToClear, hdone], hcode, hresult⟩
    all_goals exact ⟨herr, hck, hbusy⟩

/-- Settles O59: each completion and each host action leaves STATUS consistent; INFLATE sets CKOK only after CKPRES. -/
theorem stepKeepsStatus : Obligations.StepKeepsStatus := by
  refine fun s t hs h => step_keeps StatusGood (fun _ _ _ hs => hs) ?_ ?_ statusGood_hostAction s t hs h
  · rintro e v s t ⟨_, hck, _⟩ ⟨bs, trees, adler, _, rfl⟩
    exact statusGood_completed e v _ hck
  · intro s e u _ _ hf _
    exact statusGood_completed e _ _ (hf.check fun h => h)

/-! ## RESULT -/

/-- Settles O11: every command but INFLATE completes with RESULT 0 unless it succeeds with a value; INFLATE raises
ARG_LEN_RANGE only in its argument check. -/
theorem resultIsZeroOtherwise : Obligations.ResultIsZeroOtherwise := by
  intro i s t h
  by_cases hi : i = .inflate
  · subst hi
    refine ⟨fun _ hne => absurd rfl hne, fun hlen => ?_, trivial⟩
    rcases inflate_next s t h with ⟨_, rfl⟩ | ⟨_, e, u, rfl, _, _, ⟨rfl, _⟩ | ⟨he, _⟩⟩
    · rfl
    · simp at hlen
    · simp only [inflateDone_status] at hlen
      simp [InflateCode, hlen] at he
  · obtain ⟨e, v, ⟨bs, trees, adler, _, rfl⟩, hv⟩ := exec_plain i s t hi h
    have herr : e ≠ .ok → v = 0 := fun hne => hv.resolve_right fun hok => hne hok.1
    have hnone : answersValue i = false → v = 0 := fun hi => hv.resolve_right fun hok => by simp [hi] at hok
    refine ⟨fun hne _ => herr hne, fun hlen => herr (by rintro rfl; simp [completed] at hlen), ?_⟩
    cases i with
    | bsGet _ => trivial
    | treeDecode _ => trivial
    | inflate => trivial
    | adler32 => trivial
    | _ => exact hnone rfl

end Sys2Proof.Machine
end

section
/-! PROOFS. The statements of 10_state.md about the register map: what the host reads and writes at each register, the words
STATUS and TREE_INFO, and the reset values. -/

namespace Sys2Proof.Machine

/-! ## Accesses of the register file -/

/-- A host read inside the contract, while not BUSY or of ID, CTRL or STATUS, reads its target (20_memory.md R46, R52). -/
theorem hostRead_target (s : State) (w : Width) (addr : BitVec 24) (x : Target) (hx : target w addr = some x)
    (hb : s.busy = false ∨ readableWhileBusy x = true) : hostRead w addr s = readTarget w x s := by
  rcases hb with hb | hb <;> simp [hostRead, hx, hb]

/-- An aligned 32-bit read of the register file answers the register at its address (20_memory.md R43). -/
theorem hostRead_register (s : State) (addr : BitVec 24) (h : addr.toNat < 0x001000) (ha : addr.toNat % 4 = 0)
    (hb : s.busy = false ∨ readableWhileBusy (.reg addr.toNat) = true) :
    hostRead .w32 addr s = .next { s with rdata := readReg s addr.toNat } := by
  rw [hostRead_target s .w32 addr _ (target_register addr h ha) hb, readTarget]

/-- An aligned 32-bit write of the register file is a write of the register at its address (20_memory.md R43). -/
theorem hostWrite_register (s : State) (addr : BitVec 24) (v : Word) (h : addr.toNat < 0x001000)
    (ha : addr.toNat % 4 = 0) : hostWrite .w32 addr v s = writeReg addr addr.toNat v s := by
  simp only [hostWrite, target_register addr h ha]

/-! ## Reading the registers -/

/-- The register map: the address of each register and the value a read of it returns (10_state.md R14 to R33). -/
def registerMap (s : State) : List (BitVec 24 × Word) :=
  [(0x000, 0x42524931), (0x004, s.ctrl.word), (0x008, 0), (0x00C, s.statusWord), (0x010, s.result), (0x014, s.arg),
   (0x018, s.inLen), (0x01C, s.outCap), (0x020, BitVec.ofNat 32 s.bs.offset),
   (0x024, (BitVec.ofNat 7 s.bs.bitcnt).setWidth 32), (0x02C, if s.bs.mode = .lzx then 1 else 0),
   (0x028, BitVec.ofNat 32 (8 * s.bs.offset - s.bs.bitcnt)), (0x030, BitVec.ofNat 32 s.outPos), (0x034, s.zhdr),
   (0x038, s.dictid), (0x03C, s.adlerCalc), (0x040, s.adlerStored), (0x044, s.blkinfo), (0x048, s.trees.t0.info),
   (0x04C, s.trees.t1.info), (0x050, s.trees.t2.info), (0x054, s.trees.t3.info)]

theorem bit_toBit (m : BitOrder) : bit m.toBit = if m = .lzx then 1 else 0 := by cases m <;> rfl

/-- Each entry of the register map is an aligned address of the register file with what its register reads. -/
theorem readReg_registerMap (s : State) :
    ∀ r ∈ registerMap s, r.1.toNat < 0x001000 ∧ r.1.toNat % 4 = 0 ∧ readReg s r.1.toNat = r.2 := by
  simp [registerMap, readReg, Config.idWord, bit_toBit, Reader.bitpos]

/-- A reserved register offset reads 0 (10_state.md R34). -/
theorem readReg_reserved (s : State) (o : Nat) (h : 0x058 ≤ o) : readReg s o = 0 := by
  unfold readReg
  split
  case h_22 => rfl
  all_goals omega

/-- Settles O40: a register read answers its entry of the register map, or 0 past the last register. -/
theorem registerReads : Obligations.RegisterReads := by
  rintro s hb addr v (hmap | ⟨hlo, hhi, ha, rfl⟩)
  · obtain ⟨hlt, ha, hv⟩ := readReg_registerMap s (addr, v) hmap
    rw [hostRead_register s addr hlt ha (Or.inl hb)]
    simp only at hv
    rw [hv]
  · rw [hostRead_register s addr (by omega) ha (Or.inl hb), readReg_reserved s _ hlo]

/-! ## Writing the registers -/

/-- The offsets of the registers a host write reaches: CTRL, CMD, STATUS, ARG, IN_LEN and OUT_CAP (10_state.md R14). -/
def writableOffsets : List Nat := [0x004, 0x008, 0x00C, 0x014, 0x018, 0x01C]

/-- A write to any other offset is ignored (20_memory.md R48, 10_state.md R34). -/
theorem writeReg_ignored (addr : BitVec 24) (o : Nat) (v : Word) (s : State) (h : o ∉ writableOffsets) :
    writeReg addr o v s = .next s := by
  unfold writeReg
  split
  case h_7 => rfl
  all_goals simp [writableOffsets] at h

theorem readOnlyRegisters_offset :
    ∀ addr ∈ readOnlyRegisters, addr.toNat < 0x001000 ∧ addr.toNat % 4 = 0 ∧ addr.toNat ∉ writableOffsets := by
  simp [readOnlyRegisters, writableOffsets]

theorem hostWrite_readOnly (s : State) (v : Word) (addr : BitVec 24) (h : addr ∈ readOnlyRegisters) :
    hostWrite .w32 addr v s = .next s := by
  obtain ⟨hlt, ha, hr⟩ := readOnlyRegisters_offset addr h
  rw [hostWrite_register s addr v hlt ha, writeReg_ignored addr _ v s hr]

/-- Settles O48: the write is the acceptance. -/
theorem cmdWriteAccepts : Obligations.CmdWriteAccepts := by
  intro s w hb
  refine ⟨accept w s, ?_, accept_busy w s, rfl⟩
  rw [hostWrite_register s 0x000008 w (by decide) (by decide)]
  simp [writeReg, hb]

/-- One bit as a word holds it at bit 0 and nothing else. -/
theorem bit_getLsbD (b : Bool) (i : Nat) : (bit b).getLsbD i = (b && decide (i = 0)) := by
  cases b <;> simp [bit]

theorem toBit_ofBit (b : Bool) : (BitOrder.ofBit b).toBit = b := by cases b <;> rfl

/-- CTRL keeps bits 1:0 of what is written to it and reads them back (10_state.md R16). -/
theorem ctrl_ofWord_word (v : Word) : (Ctrl.ofWord v).word = v &&& 3 := by
  apply BitVec.eq_of_getLsbD_eq
  intro i hi
  simp only [Ctrl.word, Ctrl.ofWord, toBit_ofBit, BitVec.getLsbD_or, BitVec.getLsbD_shiftLeft, bit_getLsbD,
    BitVec.getLsbD_and]
  interval_cases i <;> simp

/-- Settles O50: each write is the field update of its register, and a read of it answers the field. -/
theorem statusAndCtrlWrites : Obligations.StatusAndCtrlWrites := by
  intro s v
  have hctrl : hostRead .w32 0x000004 { s with ctrl := Ctrl.ofWord v }
      = .next { s with ctrl := Ctrl.ofWord v, rdata := v &&& 3 } := by
    rw [← ctrl_ofWord_word v]
    exact hostRead_register _ 0x000004 (by decide) (by decide) (Or.inr rfl)
  refine ⟨hostWrite_register s 0x00000C v (by decide) (by decide),
    ⟨_, hostWrite_register s 0x000004 v (by decide) (by decide), rfl, ctrl_ofWord_word v, rfl, hctrl⟩, fun hb => ?_⟩
  refine ⟨⟨?_, hostRead_register _ 0x000014 (by decide) (by decide) (Or.inl hb)⟩,
    ⟨?_, hostRead_register _ 0x000018 (by decide) (by decide) (Or.inl hb)⟩,
    ⟨?_, hostRead_register _ 0x00001C (by decide) (by decide) (Or.inl hb)⟩, hostWrite_readOnly s v⟩
  all_goals
    rw [hostWrite_register s _ v (by decide) (by decide)]
    simp [writeReg, hb]

/-! ## The words STATUS and TREE_INFO -/

/-- A field of a word from its bits. -/
theorem extractLsb'_eq_of_bits (w : Word) (lo n : Nat) (v : BitVec n)
    (h : ∀ i < n, w.getLsbD (lo + i) = v.getLsbD i) : w.extractLsb' lo n = v := by
  apply BitVec.eq_of_getLsbD_eq
  intro i hi
  rw [BitVec.getLsbD_extractLsb', h i hi]
  simp [hi]

/-- A field of a word as a number, from its bits. -/
theorem field_eq_of_bits (w : Word) (lo n x : Nat) (hx : x < 2 ^ n) (h : ∀ i < n, w.getLsbD (lo + i) = x.testBit i) :
    field w lo n = x := by
  have e : w.extractLsb' lo n = BitVec.ofNat n x :=
    extractLsb'_eq_of_bits w lo n _ fun i hi => by
      rw [h i hi, BitVec.getLsbD_ofNat]
      simp [hi]
  rw [field, e, BitVec.toNat_ofNat, Nat.mod_eq_of_lt hx]

/-- STATUS bit by bit (10_state.md R18). -/
theorem statusWord_getLsbD (s : State) (i : Nat) (h : i < 32) : s.statusWord.getLsbD i =
    if i = 0 then s.busy else if i = 1 then s.status.done else if i = 2 then s.status.err
    else if i = 3 then s.status.ovr else if i < 8 then false
    else if i < 16 then s.status.errcode.code.getLsbD (i - 8)
    else if i = 16 then s.status.ckpres else if i = 17 then s.status.ckok else if i = 18 then s.status.fdict
    else false := by
  simp only [State.statusWord, BitVec.getLsbD_or, BitVec.getLsbD_shiftLeft, bit_getLsbD, BitVec.getLsbD_setWidth]
  interval_cases i <;> simp

theorem statusWord_errcode (s : State) : s.statusWord.extractLsb' 8 8 = s.status.errcode.code := by
  refine extractLsb'_eq_of_bits _ 8 8 _ fun i hi => ?_
  rw [statusWord_getLsbD s _ (by omega)]
  interval_cases i <;> simp

theorem errCode_code_eq_zero (e : ErrCode) : e.code = 0 ↔ e = .ok := by cases e <;> decide

/-- Settles O41: every part is read off the bits of STATUS, and ERRCODE off the error table. -/
theorem statusWordLayout : Obligations.StatusWordLayout := by
  intro s
  refine ⟨statusWord_getLsbD s 0 (by decide), statusWord_getLsbD s 1 (by decide), statusWord_getLsbD s 2 (by decide),
    statusWord_getLsbD s 3 (by decide), ?_, statusWord_getLsbD s 16 (by decide), statusWord_getLsbD s 17 (by decide),
    statusWord_getLsbD s 18 (by decide), ?_, ?_, ?_⟩
  · refine extractLsb'_eq_of_bits _ 4 4 _ fun i hi => ?_
    rw [statusWord_getLsbD s _ (by omega)]
    interval_cases i <;> simp
  · refine extractLsb'_eq_of_bits _ 19 13 _ fun i hi => ?_
    rw [statusWord_getLsbD s _ (by omega)]
    interval_cases i <;> simp
  · rw [statusWord_errcode]
    cases s.status.errcode <;> decide
  · rw [statusWord_errcode]
    exact errCode_code_eq_zero _

/-- TREE_INFO bit by bit (10_state.md R33). -/
theorem info_getLsbD (t : TreeSlot) (i : Nat) (h : i < 32) : t.info.getLsbD i =
    if i < 10 then t.count.testBit i else if i < 16 then false
    else if i < 21 then t.maxlen.testBit (i - 16) else if i < 24 then false
    else if i < 29 then t.lmax.testBit (i - 24) else if i < 31 then false else t.valid := by
  simp only [TreeSlot.info, BitVec.getLsbD_or, BitVec.getLsbD_shiftLeft, bit_getLsbD, BitVec.getLsbD_setWidth,
    BitVec.getLsbD_ofNat]
  interval_cases i <;> simp

/-- The fields of a good slot fit their bits of TREE_INFO (10_state.md R33, R36). -/
theorem slotGood_bounds (t : TreeSlot) (h : SlotGood t) : t.count ≤ 512 ∧ t.maxlen ≤ 16 ∧ t.lmax ≤ 16 := by
  rcases h with rfl | ⟨ht, hcap, _, h16, hlong, _⟩
  · decide
  · have hcount : t.count = t.lens.length := congrArg TreeSlot.count ht
    have hlmax : t.lmax = t.lens.foldl max 0 := congrArg TreeSlot.lmax ht
    have hle : ∀ l ∈ t.lens, l ≤ t.maxlen := by simpa [lenTooLong] using hlong
    have hl : t.lmax ≤ t.maxlen := by
      rcases (foldl_max_spec t.lens 0).2.2 with h0 | hmem
      · omega
      · rw [hlmax]
        exact hle _ hmem
    simp only [Config.treeCap, Config.maxlenLimit] at hcap h16
    omega

theorem slotGood_invalid (t : TreeSlot) (h : SlotGood t) (hv : t.valid = false) : t = .cleared := by
  rcases h with h | ⟨ht, _⟩
  · exact h
  · rw [ht] at hv
    simp [TreeSlot.built] at hv

/-- Settles O42: a good slot's fields fit their bits, and only the cleared slot is not valid. -/
theorem treeInfoLayout : Obligations.TreeInfoLayout := by
  intro t h
  obtain ⟨hcount, hmaxlen, hlmax⟩ := slotGood_bounds t h
  refine ⟨?_, ?_, ?_, ?_, ?_, ?_, info_getLsbD t 31 (by decide), fun hv => ?_⟩
  case refine_7 => rw [slotGood_invalid t h hv]; decide
  all_goals
    refine field_eq_of_bits _ _ _ _ (by omega) fun i hi => ?_
    rw [info_getLsbD t _ (by omega)]
    interval_cases i <;> simp

/-! ## After reset -/

theorem readReg_reset (o : Nat) (h : o ≠ 0) : readReg State.reset o = 0 := by
  unfold readReg
  split
  case h_1 => exact absurd rfl h
  all_goals rfl

theorem readWindow_unwritten (size i : Nat) (h : i < size) : readWindow size [] i 1 = .error i := by
  simp [readWindow, Nat.not_le.mpr h]

/-- Settles O53: after reset only ID is not 0 and no RAM location is written. -/
theorem resetValues : Obligations.ResetValues := by
  have hid := hostRead_register State.reset 0x000000 (by decide) (by decide) (Or.inl rfl)
  refine ⟨hid, fun addr hpos hlt ha => ?_, rfl, fun k => by cases k <;> rfl, rfl, rfl, rfl, fun i hi => ?_,
    fun i hi => ?_, fun i hi => ?_⟩
  · rw [hostRead_register _ addr hlt ha (Or.inl rfl), readReg_reset _ (by omega)]
  · have hi' : i < 0x400000 := Nat.lt_trans hi (by decide)
    rw [hostRead_target _ _ _ _ (target_inByte .w8 i hi' (Nat.mod_one i)) (Or.inl rfl)]
    simp only [readTarget, State.reset, Width.bytes, readWindow_unwritten _ i hi]
  · have hi' : i < 0x400000 := Nat.lt_trans hi (by decide)
    rw [hostRead_target _ _ _ _ (target_outByte .w8 i hi' (Nat.mod_one i)) (Or.inl rfl)]
    simp only [readTarget, State.reset, Width.bytes, readWindow_unwritten _ i hi]
  · rw [hostRead_target _ _ _ _ (target_clenEntry i hi) (Or.inl rfl)]
    rfl

end Sys2Proof.Machine
end

section
/-! PROOFS. The statements of 20_memory.md about the step: the RAMs every step keeps good, and the command that waits for the
engine. -/

namespace Sys2Proof.Machine

/-! ## The RAMs -/

/-- INFLATE stores into OUT only, below OUT_CAP, which its argument check has bounded by OUT_MAX (20_memory.md R49,
42_inflate.md R90, R105). -/
theorem ramsGood_inflateDone (s : State) (e : ErrCode) (u : State) (hs : RamsGood s) (hg : InflateArgsGood s)
    (hf : EngineFrame (inflateInit s) u) : RamsGood (inflateDone e u) := by
  obtain ⟨hin, hout, hclen⟩ := hs
  obtain ⟨_, _, hcap⟩ := hg
  have huin : u.inRam = s.inRam := hf.inRam
  have huclen : u.clen = s.clen := by rw [hf.same]; rfl
  refine ⟨?_, hf.ram Config.outMax hcap hout, ?_⟩
  · rw [inflateDone_inRam, huin]
    exact hin
  · rw [inflateDone_clen, huclen]
    exact hclen

/-- A host write stores inside the RAM its address names, and a reset leaves every RAM unwritten (20_memory.md R42, R47). -/
theorem ramsGood_hostAction (a : HostAction) (s t : State) (hs : RamsGood s) (h : hostAction a s = .next t) :
    RamsGood t := by
  obtain ⟨hin, hout, hclen⟩ := hs
  cases a with
  | reset =>
    obtain rfl : hostReset s = t := by simpa [hostAction] using h
    exact ⟨ramGood_nil _, ramGood_nil _, ramGood_nil _⟩
  | read w addr =>
    rcases hostRead_next w addr s t h with ⟨v, rfl⟩ | ⟨_, v, rfl⟩
    all_goals exact ⟨hin, hout, hclen⟩
  | write w addr v =>
    rcases hostWrite_next w addr v s t h with rfl | rfl | ⟨_, rfl⟩ | ⟨_, rfl⟩ | ⟨_, _, rfl⟩ | ⟨_, _, _, _, rfl⟩ |
      ⟨_, i, hi, rfl⟩ | ⟨_, i, rfl⟩ | ⟨_, i, rfl⟩
    iterate 6 · exact ⟨hin, hout, hclen⟩
    · exact ⟨hin, hout, ramGood_write _ _ i _ hclen hi⟩
    · exact ⟨(writeWindow_spec _ _ i v _).1 hin, hout, hclen⟩
    · exact ⟨hin, (writeWindow_spec _ _ i v _).1 hout, hclen⟩

/-- Settles O56: of the commands only INFLATE stores into a RAM, and a host write stores inside the RAM it names. -/
theorem stepKeepsRams : Obligations.StepKeepsRams := by
  refine fun s t hs h => step_keeps RamsGood (fun _ _ _ hs => hs) ?_
    (fun s e u hs hg hf _ => ramsGood_inflateDone s e u hs hg hf) ramsGood_hostAction s t hs h
  rintro e v s t hs ⟨bs, trees, adler, _, rfl⟩
  exact hs

/-! ## The waiting command -/

/-- While BUSY no host action but the reset reaches the command in progress or the mode taken with it (20_memory.md R54,
60_exceptions.md R122). -/
theorem hostAction_busy (a : HostAction) (s t : State) (hb : s.busy = true) (h : hostAction a s = .next t) :
    (a = .reset ∧ t = hostReset s) ∨
      (t.cmd = s.cmd ∧ t.cmdMode = s.cmdMode ∧ t.wait = s.wait ∧ t.host = s.host) := by
  have hidle : s.busy ≠ false := by simp [hb]
  cases a with
  | reset => exact Or.inl ⟨rfl, by simpa [hostAction] using h.symm⟩
  | read w addr =>
    rcases hostRead_next w addr s t h with ⟨v, rfl⟩ | ⟨_, v, rfl⟩
    all_goals exact Or.inr ⟨rfl, rfl, rfl, rfl⟩
  | write w addr v =>
    right
    rcases hostWrite_next w addr v s t h with rfl | rfl | ⟨_, rfl⟩ | ⟨hf, _⟩ | ⟨_, _, rfl⟩ | ⟨hf, _⟩ | ⟨hf, _⟩ |
      ⟨hf, _⟩ | ⟨hf, _⟩
    case inr.inr.inr.inr.inl => exact ⟨rfl, rfl, rfl, rfl⟩
    iterate 3 · exact ⟨rfl, rfl, rfl, rfl⟩
    all_goals exact absurd hf hidle

/-- Settles O8: such a step is a host action, and only the reset input reaches the command. -/
theorem waitingCommandIsKept : Obligations.WaitingCommandIsKept := by
  intro s t w hcmd hturn h
  rcases step_next s t h with ⟨hnone, _, _⟩ | ⟨_, _, hengine, _⟩ | ⟨a, rest, n, hhost, hwait, ha⟩
  · simp [hcmd] at hnone
  · exact absurd hengine hturn
  · have hn : n + 1 = s.wait := by simpa [hcmd] using hwait
    have hbusy : s.busy = true := by simp [State.busy, hcmd]
    rcases hostAction_busy a { s with host := rest, wait := n } t hbusy ha with
      ⟨rfl, rfl⟩ | ⟨hc, hmode, hw, hh⟩
    · exact Or.inr ⟨by simp [hhost], rfl, rfl⟩
    · exact Or.inl ⟨hc.trans hcmd, hmode, by rw [hw, hn], by rw [hh, hhost, List.length_cons]⟩

end Sys2Proof.Machine
end

section
/-! PROOFS. The statements of 20_memory.md about the host's accesses: which have a step, what the windows and CLEN store and
answer, what reserved locations do, and what is left of it while BUSY. -/

namespace Sys2Proof.Machine

/-! ## The host address map -/

theorem width_bytes_pos (w : Width) : 1 ≤ w.bytes := by cases w <;> decide

theorem width_bytes_le (w : Width) : w.bytes ≤ 4 := by cases w <;> decide

/-- An access of the wrong width or alignment has no target (20_memory.md R46). -/
theorem target_misaligned (w : Width) (addr : BitVec 24)
    (h : (addr.toNat < 0x001800 ∧ (w ≠ .w32 ∨ addr.toNat % 4 ≠ 0)) ∨
      (0x400000 ≤ addr.toNat ∧ addr.toNat < 0xC00000 ∧ addr.toNat % w.bytes ≠ 0)) : target w addr = none := by
  rw [target_eq w addr _ rfl]
  rcases h with ⟨hlt, hbad⟩ | ⟨hlo, hhi, hbad⟩
  · have hno : ¬ (w = .w32 ∧ addr.toNat % 4 = 0) := by tauto
    simp [hlt, hno]
  · simp [hbad, Nat.not_lt.mpr hlo, hhi, show ¬ addr.toNat < 0x001000 by omega, show ¬ addr.toNat < 0x001800 by omega]

/-- An access inside a reserved range of the address map reaches nothing (20_memory.md R42; log 9). -/
theorem target_reserved (w : Width) (addr : BitVec 24)
    (h : (0x001800 ≤ addr.toNat ∧ addr.toNat + w.bytes ≤ 0x400000) ∨
      (0xC00000 ≤ addr.toNat ∧ addr.toNat + w.bytes ≤ 0x1000000)) : target w addr = some .reserved := by
  have hpos := width_bytes_pos w
  rw [target_eq w addr _ rfl, if_neg (by omega), if_neg (by omega)]
  rcases h with ⟨_, hend⟩ | ⟨_, hend⟩
  · rw [if_pos (by omega), if_pos hend]
  · rw [if_neg (by omega), if_neg (by omega), if_neg (by omega), if_pos hend]

/-- A naturally aligned access of the IN window (20_memory.md R42, R44). -/
theorem target_inWindow (w : Width) (addr : BitVec 24) (hlo : 0x400000 ≤ addr.toNat) (hhi : addr.toNat < 0x800000)
    (ha : addr.toNat % w.bytes = 0) : target w addr = some (.inWindow (addr.toNat - 0x400000)) := by
  rw [target_eq w addr _ rfl, if_neg (by omega), if_neg (by omega), if_neg (by omega), if_pos hhi, if_pos ha]

/-- A naturally aligned access of the OUT window (20_memory.md R42, R44). -/
theorem target_outWindow (w : Width) (addr : BitVec 24) (hlo : 0x800000 ≤ addr.toNat) (hhi : addr.toNat < 0xC00000)
    (ha : addr.toNat % w.bytes = 0) : target w addr = some (.outWindow (addr.toNat - 0x800000)) := by
  rw [target_eq w addr _ rfl, if_neg (by omega), if_neg (by omega), if_neg (by omega), if_neg (by omega), if_pos hhi,
    if_pos ha]

/-- The targets that are elements of a RAM (10_state.md R39). -/
def Target.isRamElement : Target → Bool
  | .clen _ => true
  | .inWindow _ => true
  | .outWindow _ => true
  | _ => false

/-- An access of the CLEN, IN or OUT range that has a target reaches that RAM (20_memory.md R42). -/
theorem target_ram (w : Width) (addr : BitVec 24) (x : Target) (hx : target w addr = some x)
    (h : (0x001000 ≤ addr.toNat ∧ addr.toNat < 0x001800) ∨ (0x400000 ≤ addr.toNat ∧ addr.toNat < 0xC00000)) :
    x.isRamElement = true := by
  rw [target_eq w addr _ rfl, if_neg (by omega)] at hx
  rcases h with ⟨_, hclen⟩ | ⟨_, hout⟩
  · rw [if_pos hclen, Option.ite_none_right_eq_some, Option.some.injEq] at hx
    obtain ⟨_, rfl⟩ := hx
    rfl
  · rw [if_neg (by omega), if_neg (by omega)] at hx
    by_cases hin : addr.toNat < 0x800000
    · rw [if_pos hin, Option.ite_none_right_eq_some, Option.some.injEq] at hx
      obtain ⟨_, rfl⟩ := hx
      rfl
    · rw [if_neg hin, if_pos hout, Option.ite_none_right_eq_some, Option.some.injEq] at hx
      obtain ⟨_, rfl⟩ := hx
      rfl

/-! ## What an access of a RAM does while not BUSY -/

section
variable (s : State) (w : Width) (addr : BitVec 24) (i : Nat) (v : Word)

theorem hostRead_inWindow (hx : target w addr = some (.inWindow i)) (hb : s.busy = false)
    (h : readWindow Config.inMax s.inRam i w.bytes = .ok v) : hostRead w addr s = .next { s with rdata := v } := by
  rw [hostRead_target s w addr _ hx (Or.inl hb)]
  simp only [readTarget, h]

theorem hostRead_outWindow (hx : target w addr = some (.outWindow i)) (hb : s.busy = false)
    (h : readWindow Config.outMax s.outRam i w.bytes = .ok v) : hostRead w addr s = .next { s with rdata := v } := by
  rw [hostRead_target s w addr _ hx (Or.inl hb)]
  simp only [readTarget, h]

theorem hostRead_clen (l : BitVec 5) (hx : target w addr = some (.clen i)) (hb : s.busy = false)
    (h : s.clen.read i = some l) : hostRead w addr s = .next { s with rdata := l.setWidth 32 } := by
  rw [hostRead_target s w addr _ hx (Or.inl hb)]
  simp only [readTarget, h]

theorem hostWrite_inWindow (hx : target w addr = some (.inWindow i)) (hb : s.busy = false) :
    hostWrite w addr v s = .next { s with inRam := writeWindow Config.inMax s.inRam i v w.bytes } := by
  simp [hostWrite, hx, hb]

theorem hostWrite_outWindow (hx : target w addr = some (.outWindow i)) (hb : s.busy = false) :
    hostWrite w addr v s = .next { s with outRam := writeWindow Config.outMax s.outRam i v w.bytes } := by
  simp [hostWrite, hx, hb]

theorem hostWrite_clen (hx : target w addr = some (.clen i)) (hb : s.busy = false) :
    hostWrite w addr v s = .next { s with clen := s.clen.write i (v.setWidth 5) } := by
  simp [hostWrite, hx, hb]

end

/-! ## Accesses with no step -/

/-- Settles O43: such an access has no target. -/
theorem misalignedAccessHasNoStep : Obligations.MisalignedAccessHasNoStep := by
  intro s w addr v h
  simp [hostRead, hostWrite, target_misaligned w addr h]

/-! ## Reads -/

/-- Settles O45: a host read that is taken answers a value, and draws a free one only while BUSY. -/
theorem hostReadsChangeNothing : Obligations.HostReadsChangeNothing := by
  intro s w addr t h
  rcases hostRead_next w addr s t h with ⟨v, rfl⟩ | ⟨hb, v, rfl⟩
  · exact ⟨rfl, fun _ => rfl⟩
  · exact ⟨rfl, fun hidle => by simp [hidle] at hb⟩

/-! ## Reserved locations -/

/-- Window bytes past the RAM read 0 (20_memory.md R44, R47). -/
theorem readWindow_past (size : Nat) (m : Memory Byte) (i n : Nat) (h : size ≤ i) : readWindow size m i n = .ok 0 := by
  induction n generalizing i with
  | zero => rfl
  | succ n ih => simp [readWindow, h, ih (i + 1) (by omega)]

/-- Window bytes past the RAM ignore writes (20_memory.md R44, R47). -/
theorem writeWindow_past (size : Nat) (m : Memory Byte) (i : Nat) (v : Word) (n : Nat) (h : size ≤ i) :
    writeWindow size m i v n = m := by
  induction n generalizing i v with
  | zero => rfl
  | succ n ih => simp [writeWindow, h, ih (i + 1) (v >>> 8) (by omega)]

/-- An access of a reserved range reads 0 and writes nothing (20_memory.md R47; log 9). -/
theorem hostAccess_reserved (s : State) (w : Width) (addr : BitVec 24) (v : Word) (hx : target w addr = some .reserved)
    (hb : s.busy = false) : hostRead w addr s = .next { s with rdata := 0 } ∧ hostWrite w addr v s = .next s :=
  ⟨hostRead_target s w addr _ hx (Or.inl hb), by simp [hostWrite, hx]⟩

/-- Settles O44: a reserved register offset, the two reserved ranges, and the window bytes past IN and past OUT. -/
theorem reservedReadsZero : Obligations.ReservedReadsZero := by
  rintro s w addr v hb (⟨hlo, hhi, ha, rfl⟩ | hrange | ⟨hlo, hhi, ha⟩ | ⟨hlo, hhi, ha⟩ | hrange)
  · have hignored : addr.toNat ∉ writableOffsets := by simp [writableOffsets]; omega
    rw [hostRead_register s addr hhi ha (Or.inl hb), readReg_reserved s _ hlo, hostWrite_register s addr v hhi ha,
      writeReg_ignored addr _ v s hignored]
    exact ⟨rfl, rfl⟩
  · exact hostAccess_reserved s w addr v (target_reserved w addr (Or.inl hrange)) hb
  · have hx := target_inWindow w addr (by omega) hhi ha
    have hpast : Config.inMax ≤ addr.toNat - 0x400000 := by omega
    refine ⟨hostRead_inWindow s w addr _ 0 hx hb (readWindow_past _ _ _ _ hpast), ?_⟩
    rw [hostWrite_inWindow s w addr _ v hx hb, writeWindow_past _ _ _ _ _ hpast]
  · have hx := target_outWindow w addr (by omega) hhi ha
    have hpast : Config.outMax ≤ addr.toNat - 0x800000 := by omega
    refine ⟨hostRead_outWindow s w addr _ 0 hx hb (readWindow_past _ _ _ _ hpast), ?_⟩
    rw [hostWrite_outWindow s w addr _ v hx hb, writeWindow_past _ _ _ _ _ hpast]
  · exact hostAccess_reserved s w addr v (target_reserved w addr (Or.inr hrange)) hb

/-! ## The windows -/

theorem byteOf_eq_shift (v : Word) (j : Nat) : (v >>> (8 * j)).setWidth 8 = byteOf v j := by
  apply BitVec.eq_of_toNat_eq
  simp [byteOf]

/-- A window write inside the RAM stores byte j of v at index i + j and nothing else (20_memory.md R44). -/
theorem writeWindow_read (size : Nat) (m : Memory Byte) (i : Nat) (v : Word) (n : Nat) (h : i + n ≤ size) (a : Nat) :
    (writeWindow size m i v n).read a = if i ≤ a ∧ a < i + n then some (byteOf v (a - i)) else m.read a := by
  have hin : (i ≤ a ∧ a < i + n ∧ a < size) ↔ (i ≤ a ∧ a < i + n) := by omega
  simp only [(writeWindow_spec size m i v n).2 a, hin, byteOf_eq_shift]

/-- A read of the bytes just written answers what was written, cut to the width (20_memory.md R44; log 16). -/
theorem readWindow_writeWindow (size : Nat) (m : Memory Byte) (i : Nat) (v : Word) (w : Width)
    (h : i + w.bytes ≤ size) : readWindow size (writeWindow size m i v w.bytes) i w.bytes = .ok (w.truncate v) := by
  refine readWindow_ok size _ v i w.bytes h (width_bytes_le w) fun j hj => ?_
  rw [writeWindow_read size m i v w.bytes h, if_pos (by omega), Nat.add_sub_cancel_left, byteOf_eq_shift]

/-- An access inside a window of at most 4 MiB starts inside it (20_memory.md R42). -/
theorem index_in_window (size i : Nat) (w : Width) (hsize : size ≤ 0x400000) (h : i + w.bytes ≤ size) :
    i < 0x400000 := by
  have := width_bytes_pos w
  omega

/-- Settles O46: the write is writeWindow of the RAM, whose bytes the read puts together again. -/
theorem windowWriteThenRead : Obligations.WindowWriteThenRead := by
  intro s w i v hb ha
  refine ⟨fun h => ?_, fun h => ?_⟩
  · have hx := target_inByte w i (index_in_window Config.inMax i w (by decide) h) ha
    exact ⟨_, hostWrite_inWindow s w _ i v hx hb, rfl, writeWindow_read _ _ i v _ h,
      hostRead_inWindow _ w _ i _ hx hb (readWindow_writeWindow _ _ i v w h)⟩
  · have hx := target_outByte w i (index_in_window Config.outMax i w (by decide) h) ha
    exact ⟨_, hostWrite_outWindow s w _ i v hx hb, rfl, writeWindow_read _ _ i v _ h,
      hostRead_outWindow _ w _ i _ hx hb (readWindow_writeWindow _ _ i v w h)⟩

/-! ## CLEN -/

/-- An entry is the low five bits of what was written, zero-extended (20_memory.md R45). -/
theorem setWidth_five (v : Word) : (v.setWidth 5).setWidth 32 = v &&& 0x1F := by
  apply BitVec.eq_of_getLsbD_eq
  intro i hi
  simp only [BitVec.getLsbD_setWidth, BitVec.getLsbD_and]
  interval_cases i <;> simp

/-- Written entries of CLEN can be read, and each of them stands in the list read (41_huffman.md R84). -/
theorem clenList_written (s : State) (n i : Nat) (h : Written s.clen i n) :
    ∃ lens, clenList i n s = .ok lens s ∧
      ∀ a l, i ≤ a → a < i + n → s.clen.read a = some l → l.toNat ∈ lens := by
  induction n generalizing i with
  | zero => exact ⟨[], rfl, fun a _ hlo hhi => by omega⟩
  | succ n ih =>
    obtain ⟨e, he⟩ := Option.isSome_iff_exists.mp (h i (Nat.le_refl _) (by omega))
    obtain ⟨lens, hrun, hmem⟩ := ih (i + 1) (fun a hlo hhi => h a (by omega) (by omega))
    refine ⟨e.toNat :: lens, by simp [clenList, engine_bind, engine_map, readClen_some s i e he, hrun],
      fun a l hlo hhi hl => ?_⟩
    by_cases ha : a = i
    · subst ha
      obtain rfl : e = l := Option.some.inj (he.symm.trans hl)
      exact List.mem_cons_self
    · exact List.mem_cons_of_mem _ (hmem a l (by omega) (by omega) hl)

/-- The operands inside TREE_BUILD's ranges (41_huffman.md R84). -/
theorem treeParamBad_eq_false {count maxlen : Nat} (hcount : count ≤ 512) (h1 : 1 ≤ maxlen) (h16 : maxlen ≤ 16) :
    treeParamBad count maxlen = false := by
  have hlimit : ¬ Config.maxlenLimit < maxlen := Nat.not_lt.mpr h16
  have hcap : ¬ Config.treeCap < count := Nat.not_lt.mpr hcount
  simp only [treeParamBad, hlimit, hcap, Nat.not_lt.mpr h1, decide_false, Bool.or_false]

/-- A TREE_BUILD of lengths one of which is above MAXLEN ends with FMT_LEN_TOO_LONG and its slot cleared
(41_huffman.md R82, R84). -/
theorem treeBuild_lenTooLong (k : Slot) (count maxlen : Nat) (s : State) (lens : List Nat)
    (hp : treeParamBad count maxlen = false) (hrun : clenList 0 count s = .ok lens s)
    (hlong : lenTooLong lens maxlen = true) :
    exec (.treeBuild k count maxlen) s
      = .next (completed .fmtLenTooLong 0 { s with trees := s.trees.set k .cleared }) :=
  runCommand_raise _ _ _ _ (by simp [engine_bind, engine_map, hp, hrun, hufBuild_run, hlong])

/-- Settles O47: the entry keeps the low five bits, and an entry above 16 is above every MAXLEN. -/
theorem clenHoldsFiveBits : Obligations.ClenHoldsFiveBits := by
  intro s i v hb hi
  have hx := target_clenEntry i hi
  have hstored : (s.clen.write i (v.setWidth 5)).read i = some (v.setWidth 5) := by simp [memory_read_write]
  refine ⟨_, hostWrite_clen s _ _ i v hx hb, rfl, memory_read_write s.clen i _, ?_,
    fun h17 k count maxlen hic hcount hw h1 h16 => ?_⟩
  · rw [← setWidth_five]
    exact hostRead_clen _ _ _ i _ hx hb hstored
  · obtain ⟨lens, hrun, hmem⟩ := clenList_written _ count 0 hw
    have hentry : (v.setWidth 5).toNat ∈ lens := hmem i _ (Nat.zero_le _) (by omega) hstored
    have hvalue : 17 ≤ (v.setWidth 5).toNat := by
      rwa [← setWidth_five, BitVec.toNat_setWidth_of_le (by decide)] at h17
    refine treeBuild_lenTooLong k count maxlen _ lens (treeParamBad_eq_false hcount h1 h16) hrun ?_
    simp only [lenTooLong, List.any_eq_true, decide_eq_true_eq]
    exact ⟨_, hentry, by omega⟩

/-! ## While BUSY -/

/-- While BUSY a write to a RAM has no step (20_memory.md R52; log 15). -/
theorem hostWrite_busy_ram (s : State) (w : Width) (addr : BitVec 24) (v : Word) (x : Target)
    (hx : target w addr = some x) (hram : x.isRamElement = true) (hb : s.busy = true) :
    hostWrite w addr v s = .refused (.hostWriteBusy addr) := by
  cases x with
  | reg _ => simp [Target.isRamElement] at hram
  | reserved => simp [Target.isRamElement] at hram
  | _ => simp [hostWrite, hx, hb]

/-- While BUSY a read inside the contract answers ID, CTRL or STATUS or a free value (20_memory.md R52). -/
theorem hostRead_busy (s : State) (w : Width) (addr : BitVec 24) (x : Target) (hx : target w addr = some x)
    (hb : s.busy = true) : ∃ v free, hostRead w addr s = .next { s with rdata := v, free := free } := by
  by_cases hr : readableWhileBusy x = true
  · rw [hostRead_target s w addr x hx (Or.inr hr)]
    cases x with
    | reg o => exact ⟨readReg s o, s.free, rfl⟩
    | _ => simp [readableWhileBusy] at hr
  · exact ⟨w.truncate (Config.busyRead s.free), s.free + 1, by simp [hostRead, hx, hb, hr]⟩

/-- Settles O51: the three readable registers answer, every other read inside the contract draws a value, and a write to a
parameter or a RAM has no step. -/
theorem busyHostAccesses : Obligations.BusyHostAccesses := by
  intro s hb
  refine ⟨hostRead_register s 0x000000 (by decide) (by decide) (Or.inr rfl),
    hostRead_register s 0x000004 (by decide) (by decide) (Or.inr rfl),
    hostRead_register s 0x00000C (by decide) (by decide) (Or.inr rfl), fun w addr ht => ?_, fun addr v hmem => ?_,
    fun w addr v ht hrange => ?_, fun addr hmem v => hostWrite_readOnly s v addr hmem⟩
  · obtain ⟨x, hx⟩ := Option.ne_none_iff_exists'.mp ht
    obtain ⟨v, free, hread⟩ := hostRead_busy s w addr x hx hb
    exact ⟨_, hread, rfl⟩
  · simp only [List.mem_cons, List.not_mem_nil, or_false] at hmem
    rcases hmem with rfl | rfl | rfl
    all_goals
      rw [hostWrite_register s _ v (by decide) (by decide)]
      simp [writeReg, hb]
  · obtain ⟨x, hx⟩ := Option.ne_none_iff_exists'.mp ht
    exact hostWrite_busy_ram s w addr v x hx (target_ram w addr x hx hrange) hb

end Sys2Proof.Machine
end

section
/-! PROOFS. The statements of 30_encoding.md. First the fields of a word and the word packed from fields; then decode through
the rows of the opcode map: a word decodes exactly when it selects a row, to that row's command with the word's fields. -/

namespace Sys2Proof

/-! ## Fields of a word -/

theorem field_lt (w : Word) (lo n : Nat) : field w lo n < 2 ^ n := (w.extractLsb' lo n).isLt

theorem field_eq_div_mod (w : Word) (lo n : Nat) : field w lo n = w.toNat / 2 ^ lo % 2 ^ n := by
  rw [field, BitVec.extractLsb'_toNat, Nat.shiftRight_eq_div_pow]

theorem testBit_field (w : Word) (lo n j : Nat) :
    (field w lo n).testBit j = (decide (j < n) && w.getLsbD (lo + j)) := by
  rw [field, BitVec.testBit_toNat, BitVec.getLsbD_extractLsb']

/-- The bits w[hi:lo] of a field of width n = hi - lo + 1, as a mask (30_encoding.md R56). -/
def fieldMask (lo n : Nat) : Word := BitVec.ofNat 32 (2 ^ n - 1) <<< lo

theorem getLsbD_fieldMask {i : Nat} (lo n : Nat) (hi : i < 32) :
    (fieldMask lo n).getLsbD i = (!decide (i < lo) && decide (i - lo < n)) := by
  have hsub : i - lo < 32 := by omega
  simp only [fieldMask, BitVec.getLsbD_shiftLeft, BitVec.getLsbD_ofNat, Nat.testBit_two_pow_sub_one, hi, hsub,
    decide_true, Bool.true_and]

/-- A field put back at its place is the word's bits there: nothing is scaled or extended (30_encoding.md R57). -/
theorem ofNat_field_shiftLeft (w : Word) (lo n : Nat) :
    BitVec.ofNat 32 (field w lo n) <<< lo = w &&& fieldMask lo n := by
  apply BitVec.eq_of_getLsbD_eq
  intro i hi
  rw [BitVec.getLsbD_and, getLsbD_fieldMask lo n hi, BitVec.getLsbD_shiftLeft, BitVec.getLsbD_ofNat, testBit_field]
  by_cases hlo : i < lo
  · simp [hlo]
  · simp [hi, hlo, show i - lo < 32 by omega, show lo + (i - lo) = i by omega, Bool.and_comm]

/-- OP stands at bit 0 (30_encoding.md R56). -/
theorem ofNat_op (w : Word) : BitVec.ofNat 32 (field w 0 4) = w &&& 0xF := by
  simpa [fieldMask] using ofNat_field_shiftLeft w 0 4

/-! ## The word packed from fields -/

theorem or_shiftLeft_eq_add {low k : Nat} (x : Nat) (h : low < 2 ^ k) : low ||| x <<< k = low + 2 ^ k * x := by
  rw [Nat.lor_comm, ← Nat.shiftLeft_add_eq_or_of_lt h, Nat.shiftLeft_eq, Nat.mul_comm, Nat.add_comm]

theorem ofNat_shiftLeft_toNat {x k : Nat} (h : 2 ^ k * x < 2 ^ 32) : (BitVec.ofNat 32 x <<< k).toNat = x <<< k := by
  have hx : x < 2 ^ 32 := Nat.lt_of_le_of_lt (Nat.le_mul_of_pos_left x (Nat.two_pow_pos k)) h
  rw [BitVec.toNat_shiftLeft, BitVec.toNat_ofNat, Nat.mod_eq_of_lt hx, Nat.shiftLeft_eq, Nat.mul_comm,
    Nat.mod_eq_of_lt h]

/-- The fields do not overlap, so packing them is adding them at their places (30_encoding.md R56). -/
theorem packWord_toNat {op slot n maxlen count : Nat} (hop : op < 16) (hslot : slot < 4) (hn : n < 64)
    (hmaxlen : maxlen < 32) (hcount : count < 1024) :
    (packWord op slot n maxlen count).toNat = op + 2 ^ 8 * slot + 2 ^ 10 * n + 2 ^ 16 * maxlen + 2 ^ 22 * count := by
  simp only [packWord, BitVec.toNat_or]
  rw [BitVec.toNat_ofNat, Nat.mod_eq_of_lt (by omega), ofNat_shiftLeft_toNat (by omega),
    ofNat_shiftLeft_toNat (by omega), ofNat_shiftLeft_toNat (by omega), ofNat_shiftLeft_toNat (by omega),
    or_shiftLeft_eq_add slot (by omega), or_shiftLeft_eq_add n (by omega), or_shiftLeft_eq_add maxlen (by omega),
    or_shiftLeft_eq_add count (by omega)]

/-- Each operand is read back from the word it was packed in (30_encoding.md R57). -/
theorem field_packWord {op slot n maxlen count : Nat} (hop : op < 16) (hslot : slot < 4) (hn : n < 64)
    (hmaxlen : maxlen < 32) (hcount : count < 1024) :
    field (packWord op slot n maxlen count) 8 2 = slot ∧ field (packWord op slot n maxlen count) 10 6 = n ∧
      field (packWord op slot n maxlen count) 16 5 = maxlen ∧ field (packWord op slot n maxlen count) 22 10 = count := by
  simp only [field_eq_div_mod, packWord_toNat hop hslot hn hmaxlen hcount]
  omega

/-- The word of BS_GET and BS_SKIP holds N alone (30_encoding.md R64). -/
theorem field_packWord_n {op n : Nat} (hop : op < 16) (hn : n < 64) : field (packWord op 0 n 0 0) 10 6 = n := by
  obtain ⟨-, h, -, -⟩ := field_packWord (slot := 0) (maxlen := 0) (count := 0) hop (by decide) hn (by decide) (by decide)
  exact h

/-! ## The rows of the opcode map -/

/-- The command of an OP with the word's fields as operands (30_encoding.md R62). -/
def commandAt (op : Nat) (w : Word) : Option Instr :=
  selectOp op (field w 8 2) (field w 10 6) (field w 16 5) (field w 22 10)

/-- A row's match is its OP; its mask is OP and all the bits its command does not use (30_encoding.md R58, R59). -/
theorem opcodeMap_row : ∀ r ∈ opcodeMap, r.op < 16 ∧ r.pattern = BitVec.ofNat 32 r.op ∧ r.pattern &&& 0xF = r.pattern ∧
    r.pattern &&& ~~~0xF = 0 ∧ r.mask &&& 0xF = 0xF ∧ usedMask r.op = some (~~~r.mask) := by decide

/-- No OP has two rows (30_encoding.md R58). -/
theorem opcodeMap_filter_op : ∀ r ∈ opcodeMap, opcodeMap.filter (fun q => q.op == r.op) = [r] := by decide

/-- A reserved OP has no used fields (30_encoding.md R60). -/
theorem usedMask_reserved {op : Nat} (h : 9 ≤ op) : usedMask op = none := by
  obtain ⟨k, rfl⟩ := Nat.exists_eq_add_of_le' h
  rfl

/-- An OP that has used fields has a row (30_encoding.md R58, R60). -/
theorem exists_row_of_usedMask {op : Nat} {used : Word} (h : usedMask op = some used) :
    ∃ r ∈ opcodeMap, r.op = op ∧ ~~~r.mask = used := by
  have hop : op < 9 := by
    by_contra hge
    simp [usedMask_reserved (Nat.not_lt.mp hge)] at h
  have hrow : ∃ r ∈ opcodeMap, r.op = op := by interval_cases op <;> decide
  obtain ⟨r, hr, rfl⟩ := hrow
  obtain ⟨_, _, _, _, _, hused⟩ := opcodeMap_row r hr
  exact ⟨r, hr, rfl, Option.some.inj (hused.symm.trans h)⟩

/-- SLOT's two bits name each slot once (30_encoding.md R57). -/
theorem slotOfField_slotField (slot : Slot) : slotOfField (slotField slot) = slot := by cases slot <;> rfl

theorem slotField_slotOfField {k : Nat} (h : k < 4) : slotField (slotOfField k) = k := by interval_cases k <;> rfl

theorem slotField_lt (slot : Slot) : slotField slot < 4 := by cases slot <;> decide

/-- A row's command, with the word's fields, is well formed and encodes to the row's match with the word's bits outside the
mask (30_encoding.md R56, R58). -/
theorem commandAt_row {r : OpcodeRow} (hr : r ∈ opcodeMap) (w : Word) :
    ∃ i, commandAt r.op w = some i ∧ opOf i = r.op ∧ WellFormed i = true ∧
      encode i = r.pattern ||| w &&& ~~~r.mask := by
  have hn : fitsN (field w 10 6) = true := decide_eq_true (field_lt w 10 6)
  have hmaxlen : fitsMaxlen (field w 16 5) = true := decide_eq_true (field_lt w 16 5)
  have hcount : fitsCount (field w 22 10) = true := decide_eq_true (field_lt w 22 10)
  have hslot : slotField (slotOfField (field w 8 2)) = field w 8 2 := slotField_slotOfField (field_lt w 8 2)
  simp only [opcodeMap, List.mem_cons, List.not_mem_nil, or_false] at hr
  rcases hr with rfl | rfl | rfl | rfl | rfl | rfl | rfl | rfl | rfl
  all_goals
    refine ⟨_, rfl, rfl, ?_, ?_⟩
    · simp [WellFormed, hn, hmaxlen, hcount]
    · simp [encode, packWord, hslot, ofNat_field_shiftLeft, fieldMask, BitVec.or_assoc, ← BitVec.and_or_distrib_left]

/-! ## Decoding is selecting a row -/

/-- The bits of w inside and outside a mask make up w. -/
theorem and_or_and_not (w m : Word) : w &&& m ||| w &&& ~~~m = w := by
  rw [← BitVec.and_or_distrib_left, BitVec.or_not_self, BitVec.and_allOnes]

/-- Two words are equal when they agree inside a mask and outside it. -/
theorem eq_iff_and_mask (m v w : Word) : v = w ↔ v &&& m = w &&& m ∧ v &&& ~~~m = w &&& ~~~m := by
  refine ⟨fun h => by simp [h], fun ⟨hin, hout⟩ => ?_⟩
  rw [← and_or_and_not v m, hin, hout, and_or_and_not]

/-- What decode tests for a 1 outside OP and the used fields (30_encoding.md R62). -/
def extraBits (w used : Word) : Word := ((w >>> 4) <<< 4) &&& ~~~used

theorem extraBits_eq (w used : Word) : extraBits w used = w &&& ~~~0xF &&& ~~~used := by
  rw [extraBits, BitVec.shiftLeft_ushiftRight]
  rfl

/-- A word selects a row when its OP is the row's and it has no 1 outside OP and the used fields (30_encoding.md R58, R59). -/
theorem selects_iff {r : OpcodeRow} (hr : r ∈ opcodeMap) (w : Word) :
    r.selects w = true ↔ field w 0 4 = r.op ∧ extraBits w (~~~r.mask) = 0 := by
  obtain ⟨hop, hpattern, hlow, hhigh, hmask, -⟩ := opcodeMap_row r hr
  have hopField : w &&& 0xF = r.pattern ↔ field w 0 4 = r.op := by
    rw [← ofNat_op, hpattern]
    have := field_lt w 0 4
    simp [← BitVec.toNat_inj]
    omega
  rw [OpcodeRow.selects, beq_iff_eq, eq_iff_and_mask 0xF, hlow, hhigh, BitVec.and_assoc, hmask, hopField, extraBits_eq,
    BitVec.not_not, BitVec.and_assoc, BitVec.and_comm r.mask, ← BitVec.and_assoc]

/-- A reserved OP is rejected (30_encoding.md R60). -/
theorem decode_reservedOp {w : Word} (h : usedMask (field w 0 4) = none) :
    decode w = .error (.reservedOp (field w 0 4)) := by
  simp only [decode, h]

/-- A 1 outside OP and the used fields is rejected (30_encoding.md R59). -/
theorem decode_reservedBits {w used : Word} (h : usedMask (field w 0 4) = some used) (hextra : extraBits w used ≠ 0) :
    decode w = .error (.reservedBits (field w 0 4)) := by
  simp only [decode, h]
  exact if_pos hextra

/-- Past both checks the word decodes to its OP's command with its fields (30_encoding.md R62). -/
theorem decode_command {w used : Word} {i : Instr} (h : usedMask (field w 0 4) = some used) (hextra : extraBits w used = 0)
    (hi : commandAt (field w 0 4) w = some i) : decode w = .ok i := by
  rw [commandAt] at hi
  simp only [decode, h, hi]
  exact if_neg (not_not_intro hextra)

/-- A word that selects a row decodes to that row's command with the word's fields (30_encoding.md R58, R62). -/
theorem decode_of_selects {r : OpcodeRow} {w : Word} {i : Instr} (hr : r ∈ opcodeMap) (hsel : r.selects w = true)
    (hi : commandAt r.op w = some i) : decode w = .ok i := by
  obtain ⟨hop, hextra⟩ := (selects_iff hr w).mp hsel
  obtain ⟨_, _, _, _, _, hused⟩ := opcodeMap_row r hr
  rw [← hop] at hused hi
  exact decode_command hused hextra hi

/-- A word that decodes selects a row (30_encoding.md R58 to R60). -/
theorem exists_selects_of_decode {w : Word} {i : Instr} (h : decode w = .ok i) : ∃ r ∈ opcodeMap, r.selects w = true := by
  cases hused : usedMask (field w 0 4) with
  | none => simp [decode_reservedOp hused] at h
  | some used =>
    by_cases hextra : extraBits w used = 0
    · obtain ⟨r, hr, hop, rfl⟩ := exists_row_of_usedMask hused
      exact ⟨r, hr, (selects_iff hr w).mpr ⟨hop.symm, hextra⟩⟩
    · simp [decode_reservedBits hused hextra] at h

/-- A word that selects a row decodes to a well-formed command of the row's OP, whose word it is (30_encoding.md R58). -/
theorem exists_decode_of_selects {r : OpcodeRow} {w : Word} (hr : r ∈ opcodeMap) (hsel : r.selects w = true) :
    ∃ i, decode w = .ok i ∧ opOf i = r.op ∧ WellFormed i = true ∧ encode i = w := by
  obtain ⟨i, hi, hop, hwf, hword⟩ := commandAt_row hr w
  have hpattern : w &&& r.mask = r.pattern := by simpa [OpcodeRow.selects] using hsel
  exact ⟨i, decode_of_selects hr hsel hi, hop, hwf, by rw [hword, ← hpattern, and_or_and_not]⟩

/-- A row that selects a word is the only one that does (30_encoding.md R58, R60). -/
theorem filter_selects {r : OpcodeRow} {w : Word} (hr : r ∈ opcodeMap) (hsel : r.selects w = true) :
    opcodeMap.filter (fun q => q.selects w) = [r] := by
  obtain ⟨hop, -⟩ := (selects_iff hr w).mp hsel
  have hone := opcodeMap_filter_op r hr
  rw [← hone]
  refine List.filter_congr fun q hq => ?_
  rw [Bool.eq_iff_iff, beq_iff_eq]
  refine ⟨fun hqsel => ((selects_iff hq w).mp hqsel).1.symm.trans hop, fun hqop => ?_⟩
  have hmem : q ∈ opcodeMap.filter (fun q => q.op == r.op) := List.mem_filter.mpr ⟨hq, beq_iff_eq.mpr hqop⟩
  rw [hone, List.mem_singleton] at hmem
  rwa [hmem]

/-! ## The word of a command -/

theorem selectsItsRow (i : Instr) : Laws.SelectsItsRow.Statement i := by
  cases i with
  | nop => exact Laws.SelectsItsRow.nop
  | bsInit => exact Laws.SelectsItsRow.bsInit
  | bsGet n => exact Laws.SelectsItsRow.bsGet n
  | bsSkip n => exact Laws.SelectsItsRow.bsSkip n
  | bsAlign => exact Laws.SelectsItsRow.bsAlign
  | treeBuild slot count maxlen => exact Laws.SelectsItsRow.treeBuild slot count maxlen
  | treeDecode slot => exact Laws.SelectsItsRow.treeDecode slot
  | inflate => exact Laws.SelectsItsRow.inflate
  | adler32 => exact Laws.SelectsItsRow.adler32

/-- The fields of a command's word are its operands (30_encoding.md R57, R64). -/
theorem commandAt_encode (i : Instr) (h : WellFormed i = true) : commandAt (opOf i) (encode i) = some i := by
  cases i with
  | bsGet n =>
    simp only [commandAt, opOf, encode, selectOp, field_packWord_n (op := 2) (by decide) (of_decide_eq_true h)]
  | bsSkip n =>
    simp only [commandAt, opOf, encode, selectOp, field_packWord_n (op := 3) (by decide) (of_decide_eq_true h)]
  | treeBuild slot count maxlen =>
    simp only [WellFormed, fitsCount, fitsMaxlen, Bool.and_eq_true, decide_eq_true_eq] at h
    obtain ⟨hcount, hmaxlen⟩ := h
    obtain ⟨hslot, -, hfieldM, hfieldC⟩ := field_packWord (op := 5) (n := 0) (by decide) (slotField_lt slot) (by decide)
      hmaxlen hcount
    simp only [commandAt, opOf, encode, selectOp, hslot, hfieldM, hfieldC, slotOfField_slotField]
  | treeDecode slot => cases slot <;> decide
  | _ => rfl

/-! ## The statements -/

/-- Settles O1: the word selects the row of the command's OP, and its fields are the operands. -/
theorem decodeEncode : Obligations.DecodeEncode := by
  intro i h
  obtain ⟨r, hr, hop, hsel⟩ := selectsItsRow i h
  exact decode_of_selects hr hsel (hop ▸ commandAt_encode i h)

/-- Settles O2: the word selects a row, and the row's match with the word's bits outside the mask is the word. -/
theorem encodeDecode : Obligations.EncodeDecode := by
  intro w i h
  obtain ⟨r, hr, hsel⟩ := exists_selects_of_decode h
  obtain ⟨j, hj, -, hwf, hword⟩ := exists_decode_of_selects hr hsel
  obtain rfl : i = j := Except.ok.inj (h.symm.trans hj)
  exact ⟨hwf, hword⟩

/-- Settles O3: a word decodes exactly when it selects a row, and two rows never share their OP. -/
theorem decodeSelectsOneRow : Obligations.DecodeSelectsOneRow := by
  intro w
  by_cases hrow : ∃ r ∈ opcodeMap, r.selects w = true
  · obtain ⟨r, hr, hsel⟩ := hrow
    obtain ⟨i, hi, hop, -, -⟩ := exists_decode_of_selects hr hsel
    exact Or.inl ⟨i, hi, by rw [filter_selects hr hsel, hop]; rfl⟩
  · right
    refine ⟨?_, List.filter_eq_nil_iff.mpr fun r hr hsel => hrow ⟨r, hr, hsel⟩⟩
    cases hd : decode w with
    | ok i => exact absurd (exists_selects_of_decode hd) hrow
    | error x => exact ⟨x, rfl⟩

/-- Settles O6: such a word is rejected, and the engine's step of a rejected word is the completion. -/
theorem illegalWordChangesNothing : Obligations.IllegalWordChangesNothing := by
  intro s w hcmd hturn hnone
  rw [Machine.step_engine s w hcmd hturn, Machine.engineStep]
  cases hd : decode w with
  | ok i =>
    obtain ⟨r, hr, hsel⟩ := exists_selects_of_decode hd
    simp [hnone r hr] at hsel
  | error x => rfl

/-- Settles O4: each word is fixed, so the decoder is run on it. -/
theorem sampleWordsDecode : Obligations.SampleWordsDecode := by
  unfold Obligations.SampleWordsDecode
  decide

end Sys2Proof
end

section
/-! PROOFS. The statements of 40_bitstream.md. BS_GET and BS_SKIP are one read and differ in what they make of its value, so
each thing the read can do is proved once; then the frames of the small commands and the reader's invariant. -/

namespace Sys2Proof.Machine

open Host (Outcome)

/-! ## The read of BS_GET and BS_SKIP -/

/-- The command that reads n bits and completes with k of their value (40_bitstream.md R75, R76). -/
def readCommand (n : Nat) (k : Word → Word) (s : State) : Outcome State Fault Refusal :=
  runCommand (do let v ← getBits n; pure (k v)) s

/-- BS_GET answers the value it has read (40_bitstream.md R75). -/
theorem exec_bsGet (n : Nat) (s : State) : exec (.bsGet n) s = readCommand n id s := by
  simp [exec, execBsGet, readCommand]

/-- BS_SKIP answers 0 (40_bitstream.md R76). -/
theorem exec_bsSkip (n : Nat) (s : State) : exec (.bsSkip n) s = readCommand n (fun _ => 0) s := rfl

theorem readCommand_of_ok {n : Nat} {s u : State} {v : Word} (k : Word → Word) (h : getBits n s = .ok v u) :
    readCommand n k s = .next (completed .ok (k v) u) :=
  runCommand_ok _ _ _ _ (by simp [engine_map, h])

theorem readCommand_of_raise {n : Nat} {s u : State} {e : ErrCode} (k : Word → Word)
    (h : getBits n s = .error (.raise e) u) : readCommand n k s = .next (completed e 0 u) :=
  runCommand_raise _ _ _ _ (by simp [engine_map, h])

/-- N is checked first (60_exceptions.md R119). -/
theorem getBits_argNRange (n : Nat) (s : State) (hn : 32 < n) : getBits n s = .error (.raise .argNRange) s := by
  have hn' : Config.nmaxGet < n := hn
  simp [getBits, engine_bind, hn']

/-- IN_LEN is checked after N (60_exceptions.md R119). -/
theorem getBits_argLenRange (n : Nat) (s : State) (hn : n ≤ 32) (hl : Config.inMax < s.inLen.toNat) :
    getBits n s = .error (.raise .argLenRange) s := by
  have hn' : ¬ Config.nmaxGet < n := Nat.not_lt.mpr hn
  simp [getBits, engine_bind, checkInLen, hn', hl]

/-- A read past the available bits changes nothing (40_bitstream.md R68). -/
theorem getBits_exhausted (n : Nat) (s : State) (hn : n ≤ 32) (hl : s.inLen.toNat ≤ Config.inMax)
    (ha : s.bs.avail s.inLen.toNat < n) : getBits n s = .error (.raise .fmtInputExhausted) s := by
  rw [getBits_run n s hn hl, bsGet, if_pos ha, raise_run]

/-- A read of bits that can be read and that the stream holds consumes them (40_bitstream.md R71). -/
theorem readCommand_stream (k : Word → Word) (s : State) (bits : List Bool) (hn : bits.length ≤ 32)
    (hl : s.inLen.toNat ≤ Config.inMax) (hg : ReaderGood s.bs) (hc : Coherent s) (hr : Readable s bits.length)
    (hb : StreamHolds s.bs.mode s.inRam s.bs.bitpos bits) :
    ∃ v bs, readCommand bits.length k s = .next (completed .ok (k v) { s with bs := bs }) ∧
      v.toNat = readValue s.bs.mode bits ∧ bs.mode = s.bs.mode ∧ bs.bitpos = s.bs.bitpos + bits.length ∧
      ReaderGood bs ∧ Coherent { s with bs := bs } := by
  obtain ⟨v, u, hrun, hv, hu, hmode, hpos, hgood, hcoh, _⟩ :=
    bsGet_stream s bits hg hn hl hc ((readable_iff s _ hg).mp hr) hb
  refine ⟨v, u.bs, ?_, hv, hmode, hpos, hgood, hu ▸ hcoh⟩
  rw [← hu]
  exact readCommand_of_ok k ((getBits_run _ s hn hl).trans hrun)

/-- Settles O18: a readable piece of the stream is what BsGet returns, and past the stream's end the bits asked for are more
than the available ones. -/
theorem bsGetReadsTheStream : Obligations.BsGetReadsTheStream := by
  intro s n hn hl hg hc
  rw [exec_bsGet]
  refine ⟨?_, fun ho hend => ?_⟩
  · rintro bits rfl hr hb
    obtain ⟨v, bs, hrun, hv, hmode, hpos, hgood, hcoh⟩ := readCommand_stream id s bits hn hl hg hc hr hb
    refine ⟨_, hrun, ?_, hv, hmode, hpos, hgood, hcoh⟩
    rw [← hv, BitVec.ofNat_toNat, BitVec.setWidth_eq]
    rfl
  · have ha : s.bs.avail s.inLen.toNat < n := by
      have hle := bitpos_le_streamEnd s.bs _ hg ho
      rw [avail_eq s.bs _ hg ho]
      omega
    exact readCommand_of_raise id (getBits_exhausted n s hn hl ha)

/-- Settles O19: BS_SKIP is the read of BS_GET with the value thrown away. -/
theorem bsSkipDiscardsBits : Obligations.BsSkipDiscardsBits := by
  intro s bits hn hl hg hc hr hb
  obtain ⟨v, bs, hrun, _, hmode, hpos, hgood, hcoh⟩ := readCommand_stream (fun _ => 0) s bits hn hl hg hc hr hb
  exact ⟨_, hrun, rfl, hmode, hpos, hgood, hcoh⟩

/-- A read that raises a code and leaves the state does so in BS_GET and in BS_SKIP. -/
theorem exec_read_of_raise {n : Nat} {s : State} {e : ErrCode} (h : getBits n s = .error (.raise e) s) :
    exec (.bsGet n) s = .next (completed e 0 s) ∧ exec (.bsSkip n) s = .next (completed e 0 s) :=
  ⟨(exec_bsGet n s).trans (readCommand_of_raise id h), readCommand_of_raise _ h⟩

/-- Settles O20: the three checks in their order; none of them has moved the reader. -/
theorem failedReadChangesNothing : Obligations.FailedReadChangesNothing := by
  intro s n
  refine ⟨fun hn => exec_read_of_raise (getBits_argNRange n s hn),
    fun hn hl => exec_read_of_raise (getBits_argLenRange n s hn hl),
    fun hn hl ha => exec_read_of_raise (getBits_exhausted n s hn hl ?_)⟩
  cases hm : s.bs.mode with
  | deflate => simpa only [Reader.avail, hm] using ha
  | lzx => simpa only [Reader.avail, hm] using ha

/-! ## Starting and aligning -/

/-- Settles O16: the acceptance takes CTRL.MODE into the field that BS_INIT reads. -/
theorem bsInitStartsAStream : Obligations.BsInitStartsAStream := by
  refine ⟨fun _ => rfl, fun s hb => ⟨accept (encode .bsInit) s, ?_, fun _ => rfl⟩⟩
  rw [hostWrite_register s 0x000008 _ (by decide) (by decide)]
  simp [writeReg, hb]

/-- Aligning drops pending bits (40_bitstream.md R73). -/
theorem align_drops (r : Reader) : ∃ n, n ≤ r.bitcnt ∧ r.align = r.drop n := by
  unfold Reader.align
  cases r.mode with
  | deflate => exact ⟨_, Nat.mod_le _ _, rfl⟩
  | lzx => exact ⟨_, Nat.mod_le _ _, rfl⟩

@[simp] theorem align_mode (r : Reader) : r.align.mode = r.mode := by
  obtain ⟨n, _, halign⟩ := align_drops r
  rw [halign]
  rfl

@[simp] theorem align_offset (r : Reader) : r.align.offset = r.offset := by
  obtain ⟨n, _, halign⟩ := align_drops r
  rw [halign]
  rfl

@[simp] theorem drop_zero (r : Reader) : r.drop 0 = r := by
  obtain ⟨mode, offset, bitcnt, acc⟩ := r
  cases mode <;> simp [Reader.drop]

/-- A reader with no pending bit is aligned (40_bitstream.md R77). -/
theorem align_of_no_bits (r : Reader) (h : r.bitcnt = 0) : r.align = r := by
  obtain ⟨n, hn, halign⟩ := align_drops r
  obtain rfl : n = 0 := by omega
  rw [halign, drop_zero]

/-- Settles O17: with fewer pending bits than a unit, aligning drops them all. -/
theorem bsAlignDropsPendingBits : Obligations.BsAlignDropsPendingBits := by
  intro s
  refine ⟨_, rfl, ⟨rfl, rfl, rfl, rfl, rfl⟩, align_of_no_bits s.bs, fun hg => ?_⟩
  have halign := align_eq s.bs hg
  exact ⟨congrArg (fun r => completed .ok 0 { s with bs := r }) halign, congrArg Reader.bitpos halign⟩

/-! ## The frames of the small commands -/

/-- The command has completed and changed nothing beyond that but the reader, whose bit order is as it was. -/
def ReaderFrame (s t : State) : Prop :=
  t = { completed t.status.errcode t.result s with bs := t.bs } ∧ t.bs.mode = s.bs.mode

theorem ReaderFrame.moved (e : ErrCode) (v : Word) {s u : State} (hu : u = { s with bs := u.bs })
    (hm : u.bs.mode = s.bs.mode) : ReaderFrame s (completed e v u) := by
  rw [hu]
  exact ⟨rfl, hm⟩

theorem ReaderFrame.unchanged (e : ErrCode) (v : Word) (s : State) : ReaderFrame s (completed e v s) :=
  .moved e v rfl rfl

theorem readCommand_frame (n : Nat) (k : Word → Word) (s t : State) (h : readCommand n k s = .next t) :
    ReaderFrame s t := by
  rcases getBits_next n k s t h with ⟨_, _, v, u, hr, rfl⟩ | ⟨_, rfl⟩ | ⟨_, _, rfl⟩ | ⟨_, _, _, rfl⟩
  · have ho := bsGet_only n s
    rw [hr] at ho
    obtain ⟨hu, hm⟩ := ho
    exact .moved _ _ hu hm
  all_goals exact .unchanged _ _ s

theorem treeDecode_frame (k : Slot) (s t : State) (h : exec (.treeDecode k) s = .next t) : ReaderFrame s t := by
  have ho := hufDecode_only k s
  rcases treeDecode_next k s t h with ⟨_, rfl⟩ | ⟨_, _, rfl⟩ | ⟨_, _, ⟨sym, u, hr, rfl⟩ | ⟨e, u, hr, _, rfl⟩⟩
  · exact .unchanged _ _ s
  · exact .unchanged _ _ s
  · rw [hr] at ho
    obtain ⟨hu, hm⟩ := ho
    exact .moved _ _ hu hm
  · rw [hr] at ho
    obtain ⟨_, hu, hm⟩ := ho
    exact .moved _ _ hu hm

theorem treeBuild_frame (k : Slot) (count maxlen : Nat) (s t : State)
    (h : exec (.treeBuild k count maxlen) s = .next t) :
    t = { completed t.status.errcode t.result s with trees := s.trees.set k (t.trees.get k) } := by
  rcases treeBuild_next k count maxlen s t h with ⟨_, rfl⟩ | ⟨_, _, _, _, ⟨_, rfl⟩ | ⟨_, _, rfl⟩ | ⟨_, rfl⟩⟩
  all_goals simp [completed]

theorem adler32_frame (s t : State) (h : exec .adler32 s = .next t) :
    t = { completed t.status.errcode t.result s with adlerCalc := t.adlerCalc } := by
  rcases adler32_next s t h with ⟨_, rfl⟩ | ⟨_, _, _, _, rfl⟩
  all_goals rfl

/-- Settles O13: each command by what its completion can be. -/
theorem smallCommandsFrame : Obligations.SmallCommandsFrame := by
  intro i s t h
  cases i with
  | nop =>
    obtain rfl : completed .ok 0 s = t := Outcome.next.inj h
    rfl
  | bsInit =>
    obtain rfl : completed .ok 0 { s with bs := Reader.start s.cmdMode } = t := Outcome.next.inj h
    rfl
  | bsGet n => exact readCommand_frame n id s t (exec_bsGet n s ▸ h)
  | bsSkip n => exact readCommand_frame n (fun _ => 0) s t h
  | bsAlign =>
    obtain rfl : completed .ok 0 { s with bs := s.bs.align } = t := Outcome.next.inj h
    exact ⟨rfl, align_mode s.bs, align_offset s.bs⟩
  | treeBuild k count maxlen => exact treeBuild_frame k count maxlen s t h
  | treeDecode k => exact treeDecode_frame k s t h
  | inflate => trivial
  | adler32 => exact adler32_frame s t h

/-! ## The reader's invariant -/

/-- A reader between commands and an IN_LEN that passes its check: what a read needs to keep the invariant. -/
def Reading (s : State) : Prop := ReaderGood s.bs ∧ s.inLen.toNat ≤ Config.inMax

/-- The piece keeps the reader's invariant when it ends well or with a code. After a fault there is no next state. -/
def KeepsReading {α : Type} (m : Engine α) : Prop :=
  Spec Reading m (fun _ => Reading) (fun x t => ∀ e, x = .raise e → Reading t)

theorem bsGet_keepsReading (n : Nat) (hn : n ≤ 32) : KeepsReading (bsGet n) := by
  rintro s ⟨hg, hl⟩
  have hs := bsGet_spec n s hg hn hl
  cases hr : bsGet n s with
  | ok v t =>
    rw [hr] at hs
    obtain ⟨_, ht, _, _, hgood, _⟩ := hs
    have hlen : t.inLen = s.inLen := by rw [ht]
    exact ⟨hgood, hlen ▸ hl⟩
  | error x t =>
    rintro e rfl
    obtain ⟨_, rfl⟩ := bsGet_raise n s t e hr
    exact ⟨hg, hl⟩

/-- Each turn of a walk is a one-bit read (41_huffman.md R85). -/
theorem hufWalk_keepsReading (book : List (Nat × Nat)) (fuel c l : Nat) : KeepsReading (hufWalk book fuel c l) := by
  induction fuel generalizing c l with
  | zero => exact fun s hs _ _ => hs
  | succ fuel ih =>
    rw [hufWalk]
    refine Spec.bind (bsGet_keepsReading 1 (by decide)) fun b => ?_
    cases symbolOf book (l + 1) (2 * c + b.toNat) with
    | some sym => exact Spec.pure sym fun _ hs => hs
    | none => exact ih _ _

theorem hufDecode_keepsReading (k : Slot) : KeepsReading (hufDecode k) :=
  fun s hs => hufWalk_keepsReading _ _ _ _ s hs

theorem readCommand_keeps_reader (n : Nat) (k : Word → Word) (s t : State) (hs : ReaderGood s.bs)
    (h : readCommand n k s = .next t) : ReaderGood t.bs := by
  rcases getBits_next n k s t h with ⟨hn, hl, v, u, hr, rfl⟩ | ⟨_, rfl⟩ | ⟨_, _, rfl⟩ | ⟨_, _, _, rfl⟩
  · have hu := bsGet_keepsReading n hn s ⟨hs, hl⟩
    rw [hr] at hu
    exact hu.1
  all_goals exact hs

theorem treeDecode_keeps_reader (k : Slot) (s t : State) (hs : ReaderGood s.bs)
    (h : exec (.treeDecode k) s = .next t) : ReaderGood t.bs := by
  rcases treeDecode_next k s t h with ⟨_, rfl⟩ | ⟨_, _, rfl⟩ | ⟨_, hl, ⟨sym, u, hr, rfl⟩ | ⟨e, u, hr, _, rfl⟩⟩
  · exact hs
  · exact hs
  · have hu := hufDecode_keepsReading k s ⟨hs, hl⟩
    rw [hr] at hu
    exact hu.1
  · have hu := hufDecode_keepsReading k s ⟨hs, hl⟩
    rw [hr] at hu
    exact (hu e rfl).1

/-- An INFLATE ends on a reader it has kept good from its own start of the stream (42_inflate.md R91). -/
theorem inflate_keeps_reader (s t : State) (hs : ReaderGood s.bs) (h : exec .inflate s = .next t) :
    ReaderGood t.bs := by
  rcases inflate_next s t h with ⟨_, rfl⟩ | ⟨_, e, u, rfl, _, ⟨_, hgood, _⟩, _⟩
  · exact hs
  · exact hgood

/-- Every command keeps the reader's invariant; those whose frame leaves the reader out leave it as it is (40_bitstream.md
R72). -/
theorem exec_keeps_reader (i : Instr) (s t : State) (hs : ReaderGood s.bs) (h : exec i s = .next t) :
    ReaderGood t.bs := by
  cases i with
  | nop =>
    obtain rfl : completed .ok 0 s = t := Outcome.next.inj h
    exact hs
  | bsInit =>
    obtain rfl : completed .ok 0 { s with bs := Reader.start s.cmdMode } = t := Outcome.next.inj h
    exact readerGood_start s.cmdMode
  | bsGet n => exact readCommand_keeps_reader n id s t hs (exec_bsGet n s ▸ h)
  | bsSkip n => exact readCommand_keeps_reader n (fun _ => 0) s t hs h
  | bsAlign =>
    obtain rfl : completed .ok 0 { s with bs := s.bs.align } = t := Outcome.next.inj h
    exact readerGood_aligned s.bs hs
  | treeBuild k count maxlen =>
    rw [treeBuild_frame k count maxlen s t h]
    exact hs
  | treeDecode k => exact treeDecode_keeps_reader k s t hs h
  | inflate => exact inflate_keeps_reader s t hs h
  | adler32 =>
    rw [adler32_frame s t h]
    exact hs

/-- No host action but the reset input reaches the reader (10_state.md R14, R35). -/
theorem hostAction_reader (a : HostAction) (s t : State) (h : hostAction a s = .next t) :
    t = hostReset s ∨ t.bs = s.bs := by
  cases a with
  | reset => exact Or.inl (by simpa [hostAction] using h.symm)
  | read w addr =>
    rcases hostRead_next w addr s t h with ⟨v, rfl⟩ | ⟨_, v, rfl⟩
    all_goals exact Or.inr rfl
  | write w addr v =>
    right
    rcases hostWrite_next w addr v s t h with rfl | rfl | ⟨_, rfl⟩ | ⟨_, rfl⟩ | ⟨_, _, rfl⟩ | ⟨_, _, _, _, rfl⟩ |
      ⟨_, _, _, rfl⟩ | ⟨_, _, rfl⟩ | ⟨_, _, rfl⟩
    all_goals rfl

/-- Settles O57: an idle step, a command, an illegal word and a host action each leave the reader good. -/
theorem stepKeepsReader : Obligations.StepKeepsReader := by
  intro s t hs h
  rcases step_next s t h with ⟨_, _, rfl⟩ | ⟨w, _, _, hw⟩ | ⟨a, rest, n, _, _, ha⟩
  · exact hs
  · rcases engineStep_next w s t hw with ⟨i, _, hx⟩ | ⟨_, rfl⟩
    · exact exec_keeps_reader i s t hs hx
    · exact hs
  · rcases hostAction_reader a _ t ha with rfl | hbs
    · exact readerGood_start .deflate
    · rw [hbs]
      exact hs

end Sys2Proof.Machine
end

section
/-! PROOFS. The statements of 41_huffman.md. First the canonical codes of a valid set of lengths (R81, R82), then the two
commands: TREE_BUILD by the Kraft sum of its lengths, TREE_DECODE by the walk along the bits of the stream, in which the book
has a symbol exactly where a code ends. -/

namespace Sys2Proof.Machine

/-! ## Valid sets of lengths -/

theorem lenTooLong_eq_false (lens : List Nat) (maxlen : Nat) :
    lenTooLong lens maxlen = false ↔ ∀ l ∈ lens, l ≤ maxlen := by
  simp [lenTooLong]

theorem lenTooLong_eq_true (lens : List Nat) (maxlen : Nat) :
    lenTooLong lens maxlen = true ↔ ∃ l ∈ lens, maxlen < l := by
  simp [lenTooLong]

/-- With every length within MAXLEN the check of R82 is the bound on the Kraft sum: a length that used up too many code
strings would make all longer ones use up too many. -/
theorem oversubscribed_eq_false_iff_kraftSum {lens : List Nat} {maxlen : Nat} (h : ∀ l ∈ lens, l ≤ maxlen) :
    oversubscribed lens maxlen = false ↔ kraftSum lens maxlen ≤ 2 ^ maxlen := by
  rw [oversubscribed_eq_false, ← usedCodes_eq_kraftSum lens maxlen h]
  constructor
  · intro hused
    rcases Nat.eq_zero_or_pos maxlen with rfl | hpos
    · simp [usedCodes_zero]
    · exact hused maxlen hpos (Nat.le_refl _)
  · intro hkraft j _ hj
    obtain ⟨d, rfl⟩ := Nat.exists_eq_add_of_le hj
    have hgrow : usedCodes lens j * 2 ^ d ≤ 2 ^ j * 2 ^ d := by
      rw [← Nat.pow_add]
      exact Nat.le_trans (usedCodes_grows lens j d) hkraft
    exact Nat.le_of_mul_le_mul_right hgrow (Nat.two_pow_pos d)

/-! ## The codes of a valid set -/

/-- Symbol sym is present with the code c of l bits (41_huffman.md R80, R81). -/
structure IsCode (lens : List Nat) (sym l c : Nat) : Prop where
  len : lens[sym]? = some l
  present : l ≠ 0
  code : (codes lens)[sym]? = some c

theorem IsCode.le_maxlen {lens : List Nat} {maxlen sym l c : Nat} (h : IsCode lens sym l c)
    (hv : ValidLengths lens maxlen) : l ≤ maxlen :=
  (lenTooLong_eq_false lens maxlen).mp hv.1 l (List.mem_of_getElem? h.len)

/-- A valid set has code strings enough for every code (41_huffman.md R81, R82). -/
theorem IsCode.fits {lens : List Nat} {maxlen sym l c : Nat} (h : IsCode lens sym l c) (hv : ValidLengths lens maxlen)
    (h16 : maxlen ≤ 16) : c < 2 ^ l := by
  have hle := h.le_maxlen hv
  have hlt := (code_lt_used lens sym l c h.len h.present (by omega) h.code).2
  have hused := (oversubscribed_eq_false lens maxlen).mp hv.2 l (Nat.pos_of_ne_zero h.present) hle
  omega

/-- Codes of one length rise with the symbol (41_huffman.md R81). -/
theorem IsCode.lt_of_symbol_lt {lens : List Nat} {a b l ca cb : Nat} (ha : IsCode lens a l ca) (hb : IsCode lens b l cb)
    (h16 : l ≤ 16) (hab : a < b) : ca < cb := by
  have hca := ha.code.symm.trans (codes_get lens a l ha.len ha.present h16)
  have hcb := hb.code.symm.trans (codes_get lens b l hb.len hb.present h16)
  have hstep := count_take_step lens a b l ha.len hab
  simp only [Option.some.injEq] at hca hcb
  omega

/-- A longer code lies past every extension of a shorter one (41_huffman.md R81). -/
theorem IsCode.extension_le {lens : List Nat} {a b la lb ca cb : Nat} (ha : IsCode lens a la ca)
    (hb : IsCode lens b lb cb) (h16 : lb ≤ 16) (hlen : la < lb) : (ca + 1) * 2 ^ (lb - la) ≤ cb := by
  have hca := (code_lt_used lens a la ca ha.len ha.present (by omega) ha.code).2
  have hcb := (code_lt_used lens b lb cb hb.len hb.present h16 hb.code).1
  have hpast := firstCode_past lens la (lb - la) (by omega)
  rw [Nat.add_sub_cancel' (Nat.le_of_lt hlen)] at hpast
  calc (ca + 1) * 2 ^ (lb - la) ≤ usedCodes lens la * 2 ^ (lb - la) := Nat.mul_le_mul_right _ hca
    _ ≤ firstCode lens lb := hpast
    _ ≤ cb := hcb

/-- A bit string is the code of the number it spells (41_huffman.md R86). -/
theorem codeBits_msbFirst (xs : List Bool) : codeBits xs.length (msbFirst xs) = xs :=
  msbFirst_inj _ _ (codeBits_length _ _) (msbFirst_codeBits _ _ (msbFirst_lt xs))

/-- The extensions of a code of la bits to lb bits are the numbers from ca * 2^(lb-la) up to the next code's. -/
theorem lt_of_codeBits_prefix {la lb ca cb : Nat} (hca : ca < 2 ^ la) (hcb : cb < 2 ^ lb)
    (h : codeBits la ca <+: codeBits lb cb) :
    la ≤ lb ∧ ca * 2 ^ (lb - la) ≤ cb ∧ cb < (ca + 1) * 2 ^ (lb - la) := by
  have hle : la ≤ lb := by simpa using h.length_le
  obtain ⟨rest, hrest⟩ := h
  have hlen : rest.length = lb - la := by
    have := congrArg List.length hrest
    simp only [List.length_append, codeBits_length] at this
    omega
  have hvalue : ca * 2 ^ (lb - la) + msbFirst rest = cb := by
    have := congrArg msbFirst hrest
    rwa [msbFirst_append_list, msbFirst_codeBits la ca hca, msbFirst_codeBits lb cb hcb, hlen] at this
  have hlt : msbFirst rest < 2 ^ (lb - la) := hlen ▸ msbFirst_lt rest
  rw [Nat.add_one_mul]
  omega

/-- The codes of a valid set are prefix-free (41_huffman.md R81). -/
theorem IsCode.not_prefix {lens : List Nat} {maxlen a b la lb ca cb : Nat} (ha : IsCode lens a la ca)
    (hb : IsCode lens b lb cb) (hv : ValidLengths lens maxlen) (h16 : maxlen ≤ 16) (hab : a ≠ b) :
    ¬ codeBits la ca <+: codeBits lb cb := by
  intro hpre
  have hlb := hb.le_maxlen hv
  obtain ⟨hle, hlo, hhi⟩ := lt_of_codeBits_prefix (ha.fits hv h16) (hb.fits hv h16) hpre
  rcases Nat.eq_or_lt_of_le hle with rfl | hlt
  · simp only [Nat.sub_self, Nat.pow_zero, Nat.mul_one] at hlo hhi
    rcases Nat.lt_or_gt_of_ne hab with h | h
    · have := ha.lt_of_symbol_lt hb (by omega) h
      omega
    · have := hb.lt_of_symbol_lt ha (by omega) h
      omega
  · have := ha.extension_le hb (by omega) hlt
    omega

/-- Settles O22: the four properties of the codes of two symbols. -/
theorem codesArePrefixFree : Obligations.CodesArePrefixFree := by
  intro lens maxlen a b la lb ca cb h16 hv hab hla hlb ha0 hb0 hca hcb
  have ha : IsCode lens a la ca := ⟨hla, ha0, hca⟩
  have hb : IsCode lens b lb cb := ⟨hlb, hb0, hcb⟩
  have hb16 : lb ≤ 16 := Nat.le_trans (hb.le_maxlen hv) h16
  refine ⟨ha.fits hv h16, ?_, ha.extension_le hb hb16, ha.not_prefix hb hv h16 hab⟩
  rintro rfl
  exact ha.lt_of_symbol_lt hb hb16

/-! ## The book of a built slot -/

/-- A symbol the search finds has the code searched for (41_huffman.md R85). -/
theorem isCode_of_symbolOf {lens : List Nat} {maxlen sym l c : Nat} (hl : l ≠ 0)
    (h : symbolOf (TreeSlot.built lens maxlen).book l c = some sym) : IsCode lens sym l c := by
  have hspec := symbolOf_spec (TreeSlot.built lens maxlen).book l c
  rw [h] at hspec
  obtain ⟨hlen, hcode⟩ := (built_book lens maxlen sym l c).mp hspec.1
  exact ⟨hlen, hl, hcode⟩

/-- The search for a symbol's code finds the symbol and no other: its code is no other symbol's (41_huffman.md R85). -/
theorem symbolOf_code {lens : List Nat} {maxlen sym l c : Nat} (h : IsCode lens sym l c)
    (hv : ValidLengths lens maxlen) (h16 : maxlen ≤ 16) :
    symbolOf (TreeSlot.built lens maxlen).book l c = some sym := by
  cases hr : symbolOf (TreeSlot.built lens maxlen).book l c with
  | none =>
    have hspec := symbolOf_spec (TreeSlot.built lens maxlen).book l c
    rw [hr] at hspec
    exact absurd ((built_book lens maxlen sym l c).mpr ⟨h.len, h.code⟩) (hspec sym)
  | some i =>
    have hi := isCode_of_symbolOf h.present hr
    by_cases hne : i = sym
    · rw [hne]
    · exact absurd List.prefix_rfl (hi.not_prefix h hv h16 hne)

/-- Where no code of k bits begins the bits, the search after k of them finds nothing (41_huffman.md R85). -/
theorem symbolOf_take_eq_none {lens : List Nat} {maxlen k : Nat} {bits : List Bool} (h0 : 0 < k) (hk : k ≤ bits.length)
    (hno : ∀ sym c, IsCode lens sym k c → ¬ codeBits k c <+: bits) :
    symbolOf (TreeSlot.built lens maxlen).book k (msbFirst (bits.take k)) = none := by
  rw [Option.eq_none_iff_forall_ne_some]
  intro sym hsym
  refine hno sym _ (isCode_of_symbolOf (by omega) hsym) ?_
  have hbits : codeBits k (msbFirst (bits.take k)) = bits.take k := by
    simpa [Nat.min_eq_left hk] using codeBits_msbFirst (bits.take k)
  rw [hbits]
  exact List.take_prefix k bits

/-- A good slot that is valid is a built one (10_state.md R36). -/
theorem slotGood_eq_built {t : TreeSlot} (h : SlotGood t) (hvalid : t.valid = true) :
    ∃ lens maxlen, t = .built lens maxlen ∧ lens.length ≤ 512 ∧ maxlen ≤ 16 ∧ ValidLengths lens maxlen := by
  rcases h with rfl | ⟨hbuilt, hcount, _, h16, hv⟩
  · exact absurd hvalid (by decide)
  · exact ⟨t.lens, t.maxlen, hbuilt, hcount, h16, hv⟩

/-- LMAX of a built slot bounds its lengths (41_huffman.md R83). -/
theorem le_built_lmax {lens : List Nat} (maxlen : Nat) {l : Nat} (h : l ∈ lens) :
    l ≤ (TreeSlot.built lens maxlen).lmax :=
  (foldl_max_spec lens 0).2.1 l h

/-- LMAX of a built slot is one of its lengths, or 0 (41_huffman.md R83). -/
theorem built_lmax_eq_zero_or_mem (lens : List Nat) (maxlen : Nat) :
    (TreeSlot.built lens maxlen).lmax = 0 ∨ (TreeSlot.built lens maxlen).lmax ∈ lens :=
  (foldl_max_spec lens 0).2.2

/-! ## TREE_BUILD -/

/-- A TREE_BUILD of a valid set of lengths writes its slot (41_huffman.md R83, R84). -/
theorem treeBuild_valid (k : Slot) (count maxlen : Nat) (s : State) (lens : List Nat)
    (hp : treeParamBad count maxlen = false) (hrun : clenList 0 count s = .ok lens s) (hv : ValidLengths lens maxlen) :
    exec (.treeBuild k count maxlen) s
      = .next (completed .ok 0 { s with trees := s.trees.set k (.built lens maxlen) }) :=
  runCommand_ok _ _ _ _ (by simp [engine_bind, engine_map, hp, hrun, hufBuild_run, hv.1, hv.2])

/-- A TREE_BUILD of too many codes within MAXLEN ends with FMT_OVERSUBSCRIBED and its slot cleared (41_huffman.md R82 to
R84). -/
theorem treeBuild_oversubscribed (k : Slot) (count maxlen : Nat) (s : State) (lens : List Nat)
    (hp : treeParamBad count maxlen = false) (hrun : clenList 0 count s = .ok lens s)
    (hlens : lenTooLong lens maxlen = false) (hover : oversubscribed lens maxlen = true) :
    exec (.treeBuild k count maxlen) s
      = .next (completed .fmtOversubscribed 0 { s with trees := s.trees.set k .cleared }) :=
  runCommand_raise _ _ _ _ (by simp [engine_bind, engine_map, hp, hrun, hufBuild_run, hlens, hover])

/-- A TREE_BUILD with an operand out of range does nothing else than complete (41_huffman.md R84). -/
theorem treeBuild_argTreeParam (k : Slot) (count maxlen : Nat) (s : State) (hp : treeParamBad count maxlen = true) :
    exec (.treeBuild k count maxlen) s = .next (completed .argTreeParam 0 s) :=
  runCommand_raise _ _ _ _ (by simp [engine_bind, hp])

/-- The operands outside TREE_BUILD's ranges (41_huffman.md R84). -/
theorem treeParamBad_eq_true (count maxlen : Nat) :
    treeParamBad count maxlen = true ↔ maxlen < 1 ∨ 16 < maxlen ∨ 512 < count := by
  simp only [treeParamBad, Bool.or_eq_true, decide_eq_true_eq, or_assoc]
  exact Iff.rfl

/-- Settles O23: the Kraft sum makes the set valid, and LMAX is the maximum the build folds. -/
theorem treeBuildWritesTheSlot : Obligations.TreeBuildWritesTheSlot := by
  intro s k entries maxlen h1 h16 hcount hclen hlens hkraft
  have hlens' : ∀ l ∈ entries.map (fun e => e.toNat), l ≤ maxlen := by simpa using hlens
  have hv : ValidLengths (entries.map (fun e => e.toNat)) maxlen :=
    ⟨(lenTooLong_eq_false _ _).mpr hlens', (oversubscribed_eq_false_iff_kraftSum hlens').mpr hkraft⟩
  refine ⟨_, treeBuild_valid k _ maxlen s _ (treeParamBad_eq_false hcount h1 h16) (clenList_holds s entries 0 hclen) hv,
    ?_⟩
  simp only [completed, trees_get_set_same]
  refine ⟨trivial, rfl, List.length_map _, rfl, rfl, fun e he => le_built_lmax maxlen (List.mem_map_of_mem he), ?_⟩
  simpa using built_lmax_eq_zero_or_mem (entries.map (fun e => e.toNat)) maxlen

/-- Settles O24: each check of R82 and R84 with those before it passed. -/
theorem treeBuildErrors : Obligations.TreeBuildErrors := by
  intro s k entries maxlen
  refine ⟨fun hbad => treeBuild_argTreeParam k _ maxlen s ((treeParamBad_eq_true _ _).mpr hbad),
    fun h1 h16 hcount hclen => ?_⟩
  have hp := treeParamBad_eq_false hcount h1 h16
  have hrun := clenList_holds s entries 0 hclen
  constructor
  · rintro ⟨e, he, hlong⟩
    exact treeBuild_lenTooLong k _ maxlen s _ hp hrun
      ((lenTooLong_eq_true _ _).mpr ⟨e.toNat, List.mem_map_of_mem he, hlong⟩)
  · intro hlens hkraft
    have hlens' : ∀ l ∈ entries.map (fun e => e.toNat), l ≤ maxlen := by simpa using hlens
    refine treeBuild_oversubscribed k _ maxlen s _ hp hrun ((lenTooLong_eq_false _ _).mpr hlens') ?_
    rw [← Bool.not_eq_false, oversubscribed_eq_false_iff_kraftSum hlens']
    exact Nat.not_le.mpr hkraft

/-! ## TREE_DECODE -/

/-- Settles O27: the two checks in their order, before any bit is read. -/
theorem treeDecodeArgumentErrors : Obligations.TreeDecodeArgumentErrors := by
  intro s k
  constructor
  · intro hvalid
    exact runCommand_raise _ _ _ _ (by simp [engine_bind, checkValid, hvalid])
  · intro hvalid hl
    exact runCommand_raise _ _ _ _ (by simp [engine_bind, checkValid, checkInLen, hvalid, hl])

/-- Past its checks TREE_DECODE answers the symbol HufDecode answers (41_huffman.md R87). -/
theorem treeDecode_of_ok {k : Slot} {s u : State} {sym : Nat} (hvalid : (s.trees.get k).valid = true)
    (hl : s.inLen.toNat ≤ Config.inMax) (hrun : hufDecode k s = .ok sym u) :
    exec (.treeDecode k) s = .next (completed .ok (BitVec.ofNat 32 sym) u) :=
  runCommand_ok _ _ _ _ (by simp [engine_bind, engine_map, checkValid, checkInLen_run s hl, hvalid, hrun])

/-- Past its checks TREE_DECODE ends with the code HufDecode raises (41_huffman.md R87). -/
theorem treeDecode_of_raise {k : Slot} {s u : State} {e : ErrCode} (hvalid : (s.trees.get k).valid = true)
    (hl : s.inLen.toNat ≤ Config.inMax) (hrun : hufDecode k s = .error (.raise e) u) :
    exec (.treeDecode k) s = .next (completed e 0 u) :=
  runCommand_raise _ _ _ _ (by simp [engine_bind, engine_map, checkValid, checkInLen_run s hl, hvalid, hrun])

theorem hufDecode_built {k : Slot} {s : State} {lens : List Nat} {maxlen : Nat}
    (ht : s.trees.get k = .built lens maxlen) :
    hufDecode k s = hufWalk (TreeSlot.built lens maxlen).book (TreeSlot.built lens maxlen).lmax 0 0 s := by
  rw [hufDecode, ht]

/-- HufDecode along the bits of a symbol's code answers the symbol: no shorter part of the code is a code (41_huffman.md R85,
R88). -/
theorem hufDecode_code {k : Slot} {s : State} {lens : List Nat} {maxlen sym l c : Nat}
    (ht : s.trees.get k = .built lens maxlen) (hv : ValidLengths lens maxlen) (h16 : maxlen ≤ 16)
    (hcode : IsCode lens sym l c) (hl : s.inLen.toNat ≤ Config.inMax) (hg : ReaderGood s.bs) (hc : Coherent s)
    (hr : Readable s l) (hb : StreamHolds s.bs.mode s.inRam s.bs.bitpos (codeBits l c)) :
    ∃ u, hufDecode k s = .ok sym u ∧ u = { s with bs := u.bs } ∧ u.bs.mode = s.bs.mode ∧
      u.bs.bitpos = s.bs.bitpos + l ∧ ReaderGood u.bs ∧ Coherent u := by
  have hne : codeBits l c ≠ [] := List.ne_nil_of_length_pos (by simpa using Nat.pos_of_ne_zero hcode.present)
  have hmax : (codeBits l c).length ≤ (TreeSlot.built lens maxlen).lmax := by
    simpa using le_built_lmax maxlen (List.mem_of_getElem? hcode.len)
  have hfound : symbolOf (TreeSlot.built lens maxlen).book (0 + (codeBits l c).length)
      (0 * 2 ^ (codeBits l c).length + msbFirst (codeBits l c)) = some sym := by
    simpa [msbFirst_codeBits l c (hcode.fits hv h16)] using symbolOf_code hcode hv h16
  have hnone : ∀ j, 0 < j → j < (codeBits l c).length → symbolOf (TreeSlot.built lens maxlen).book (0 + j)
      (0 * 2 ^ j + msbFirst ((codeBits l c).take j)) = none := by
    intro j h0 hj
    rw [Nat.zero_add, Nat.zero_mul, Nat.zero_add]
    refine symbolOf_take_eq_none h0 (Nat.le_of_lt hj) fun i ci hi => hi.not_prefix hcode hv h16 ?_
    rintro rfl
    obtain rfl : j = l := Option.some.inj (hi.len.symm.trans hcode.len)
    simp at hj
  have havail : (codeBits l c).length ≤ s.bs.avail s.inLen.toNat := by simpa using (readable_iff s l hg).mp hr
  simpa [hufDecode_built ht] using
    hufWalk_match _ (codeBits l c) _ 0 0 sym s hne hmax hg hl hc havail hb hnone hfound

/-- Settles O25: HufDecode along the code, as TREE_DECODE's RESULT; the symbol is below 512. -/
theorem treeDecodeReturnsTheSymbol : Obligations.TreeDecodeReturnsTheSymbol := by
  intro s k sym l c hslot hvalid hlen hpresent hcode hl hg hc hr hb
  obtain ⟨lens, maxlen, ht, hcount, h16, hv⟩ := slotGood_eq_built hslot hvalid
  rw [ht] at hlen hcode
  obtain ⟨u, hrun, hu, hmode, hpos, hgood, hcoh⟩ :=
    hufDecode_code ht hv h16 ⟨hlen, hpresent, hcode⟩ hl hg hc hr hb
  have hsym : sym < lens.length := (List.getElem?_eq_some_iff.mp hlen).1
  refine ⟨_, treeDecode_of_ok hvalid hl hrun, congrArg (completed .ok _) hu, ?_, hmode, hpos, hgood, hcoh⟩
  exact Nat.mod_eq_of_lt (by omega)

/-- Settles O26: no search along the bits finds a symbol, so the walk ends after LMAX bits or where the bits do. -/
theorem treeDecodeNoCode : Obligations.TreeDecodeNoCode := by
  intro s k bits hslot hvalid hno hl hg hc hr hb
  obtain ⟨lens, maxlen, ht, _, _, _⟩ := slotGood_eq_built hslot hvalid
  rw [ht] at hno ⊢
  have havail : bits.length ≤ s.bs.avail s.inLen.toNat := (readable_iff s _ hg).mp hr
  have hnone : ∀ j, 0 < j → j ≤ bits.length → symbolOf (TreeSlot.built lens maxlen).book (0 + j)
      (0 * 2 ^ j + msbFirst (bits.take j)) = none := by
    intro j h0 hj
    rw [Nat.zero_add, Nat.zero_mul, Nat.zero_add]
    exact symbolOf_take_eq_none h0 hj fun sym c hcode => hno sym j c hcode.len hcode.present hcode.code
  constructor
  · intro hlmax
    obtain ⟨u, hrun, hu, hmode, hpos⟩ := hufWalk_noCode _ bits 0 0 s hg hl hc havail hb hnone
    rw [hlmax, ← hufDecode_built ht] at hrun
    exact ⟨_, treeDecode_of_raise hvalid hl hrun, congrArg (completed .fmtInvalidCode 0) hu, hmode, hlmax ▸ hpos⟩
  · intro hlmax hend
    have hall : s.bs.avail s.inLen.toNat = bits.length := by
      rw [readable_iff s _ hg] at hend
      omega
    obtain ⟨u, hrun, hu, hmode, hpos⟩ := hufWalk_exhausted _ bits _ 0 0 s hlmax hg hl hc hall hb hnone
    rw [← hufDecode_built ht] at hrun
    exact ⟨_, treeDecode_of_raise hvalid hl hrun, congrArg (completed .fmtInputExhausted 0) hu, hmode, hpos⟩

end Sys2Proof.Machine
end

section
/-! PROOFS. The statements of 42_inflate.md about INFLATE's argument checks, its frame and a match. -/

namespace Sys2Proof.Machine

/-! ## The argument checks and the frame -/

/-- Passing the argument checks of R90 is what INFLATE tests. -/
theorem inflateArgsBad_eq_false {s : State} (h : InflateArgsGood s) : inflateArgsBad s = false := by
  obtain ⟨h2, hin, hout⟩ := h
  simp [inflateArgsBad, hin, hout, Nat.lt_of_succ_le h2]

/-- Settles O31: each of the three bad arguments fails the one check made before anything else. -/
theorem inflateArgumentErrors : Obligations.InflateArgumentErrors := by
  intro s h
  have hbad : inflateArgsBad s = true := by simpa [inflateArgsBad, or_assoc] using h
  change execInflate s = _
  rw [execInflate, if_pos hbad, complete_eq_completed]

/-- Past its argument checks INFLATE completes with success when its body ends well (42_inflate.md R108). -/
theorem exec_inflate_of_ok {s u : State} (hg : InflateArgsGood s) (h : inflateBody s = .ok () u) :
    exec .inflate s = .next (inflateDone .ok u) := by
  change execInflate s = _
  simp [execInflate, inflateArgsBad_eq_false hg, h]

/-- Past its argument checks INFLATE completes with the code its body raises (42_inflate.md R108). -/
theorem exec_inflate_of_raise {s u : State} {e : ErrCode} (hg : InflateArgsGood s)
    (h : inflateBody s = .error (.raise e) u) : exec .inflate s = .next (inflateDone e u) := by
  change execInflate s = _
  simp [execInflate, inflateArgsBad_eq_false hg, h]

/-- Everything a completed INFLATE past its argument checks can have done (42_inflate.md R108). -/
theorem inflate_next_of_argsGood {s t : State} (hg : InflateArgsGood s) (h : exec .inflate s = .next t) :
    ∃ e u, t = inflateDone e u ∧ EngineFrame (inflateInit s) u ∧
      ((e = .ok ∧ inflateBody s = .ok () u) ∨ (InflateCode e ∧ inflateBody s = .error (.raise e) u)) := by
  rcases inflate_next s t h with ⟨hbad, _⟩ | ⟨_, e, u, ht, hf, _, hend⟩
  · simp [inflateArgsBad_eq_false hg] at hbad
  · exact ⟨e, u, ht, hf, hend⟩

/-- What INFLATE may change is nothing of the host's side (20_memory.md R49). -/
theorem EngineFrame.hostSideSame {s t : State} (h : EngineFrame s t) : HostSideSame s t := by
  rw [h.same]
  exact ⟨rfl, rfl, rfl, rfl, rfl, rfl, rfl, rfl, rfl, rfl, rfl, rfl⟩

/-- Settles O33: the frame every piece of INFLATE keeps, from OUT_POS 0 on. -/
theorem inflateFrame : Obligations.InflateFrame := by
  intro s hg t h
  obtain ⟨e, u, rfl, hf, _⟩ := inflate_next_of_argsGood hg h
  have hcap : u.outPos ≤ max 0 s.outCap.toNat := hf.cap
  have ht3 : u.trees.t3 = s.trees.t3 := hf.t3
  refine ⟨hf.hostSideSame, ?_, rfl, ?_, hf.above⟩
  · simp [InflateSlots, ht3]
  · rw [inflateDone_outPos]
    omega

/-! ## A match -/

/-- The rows of R103 are the model's tables. -/
theorem lengthRows_tables : ∀ r ∈ lengthRows, lBase.getD (r.1 - 257) 0 = r.2.1 ∧ lExtra.getD (r.1 - 257) 0 = r.2.2 := by
  decide

/-- The rows of R104 are the model's tables. -/
theorem distanceRows_tables :
    ∀ r ∈ distanceRows, r.1 < 30 ∧ dBase.getD r.1 0 = r.2.1 ∧ dExtra.getD r.1 0 = r.2.2 := by
  decide

/-- Every distance is at least 1 (42_inflate.md R104). -/
theorem distanceRows_pos : ∀ r ∈ distanceRows, 1 ≤ r.2.1 := by decide

/-- Storing the next byte leaves the output written up to the new OUT_POS. -/
theorem written_write_next {m : Memory Byte} {n : Nat} (h : Written m 0 n) (b : Byte) :
    Written (m.write n b) 0 (n + 1) := by
  intro i h0 hi
  rw [memory_read_write]
  split
  · rfl
  · exact h i h0 (by omega)

/-- One turn of the copy: the byte `dist` back goes to OUT_POS, then the rest is copied (42_inflate.md R105). -/
theorem matchCopy_succ {s : State} {dist : Nat} {b : Byte} (n : Nat) (hb : s.outRam.read (s.outPos - dist) = some b) :
    matchCopy dist (n + 1) s =
      matchCopy dist n { s with outRam := s.outRam.write s.outPos b, outPos := s.outPos + 1 } := by
  simp only [matchCopy, engine_bind, engine_get, readOut_some s _ b hb, pushOut_run]

/-- A copy of n more bytes after its first one is a copy of n + 1: the written byte repeats the one `dist` back
(42_inflate.md R105). -/
theorem matchCopied_succ {s t : State} {dist n : Nat} {b : Byte} (h1 : 1 ≤ dist) (hd : dist ≤ s.outPos)
    (hb : s.outRam.read (s.outPos - dist) = some b)
    (h : MatchCopied dist n { s with outRam := s.outRam.write s.outPos b, outPos := s.outPos + 1 } t) :
    MatchCopied dist (n + 1) s t := by
  obtain ⟨hsame, hcopy, hrest⟩ := h
  simp only [memory_read_write] at hcopy hrest
  refine ⟨by rw [hsame]; simp only [Nat.add_assoc, Nat.add_comm 1], fun i hi => ?_, fun a ha => ?_⟩
  · cases i with
    | zero => rw [hrest _ (Or.inl (by omega)), if_pos (by omega), Nat.zero_mod, Nat.add_zero, hb]
    | succ j =>
      have hlt : j % dist < dist := Nat.mod_lt _ h1
      rw [show s.outPos + (j + 1) = s.outPos + 1 + j by omega, hcopy j (by omega), ← Nat.mod_add_mod j dist 1]
      by_cases hlast : j % dist + 1 = dist
      · rw [hlast, Nat.mod_self, if_pos (by omega), Nat.add_zero, hb]
      · have hnext : j % dist + 1 < dist := by omega
        rw [Nat.mod_eq_of_lt hnext, if_neg (by omega)]
        congr 1
        omega
  · rw [hrest a (by omega), if_neg (by omega)]

/-- The copy of a match that starts inside the output repeats its source (42_inflate.md R105). -/
theorem matchCopy_copied (dist n : Nat) (s : State) (h1 : 1 ≤ dist) (hd : dist ≤ s.outPos)
    (hw : Written s.outRam 0 s.outPos) : ∃ t, matchCopy dist n s = .ok () t ∧ MatchCopied dist n s t := by
  induction n generalizing s with
  | zero => exact ⟨s, rfl, rfl, fun i hi => absurd hi (Nat.not_lt_zero i), fun _ _ => rfl⟩
  | succ n ih =>
    obtain ⟨b, hb⟩ := Option.isSome_iff_exists.mp (hw (s.outPos - dist) (Nat.zero_le _) (by omega))
    obtain ⟨t, hrun, ht⟩ := ih { s with outRam := s.outRam.write s.outPos b, outPos := s.outPos + 1 }
      (Nat.le_succ_of_le hd) (written_write_next hw b)
    exact ⟨t, (matchCopy_succ n hb).trans hrun, matchCopied_succ h1 hd hb ht⟩

/-- A match takes its length and its distance by the rows of the tables and then comes to its two checks
(42_inflate.md R103 to R105). -/
theorem backReference_rows {sym lbase lextra d dbase dextra : Nat} {s t u v : State} {x y : Word}
    (hlen : (sym, lbase, lextra) ∈ lengthRows) (hx : bsGet lextra s = .ok x t) (hd : hufDecode .t1 t = .ok d u)
    (hdist : (d, dbase, dextra) ∈ distanceRows) (hy : bsGet dextra u = .ok y v) :
    backReference sym s =
      if v.outPos < dbase + y.toNat then .error (.raise .bndDistTooFar) v
      else if v.outCap.toNat < v.outPos + (lbase + x.toNat) then .error (.raise .bndOutTooSmall) v
      else matchCopy (dbase + y.toNat) (lbase + x.toNat) v := by
  obtain ⟨hlb, hle⟩ := lengthRows_tables _ hlen
  obtain ⟨hd30, hdb, hde⟩ := distanceRows_tables _ hdist
  simp only at hlb hle hd30 hdb hde
  have hlength : matchLength sym s = .ok (lbase + x.toNat) t := by
    simp only [matchLength, engine_bind, hle, hx, hlb, engine_pure]
  have hdistance : matchDistance t = .ok (dbase + y.toNat) v := by
    simp only [matchDistance, engine_bind, hd, Nat.not_le.mpr hd30, decide_false, failIf_false, hde, hy, hdb,
      engine_pure]
  simp only [backReference, engine_bind, hlength, hdistance, matchChecks, engine_get, failIf_run, decide_eq_true_eq]
  by_cases hfar : v.outPos < dbase + y.toNat
  · simp only [if_pos hfar]
  · by_cases hbig : v.outCap.toNat < v.outPos + (lbase + x.toNat)
    · simp only [if_neg hfar, if_pos hbig]
    · simp only [if_neg hfar, if_neg hbig]

/-- Settles O39: the copy by its turns, the two checks by the rows of the tables. -/
theorem matchCopyRepeats : Obligations.MatchCopyRepeats := by
  refine ⟨fun s dist len h1 hd hw => matchCopy_copied dist len s h1 hd hw, ?_⟩
  intro sym lbase lextra d dbase dextra s t u v x y hlen hx hd hdist hy len dist
  rw [backReference_rows hlen hx hd hdist hy]
  refine ⟨fun hfar => if_pos hfar, fun hnear hbig => ?_, fun hnear hfits hw => ?_⟩
  · rw [if_neg (Nat.not_lt.mpr hnear), if_pos hbig]
  · rw [if_neg (Nat.not_lt.mpr hnear), if_neg (Nat.not_lt.mpr hfits)]
    have hbase := distanceRows_pos _ hdist
    exact matchCopy_copied dist len v (Nat.le_add_right_of_le hbase) hnear hw

end Sys2Proof.Machine
end

section
/-! PROOFS. INFLATE depends on IN_LEN, OUT_CAP and its input alone (42_inflate.md R91, 70_reset_and_hazards.md R138,
R139), and its checksum (R107). Both are read off one fact about the pieces before the trailer: run from two states
that are alike they end alike, leave the trailer's registers 0 and never raise CHK_ADLER_MISMATCH. -/

namespace Sys2Proof.Machine

variable {α β : Type} {K L : List Slot} {s t : State}

/-! ## States that are alike -/

/-- The two states agree on everything INFLATE looks at after its initialisation, and on the slots K. -/
structure Alike (K : List Slot) (s t : State) : Prop where
  inLen : t.inLen = s.inLen
  outCap : t.outCap = s.outCap
  input : ∀ a, a < s.inLen.toNat → t.inRam.read a = s.inRam.read a
  mode : s.bs.mode = .deflate
  bs : t.bs = s.bs
  outPos : t.outPos = s.outPos
  output : ∀ a, a < s.outPos → t.outRam.read a = s.outRam.read a
  zhdr : t.zhdr = s.zhdr
  dictid : t.dictid = s.dictid
  adlerCalc : t.adlerCalc = s.adlerCalc
  adlerStored : t.adlerStored = s.adlerStored
  blkinfo : t.blkinfo = s.blkinfo
  ckpres : t.status.ckpres = s.status.ckpres
  ckok : t.status.ckok = s.status.ckok
  fdict : t.status.fdict = s.status.fdict
  slots : ∀ k ∈ K, t.trees.get k = s.trees.get k

/-- No trailer has been read: its registers are as the initialisation left them (42_inflate.md R91, R107). -/
def TrailerClear (s : State) : Prop := s.adlerStored = 0 ∧ s.status.ckpres = false ∧ s.status.ckok = false

/-- Two states that are alike, before the trailer. -/
structure Paired (K : List Slot) (s t : State) : Prop extends Alike K s t where
  clear : TrailerClear s

theorem Alike.forget (h : Alike K s t) : Alike [] s t := { h with slots := fun _ hk => absurd hk List.not_mem_nil }

theorem Paired.forget (h : Paired K s t) : Paired [] s t := ⟨h.toAlike.forget, h.clear⟩

/-- The initialisation makes any two states alike that agree on IN_LEN, OUT_CAP and the input (42_inflate.md R91). -/
theorem paired_inflateInit (hlen : t.inLen = s.inLen) (hcap : t.outCap = s.outCap)
    (hin : ∀ a, a < s.inLen.toNat → t.inRam.read a = s.inRam.read a) : Paired [] (inflateInit s) (inflateInit t) where
  inLen := hlen
  outCap := hcap
  input := hin
  mode := rfl
  bs := rfl
  outPos := rfl
  output _ ha := absurd ha (Nat.not_lt_zero _)
  zhdr := rfl
  dictid := rfl
  adlerCalc := rfl
  adlerStored := rfl
  blkinfo := rfl
  ckpres := rfl
  ckok := rfl
  fdict := rfl
  slots _ hk := absurd hk List.not_mem_nil
  clear := ⟨rfl, rfl, rfl⟩

/-! ## Pieces that end alike -/

/-- Two runs end the same way: both well with one value and states in R, both with one code and states in E, or the
first with a fault, of which nothing is asked. -/
inductive SameEnd (R : State → State → Prop) (E : ErrCode → State → State → Prop) :
    EStateM.Result Stop State α → EStateM.Result Stop State α → Prop
  | ok {a : α} {s t : State} (h : R s t) : SameEnd R E (.ok a s) (.ok a t)
  | raise {e : ErrCode} {s t : State} (h : E e s t) : SameEnd R E (.error (.raise e) s) (.error (.raise e) t)
  | fault {f : Fault} {s : State} {r : EStateM.Result Stop State α} : SameEnd R E (.error (.fault f) s) r

/-- How two runs stop before the trailer: alike, and not for the trailer's sake. -/
def StoppedAlike (e : ErrCode) (s t : State) : Prop := e ≠ .chkAdlerMismatch ∧ Paired [] s t

/-- From states alike on the slots K the piece ends alike, well with the states alike on the slots L. -/
def Follows (K : List Slot) (m : Engine α) (L : List Slot) : Prop :=
  ∀ s t, Paired K s t → SameEnd (Paired L) StoppedAlike (m s) (m t)

theorem engine_get_bind (f : State → Engine α) (s : State) : (get >>= f) s = f s s := rfl

/-- A piece goes on from where the first run of it ended well. -/
theorem SameEnd.bind {R R' : State → State → Prop} {E : ErrCode → State → State → Prop} {m : Engine α}
    {f : α → Engine β} (hm : SameEnd R E (m s) (m t))
    (hf : ∀ a u v, m s = .ok a u → R u v → SameEnd R' E (f a u) (f a v)) :
    SameEnd R' E ((m >>= f) s) ((m >>= f) t) := by
  rw [engine_bind, engine_bind]
  generalize m t = r₂ at hm
  generalize hr : m s = r₁ at hm
  cases hm with
  | ok h => exact hf _ _ _ hr h
  | raise h => exact .raise h
  | fault => exact .fault

theorem SameEnd.mono {R R' : State → State → Prop} {E E' : ErrCode → State → State → Prop}
    {r₁ r₂ : EStateM.Result Stop State α} (h : SameEnd R E r₁ r₂) (hR : ∀ s t, R s t → R' s t)
    (hE : ∀ e s t, E e s t → E' e s t) : SameEnd R' E' r₁ r₂ := by
  cases h with
  | ok h => exact .ok (hR _ _ h)
  | raise h => exact .raise (hE _ _ _ h)
  | fault => exact .fault

theorem Follows.bind {M : List Slot} {m : Engine α} {f : α → Engine β} (hm : Follows K m L)
    (hf : ∀ a, Follows L (f a) M) : Follows K (m >>= f) M :=
  fun s t h => (hm s t h).bind fun a u v _ huv => hf a u v huv

theorem Follows.ite {c : Prop} [Decidable c] {m n : Engine α} (hm : Follows K m L) (hn : Follows K n L) :
    Follows K (if c then m else n) L := by
  split
  · exact hm
  · exact hn

/-- A piece that starts by looking at the state. -/
theorem Follows.get {f : State → Engine α} (h : ∀ s t, Paired K s t → SameEnd (Paired L) StoppedAlike (f s s) (f t t)) :
    Follows K (get >>= f) L := by
  intro s t hst
  rw [engine_get_bind, engine_get_bind]
  exact h s t hst

theorem follows_pure (a : α) : Follows K (pure a) K := fun _ _ h => .ok h

theorem follows_raise {e : ErrCode} (he : e ≠ .chkAdlerMismatch) : Follows K (raise e : Engine α) L :=
  fun _ _ h => .raise ⟨he, h.forget⟩

theorem follows_failIf (c : Bool) {e : ErrCode} (he : e ≠ .chkAdlerMismatch) : Follows K (failIf c e) K := by
  intro s t h
  cases c with
  | false => exact .ok h
  | true => exact .raise ⟨he, h.forget⟩

theorem follows_modify (f : State → State) (h : ∀ s t, Paired K s t → Paired K (f s) (f t)) :
    Follows K (modify f : Engine Unit) K := fun s t hst => .ok (h s t hst)

/-- A piece that never changes the state has not changed it. -/
theorem Still.eq_of_ok {m : Engine α} {a : α} (hm : Still m) (h : m s = .ok a t) : t = s := by
  have hs := hm s
  rwa [h] at hs

/-- Setting the reader to the same one, in DEFLATE order. -/
theorem Paired.setReader (h : Paired K s t) (r : Reader) (hr : r.mode = .deflate) :
    Paired K { s with bs := r } { t with bs := r } := { h with mode := hr, bs := rfl }

/-- Storing the same byte at OUT_POS (42_inflate.md R95, R102, R105). -/
theorem Paired.pushOut (h : Paired K s t) (b : Byte) :
    Paired K { s with outRam := s.outRam.write s.outPos b, outPos := s.outPos + 1 }
      { t with outRam := t.outRam.write t.outPos b, outPos := t.outPos + 1 } := by
  refine { h with outPos := congrArg (· + 1) h.outPos, output := fun a ha => ?_ }
  change a < s.outPos + 1 at ha
  change (t.outRam.write t.outPos b).read a = (s.outRam.write s.outPos b).read a
  rw [memory_read_write, memory_read_write, h.outPos]
  split
  · rfl
  · exact h.output a (by omega)

/-- Reading a byte of the input (20_memory.md R49). -/
theorem Paired.readIn (h : Paired K s t) {i : Nat} (hi : i < s.inLen.toNat) :
    SameEnd (Paired K) StoppedAlike (readIn i s) (readIn i t) := by
  simp only [Machine.readIn, h.input i hi]
  cases s.inRam.read i with
  | none => exact .fault
  | some b => exact .ok h

/-- Reading a byte of the output (20_memory.md R49). -/
theorem Paired.readOut (h : Paired K s t) {i : Nat} (hi : i < s.outPos) :
    SameEnd (Paired K) StoppedAlike (readOut i s) (readOut i t) := by
  simp only [Machine.readOut, h.output i hi]
  cases s.outRam.read i with
  | none => exact .fault
  | some b => exact .ok h

/-! ## The reader's pieces -/

/-- One turn of a refill that has its bits available loads a byte of the input (40_bitstream.md R67, R69). -/
theorem Paired.refillOne (h : Paired K s t) {n : Nat} (hb : s.bs.bitcnt < n) (ha : n ≤ s.bs.avail s.inLen.toNat) :
    SameEnd (fun u v => Paired K u v ∧ n ≤ u.bs.avail u.inLen.toNat) StoppedAlike (refillOne s) (refillOne t) := by
  simp only [Reader.avail, h.mode] at ha
  have hin := h.input s.bs.offset (by omega)
  simp only [Machine.refillOne, engine_bind, engine_get, h.bs, h.mode, Machine.readIn, hin, engine_modify]
  cases s.inRam.read s.bs.offset with
  | none => exact .fault
  | some b =>
    simp only [h.bs]
    refine .ok ⟨h.setReader _ h.mode, ?_⟩
    simp only [Reader.avail, Reader.loadByte, h.mode]
    omega

/-- The refill of a read that has its bits available (40_bitstream.md R69). -/
theorem Paired.refill (n fuel : Nat) (h : Paired K s t) (ha : n ≤ s.bs.avail s.inLen.toNat) :
    SameEnd (Paired K) StoppedAlike (refill n fuel s) (refill n fuel t) := by
  induction fuel generalizing s t with
  | zero => exact .ok h
  | succ fuel ih =>
    simp only [Machine.refill]
    rw [engine_get_bind, engine_get_bind, h.bs]
    split
    · next hb => exact (h.refillOne hb ha).bind fun _ u v _ huv => ih huv.1 huv.2
    · exact .ok h

theorem follows_consume (n : Nat) : Follows K (consume n) K := by
  intro s t h
  simp only [consume, h.bs]
  exact .ok (h.setReader _ h.mode)

/-- BsGet (40_bitstream.md R68). -/
theorem follows_bsGet (n : Nat) : Follows K (bsGet n) K := by
  intro s t h
  simp only [bsGet, h.bs, h.inLen]
  split
  · exact .raise ⟨by decide, h.forget⟩
  · split
    · exact .ok h
    · next ha _ => exact (h.refill n n (Nat.not_lt.mp ha)).bind fun _ u v _ huv => follows_consume n u v huv

/-- BsAlign (40_bitstream.md R73). -/
theorem follows_bsAlign : Follows K bsAlign K := by
  intro s t h
  simp only [bsAlign, h.bs]
  exact .ok (h.setReader _ ((align_mode _).trans h.mode))

/-! ## The Huffman unit -/

theorem follows_hufWalk (book : List (Nat × Nat)) (fuel c l : Nat) : Follows K (hufWalk book fuel c l) K := by
  induction fuel generalizing c l with
  | zero => exact follows_raise (by decide)
  | succ fuel ih =>
    refine (follows_bsGet 1).bind fun b => ?_
    cases symbolOf book (l + 1) (2 * c + b.toNat) with
    | some sym => exact follows_pure sym
    | none => exact ih _ _

/-- A decode with a slot the states agree on (41_huffman.md R85). -/
theorem follows_hufDecode {k : Slot} (hk : k ∈ K) : Follows K (hufDecode k) K := by
  intro s t h
  simp only [hufDecode, h.slots k hk]
  exact follows_hufWalk _ _ _ _ s t h

/-- Writing the same value to a slot makes the states agree on it. -/
theorem Paired.setSlot (h : Paired K s t) (k : Slot) (v : TreeSlot) :
    Paired (k :: K) { s with trees := s.trees.set k v } { t with trees := t.trees.set k v } :=
  { h with
    slots := fun j hj => by
      by_cases hjk : j = k
      · subst hjk
        simp
      · have hjK : j ∈ K := (List.mem_cons.mp hj).resolve_left hjk
        simpa [trees_get_set_other _ _ _ _ hjk] using h.slots j hjK }

/-- A build makes the states agree on the slot it writes (41_huffman.md R83). -/
theorem follows_hufBuild (k : Slot) (lens : List Nat) (maxlen : Nat) :
    Follows K (hufBuild k lens maxlen) (k :: K) := by
  intro s t h
  simp only [hufBuild_run]
  split
  · exact .raise ⟨by decide, (h.setSlot k _).forget⟩
  · split
    · exact .raise ⟨by decide, (h.setSlot k _).forget⟩
    · exact .ok (h.setSlot k _)

/-! ## The header -/

theorem follows_getBE32 : Follows K getBE32 K :=
  (follows_bsGet 8).bind fun _ => (follows_bsGet 8).bind fun _ => (follows_bsGet 8).bind fun _ =>
    (follows_bsGet 8).bind fun _ => follows_pure _

theorem follows_presetDict (flg : Word) : Follows K (presetDict flg) K :=
  .ite
    (.bind (follows_modify _ fun _ _ h => { h with fdict := rfl }) fun _ => follows_getBE32.bind fun _ =>
      follows_modify _ fun _ _ h => { h with dictid := rfl })
    (follows_pure ())

theorem follows_zlibHeader : Follows K zlibHeader K :=
  .bind (follows_bsGet 8) fun _ => .bind (follows_bsGet 8) fun flg =>
    .bind (follows_modify _ fun _ _ h => { h with zhdr := rfl }) fun _ => .bind (follows_failIf _ (by decide)) fun _ =>
      .bind (follows_failIf _ (by decide)) fun _ => follows_presetDict flg

theorem follows_blockHeader : Follows K blockHeader K :=
  .bind (follows_bsGet 1) fun bfinal => .bind (follows_bsGet 2) fun btype =>
    .bind (follows_modify _ fun _ _ h => { h with blkinfo := congrArg (nextBlkinfo · bfinal btype) h.blkinfo })
      fun _ => follows_pure _

/-! ## A stored block -/

/-- The raw copy of bytes that are in the input (42_inflate.md R95). -/
theorem Paired.storedCopy (n : Nat) (h : Paired K s t) (hn : n ≤ s.inLen.toNat - s.bs.offset) :
    SameEnd (Paired K) StoppedAlike (storedCopy n s) (storedCopy n t) := by
  induction n generalizing s t with
  | zero => exact .ok h
  | succ n ih =>
    simp only [Machine.storedCopy, engine_bind, engine_get, Machine.readIn, h.bs, h.input s.bs.offset (by omega)]
    cases s.inRam.read s.bs.offset with
    | none => exact .fault
    | some b =>
      simp only [pushOut_run, engine_modify, h.bs]
      refine ih ((h.pushOut b).setReader _ h.mode) ?_
      change n ≤ s.inLen.toNat - (s.bs.offset + 1)
      omega

theorem follows_storedChecks (len : Nat) : Follows K (storedChecks len) K :=
  .get fun s t h => by
    rw [h.inLen, h.bs, h.outCap, h.outPos]
    exact ((follows_failIf _ (by decide)).bind fun _ => follows_failIf _ (by decide)) s t h

/-- A stored block that passes its checks copies bytes of the input (42_inflate.md R95). -/
theorem storedChecks_ok {len : Nat} (h : storedChecks len s = .ok () t) :
    t = s ∧ len ≤ s.inLen.toNat - s.bs.offset := by
  simp only [storedChecks, engine_bind, engine_get, failIf_run] at h
  by_cases hin : s.inLen.toNat - s.bs.offset < len
  · simp [hin] at h
  · by_cases hout : s.outCap.toNat < s.outPos + len
    · simp [hin, hout] at h
    · exact ⟨by simpa [hin, hout] using h.symm, Nat.not_lt.mp hin⟩

theorem follows_storedBlock : Follows K storedBlock K := by
  refine follows_bsAlign.bind fun _ => (follows_bsGet 16).bind fun len => (follows_bsGet 16).bind fun nlen =>
    (follows_failIf _ (by decide)).bind fun _ s t h => ?_
  refine (follows_storedChecks len.toNat s t h).bind fun _ u v hrun huv => ?_
  obtain ⟨rfl, hlen⟩ := storedChecks_ok hrun
  exact huv.storedCopy len.toNat hlen

/-! ## Symbols -/

theorem follows_literal (sym : Nat) : Follows K (literal sym) K :=
  .get fun s t h => by
    rw [h.outCap, h.outPos]
    exact ((follows_failIf _ (by decide)).bind fun _ _ _ h => .ok (h.pushOut _)) s t h

theorem follows_matchLength (sym : Nat) : Follows K (matchLength sym) K :=
  (follows_bsGet _).bind fun _ => follows_pure _

theorem follows_matchDistance (hk : .t1 ∈ K) : Follows K matchDistance K :=
  (follows_hufDecode hk).bind fun _ => (follows_failIf _ (by decide)).bind fun _ => (follows_bsGet _).bind fun _ =>
    follows_pure _

/-- The copy of a match from inside the output (42_inflate.md R105). -/
theorem Paired.matchCopy {dist : Nat} (n : Nat) (h : Paired K s t) (h1 : 1 ≤ dist) (hd : dist ≤ s.outPos) :
    SameEnd (Paired K) StoppedAlike (matchCopy dist n s) (matchCopy dist n t) := by
  induction n generalizing s t with
  | zero => exact .ok h
  | succ n ih =>
    simp only [Machine.matchCopy]
    rw [engine_get_bind, engine_get_bind, h.outPos]
    refine (h.readOut (by omega)).bind fun b u v hrun huv => ?_
    obtain rfl : u = s := (still_readOut _).eq_of_ok hrun
    exact ih (huv.pushOut b) (Nat.le_succ_of_le hd)

theorem follows_matchChecks (len dist : Nat) : Follows K (matchChecks len dist) K :=
  .get fun s t h => by
    rw [h.outCap, h.outPos]
    exact ((follows_failIf _ (by decide)).bind fun _ => follows_failIf _ (by decide)) s t h

/-- A match that passes its checks starts inside the output (42_inflate.md R105). -/
theorem matchChecks_ok {len dist : Nat} (h : matchChecks len dist s = .ok () t) : t = s ∧ dist ≤ s.outPos := by
  simp only [matchChecks, engine_bind, engine_get, failIf_run] at h
  by_cases hfar : s.outPos < dist
  · simp [hfar] at h
  · by_cases hout : s.outCap.toNat < s.outPos + len
    · simp [hfar, hout] at h
    · exact ⟨by simpa [hfar, hout] using h.symm, Nat.not_lt.mp hfar⟩

/-- A copy distance is at least 1 (42_inflate.md R104). -/
theorem matchDistance_pos {dist : Nat} (h : matchDistance s = .ok dist t) : 1 ≤ dist := by
  simp only [matchDistance, engine_bind] at h
  cases hd : hufDecode .t1 s with
  | error x u => simp [hd] at h
  | ok d u =>
    by_cases h30 : 30 ≤ d
    · simp [hd, h30] at h
    · have hbase := dBase_pos d (Nat.not_le.mp h30)
      simp only [hd, h30, decide_false, failIf_false] at h
      cases hx : bsGet (dExtra.getD d 0) u with
      | error y v => simp only [hx, reduceCtorEq] at h
      | ok x v =>
        simp only [hx, engine_pure, EStateM.Result.ok.injEq] at h
        omega

theorem follows_backReference (hk : .t1 ∈ K) (sym : Nat) : Follows K (backReference sym) K := by
  refine (follows_matchLength sym).bind fun len s t h => (follows_matchDistance hk s t h).bind fun dist u v hd huv => ?_
  refine (follows_matchChecks len dist u v huv).bind fun _ u' v' hc huv' => ?_
  obtain ⟨rfl, hpos⟩ := matchChecks_ok hc
  exact huv'.matchCopy len (matchDistance_pos hd) hpos

/-- The symbol loop of a block whose slots T0 and T1 have been built (42_inflate.md R101). -/
theorem follows_symbolLoop (h0 : .t0 ∈ K) (h1 : .t1 ∈ K) (fuel : Nat) : Follows K (symbolLoop fuel) K := by
  induction fuel with
  | zero => exact fun _ _ _ => .fault
  | succ fuel ih =>
    exact (follows_hufDecode h0).bind fun sym =>
      .ite ((follows_literal sym).bind fun _ => ih)
        (.ite (follows_pure ())
          (.ite ((follows_backReference h1 sym).bind fun _ => ih) (follows_raise (by decide))))

theorem follows_blockSymbols (h0 : .t0 ∈ K) (h1 : .t1 ∈ K) : Follows K blockSymbols K := by
  intro s t h
  simp only [blockSymbols, State.turns, h.inLen]
  exact follows_symbolLoop h0 h1 _ s t h

/-! ## Huffman blocks -/

theorem follows_fixedBlock : Follows K fixedBlock (.t1 :: .t0 :: K) :=
  (follows_hufBuild _ _ _).bind fun _ => (follows_hufBuild _ _ _).bind fun _ =>
    follows_blockSymbols (by simp) (by simp)

theorem follows_preLengths (order pl : List Nat) : Follows K (preLengths order pl) K := by
  induction order generalizing pl with
  | nil => exact follows_pure pl
  | cons o order ih => exact (follows_bsGet 3).bind fun _ => ih _

theorem follows_repeatLength (total : Nat) (cl : List Nat) (r v : Nat) : Follows K (repeatLength total cl r v) K :=
  (follows_failIf _ (by decide)).bind fun _ => follows_pure _

theorem follows_codeLengthStep (hk : .t2 ∈ K) (total : Nat) (cl : List Nat) : Follows K (codeLengthStep total cl) K :=
  (follows_hufDecode hk).bind fun _ =>
    .ite (follows_pure _)
      (.ite ((follows_failIf _ (by decide)).bind fun _ => (follows_bsGet 2).bind fun _ => follows_repeatLength _ _ _ _)
        (.ite ((follows_bsGet 3).bind fun _ => follows_repeatLength _ _ _ _)
          ((follows_bsGet 7).bind fun _ => follows_repeatLength _ _ _ _)))

theorem follows_codeLengths (hk : .t2 ∈ K) (total fuel : Nat) (cl : List Nat) :
    Follows K (codeLengths total fuel cl) K := by
  induction fuel generalizing cl with
  | zero => exact follows_pure cl
  | succ fuel ih => exact .ite ((follows_codeLengthStep hk total cl).bind fun _ => ih _) (follows_pure cl)

theorem follows_dynamicCounts : Follows K dynamicCounts K :=
  (follows_bsGet 5).bind fun _ => (follows_bsGet 5).bind fun _ => (follows_bsGet 4).bind fun _ =>
    (follows_failIf _ (by decide)).bind fun _ => (follows_failIf _ (by decide)).bind fun _ => follows_pure _

theorem follows_dynamicBlock : Follows K dynamicBlock (.t1 :: .t0 :: .t2 :: K) :=
  follows_dynamicCounts.bind fun _ => (follows_preLengths _ _).bind fun _ => (follows_hufBuild _ _ _).bind fun _ =>
    (follows_codeLengths (by simp) _ _ _).bind fun _ => (follows_failIf _ (by decide)).bind fun _ =>
      (follows_hufBuild _ _ _).bind fun _ => (follows_hufBuild _ _ _).bind fun _ =>
        follows_blockSymbols (by simp) (by simp)

/-! ## The blocks and all before the trailer -/

theorem Follows.forget {m : Engine α} (h : Follows K m L) : Follows K m [] :=
  fun s t hst => (h s t hst).mono (fun _ _ h => h.forget) (fun _ _ _ h => h)

theorem follows_blockBody (btype : Word) : Follows K (blockBody btype) [] := by
  unfold blockBody
  split
  · exact follows_storedBlock.forget
  · exact follows_fixedBlock.forget
  · exact follows_dynamicBlock.forget
  · exact follows_raise (by decide)

theorem follows_blockLoop (fuel : Nat) : Follows [] (blockLoop fuel) [] := by
  induction fuel with
  | zero => exact fun _ _ _ => .fault
  | succ fuel ih =>
    exact follows_blockHeader.bind fun h => (follows_blockBody h.2).bind fun _ => .ite (follows_pure ()) ih

/-- INFLATE between its initialisation and its end of stream: the header and the blocks (42_inflate.md R89). -/
def headerAndBlocks : Engine Unit := do
  zlibHeader
  let s ← get
  blockLoop s.turns

theorem inflateBody_eq (s : State) :
    inflateBody s = (headerAndBlocks >>= fun _ => endOfStream : Engine Unit) (inflateInit s) := by
  simp only [inflateBody, headerAndBlocks, engine_bind, engine_modify, engine_get]
  cases zlibHeader (inflateInit s) <;> rfl

theorem follows_headerAndBlocks : Follows [] headerAndBlocks [] :=
  follows_zlibHeader.bind fun _ => .get fun s t h => by
    simp only [State.turns, h.inLen]
    exact follows_blockLoop _ s t h

/-! ## The end of the stream -/

/-- The state in which the trailer is looked for: the reader aligned, ADLER_CALC the checksum of the output
(42_inflate.md R107). -/
def checksummed (out : List Byte) (s : State) : State := { s with bs := s.bs.align, adlerCalc := adler32 1 out }

/-- Reading the output ends with its bytes or with a fault. -/
theorem outList_cases (n i : Nat) (s : State) :
    (∃ out, outList i n s = .ok out s ∧ out.length = n ∧ Holds s.outRam i out) ∨
      ∃ f, outList i n s = .error (.fault f) s := by
  induction n generalizing i with
  | zero => exact Or.inl ⟨[], rfl, rfl, fun j hj => absurd hj (Nat.not_lt_zero j)⟩
  | succ n ih =>
    simp only [outList, engine_bind, readOut]
    cases hb : s.outRam.read i with
    | none => exact Or.inr ⟨_, rfl⟩
    | some b =>
      rcases ih (i + 1) with ⟨out, h, hl, hh⟩ | ⟨f, h⟩
      · exact Or.inl ⟨b :: out, by simp [h], by simp [hl], (holds_cons _ _ _ _).mpr ⟨hb, hh⟩⟩
      · exact Or.inr ⟨f, by simp [h]⟩

/-- The end of the stream with a written output: the checksum, then the trailer if there are four bytes for it
(42_inflate.md R107). -/
theorem endOfStream_eq {out : List Byte} (hl : out.length = s.outPos) (h : Holds s.outRam 0 out) :
    endOfStream s =
      if 4 ≤ s.inLen.toNat - s.bs.offset then checkTrailer (checksummed out s) else .ok () (checksummed out s) := by
  have hout : outList 0 s.outPos { s with bs := s.bs.align } = .ok out { s with bs := s.bs.align } :=
    hl ▸ outList_holds { s with bs := s.bs.align } out 0 h
  simp only [endOfStream, engine_bind, bsAlign_run, engine_get, hout, engine_modify, align_offset]
  split <;> rfl

/-- The state after the trailer's four bytes have been read as `stored` (42_inflate.md R107). -/
def trailerRead (stored : Word) (s : State) : State :=
  { s with adlerStored := stored, status := { s.status with ckpres := true } }

/-- The state after that trailer has been found equal to ADLER_CALC (42_inflate.md R107). -/
def trailerMatched (stored : Word) (s : State) : State :=
  { s with adlerStored := stored, status := { s.status with ckpres := true, ckok := true } }

/-- The comparison of a trailer that has been read (42_inflate.md R107). -/
theorem checkTrailer_eq {stored : Word} (h : getBE32 s = .ok stored t) :
    checkTrailer s =
      if stored = t.adlerCalc then .ok () (trailerMatched stored t)
      else .error (.raise .chkAdlerMismatch) (trailerRead stored t) := by
  simp only [checkTrailer, engine_bind, h, engine_modify, engine_get, failIf_run]
  by_cases heq : stored = t.adlerCalc
  · simp [heq, trailerMatched]
  · simp [heq, trailerRead]

/-- Reading four bytes moves the reader only (42_inflate.md R93, R107). -/
theorem getBE32_only (s : State) : ReaderOnly (fun e => e = .fmtInputExhausted) s (getBE32 s) :=
  (bsGet_only 8 s).bind fun _ u => (bsGet_only 8 u).bind fun _ v => (bsGet_only 8 v).bind fun _ w =>
    (bsGet_only 8 w).bind fun _ _ => ⟨rfl, rfl⟩

/-- Everything the end of the stream can do: it finds the output written, or it faults (42_inflate.md R107). -/
theorem endOfStream_cases (s : State) :
    (∃ out, out.length = s.outPos ∧ Holds s.outRam 0 out ∧
      endOfStream s =
        if 4 ≤ s.inLen.toNat - s.bs.offset then checkTrailer (checksummed out s) else .ok () (checksummed out s)) ∨
    ∃ f t, endOfStream s = .error (.fault f) t := by
  rcases outList_cases s.outPos 0 { s with bs := s.bs.align } with ⟨out, _, hl, h⟩ | ⟨f, h⟩
  · exact Or.inl ⟨out, hl, h, endOfStream_eq hl h⟩
  · exact Or.inr ⟨f, { s with bs := s.bs.align }, by simp [endOfStream, engine_bind, h]⟩

/-- Everything the trailer's comparison can do: it compares a word it has read, or it stops in the reading
(42_inflate.md R107). -/
theorem checkTrailer_cases (s : State) :
    (∃ stored r, checkTrailer s =
      if stored = s.adlerCalc then .ok () (trailerMatched stored { s with bs := r })
      else .error (.raise .chkAdlerMismatch) (trailerRead stored { s with bs := r })) ∨
    ∃ x t, checkTrailer s = .error x t ∧ x ≠ .raise .chkAdlerMismatch := by
  have honly := getBE32_only s
  cases hr : getBE32 s with
  | ok stored t =>
    rw [hr] at honly
    obtain ⟨ht, _⟩ := honly
    refine Or.inl ⟨stored, t.bs, ?_⟩
    rw [← ht, checkTrailer_eq hr, ht]
  | error x t =>
    rw [hr] at honly
    refine Or.inr ⟨x, t, by simp only [checkTrailer, engine_bind, hr], ?_⟩
    rintro rfl
    exact absurd honly.1 (by decide)

/-! ## The input decides -/

theorem checkTrailer_alike (h : Paired K s t) :
    SameEnd (Alike K) (fun _ => Alike []) (checkTrailer s) (checkTrailer t) := by
  refine SameEnd.bind ((follows_getBE32 s t h).mono (fun _ _ h => h) fun _ _ _ h => h.2.toAlike)
    fun stored u v _ huv => ?_
  simp only [engine_bind, engine_modify, engine_get, failIf_run, huv.adlerCalc]
  by_cases hne : (stored != u.adlerCalc) = true
  · simp only [hne, if_true]
    exact .raise { huv.toAlike.forget with adlerCalc := rfl, adlerStored := rfl, ckpres := rfl }
  · simp only [hne]
    exact .ok { huv.toAlike with adlerCalc := rfl, adlerStored := rfl, ckpres := rfl, ckok := rfl }

/-- The states in which the trailer is looked for are alike when the streams have ended alike. -/
theorem Paired.checksummed (h : Paired K s t) (out : List Byte) : Paired K (checksummed out s) (checksummed out t) :=
  { h with
    mode := (align_mode _).trans h.mode
    bs := congrArg Reader.align h.bs
    adlerCalc := rfl }

theorem endOfStream_alike (h : Paired K s t) :
    SameEnd (Alike K) (fun _ => Alike []) (endOfStream s) (endOfStream t) := by
  rcases endOfStream_cases s with ⟨out, hl, hout, hrun⟩ | ⟨f, u, hrun⟩
  · have hout' : Holds t.outRam 0 out := fun i hi => (h.output (0 + i) (by omega)).trans (hout i hi)
    rw [hrun, endOfStream_eq (hl.trans h.outPos.symm) hout', h.inLen, h.bs]
    split
    · exact checkTrailer_alike (h.checksummed out)
    · exact .ok (h.checksummed out).toAlike
  · rw [hrun]
    exact .fault

/-- INFLATE's body ends alike from states that its initialisation makes alike. -/
theorem inflateBody_alike (h : Paired [] (inflateInit s) (inflateInit t)) :
    SameEnd (Alike []) (fun _ => Alike []) (inflateBody s) (inflateBody t) := by
  rw [inflateBody_eq, inflateBody_eq]
  exact SameEnd.bind ((follows_headerAndBlocks _ _ h).mono (fun _ _ h => h) fun _ _ _ h => h.2.toAlike)
    fun _ _ _ _ huv => endOfStream_alike huv

/-- Settles O34: the initialisation makes the states alike, and every piece of the body keeps them so. -/
theorem inflateDependsOnItsInputOnly : Obligations.InflateDependsOnItsInputOnly := by
  intro s₁ s₂ t₁ hg hlen hcap hin h
  obtain ⟨e, u, rfl, _, hend⟩ := inflate_next_of_argsGood hg h
  have hg₂ : InflateArgsGood s₂ := by rwa [InflateArgsGood, hlen, hcap]
  have hsame := inflateBody_alike (paired_inflateInit hlen hcap hin)
  obtain ⟨v, hv, huv⟩ : ∃ v, exec .inflate s₂ = .next (inflateDone e v) ∧ Alike [] u v := by
    generalize hr : inflateBody s₂ = r at hsame
    rcases hend with ⟨rfl, hrun⟩ | ⟨_, hrun⟩
    · rw [hrun] at hsame
      cases hsame with
      | ok huv => exact ⟨_, exec_inflate_of_ok hg₂ hr, huv⟩
    · rw [hrun] at hsame
      cases hsame with
      | raise huv => exact ⟨_, exec_inflate_of_raise hg₂ hr, huv⟩
  exact ⟨_, hv, congrArg (BitVec.ofNat 32) huv.outPos, huv.bs, huv.outPos, huv.zhdr, huv.dictid, huv.adlerCalc,
    huv.adlerStored, huv.blkinfo, rfl, huv.ckpres, huv.ckok, huv.fdict, huv.output⟩

/-! ## The checksum -/

/-- What INFLATE's registers say of the output and of the trailer when it has ended with the code e (42_inflate.md
R107). -/
def Checked (e : ErrCode) (t : State) : Prop :=
  ∃ out : List Byte, out.length = t.outPos ∧ Holds t.outRam 0 out ∧ t.adlerCalc = adler32 1 out ∧
    (e = .ok → t.status.ckok = t.status.ckpres ∧ (t.status.ckpres = true → t.adlerStored = t.adlerCalc) ∧
      (t.status.ckpres = false → t.adlerStored = 0)) ∧
    (e = .chkAdlerMismatch → t.status.ckpres = true ∧ t.status.ckok = false ∧ t.adlerStored ≠ t.adlerCalc)

/-- A stream ends well, or with CHK_ADLER_MISMATCH, only in states with the checksum of the output (42_inflate.md
R107). -/
def EndsChecked : EStateM.Result Stop State Unit → Prop
  | .ok _ t => Checked .ok t
  | .error x t => x = .raise .chkAdlerMismatch → Checked .chkAdlerMismatch t

theorem checkTrailer_checked {out : List Byte} (hc : TrailerClear s) (hl : out.length = s.outPos)
    (hout : Holds s.outRam 0 out) (ha : s.adlerCalc = adler32 1 out) : EndsChecked (checkTrailer s) := by
  obtain ⟨_, _, hok⟩ := hc
  rcases checkTrailer_cases s with ⟨stored, r, hrun⟩ | ⟨x, t, hrun, hx⟩
  · rw [hrun]
    split
    · next heq => exact ⟨out, hl, hout, ha, fun _ => ⟨rfl, fun _ => heq, nofun⟩, nofun⟩
    · next hne => exact fun _ => ⟨out, hl, hout, ha, nofun, fun _ => ⟨rfl, hok, hne⟩⟩
  · rw [hrun]
    exact fun h => absurd h hx

theorem endOfStream_checked (hc : TrailerClear s) : EndsChecked (endOfStream s) := by
  rcases endOfStream_cases s with ⟨out, hl, hout, hrun⟩ | ⟨f, t, hrun⟩
  · rw [hrun]
    split
    · exact checkTrailer_checked hc hl hout rfl
    · obtain ⟨hstored, hpres, hok⟩ := hc
      exact ⟨out, hl, hout, rfl,
        fun _ => ⟨hok.trans hpres.symm, fun h => absurd (hpres.symm.trans h) (by decide), fun _ => hstored⟩, nofun⟩
  · rw [hrun]
    exact nofun

/-- Before the end of the stream nothing ends INFLATE well or with a mismatch, and the trailer's registers stay 0. -/
theorem inflateBody_checked (s : State) : EndsChecked (inflateBody s) := by
  have hbefore := follows_headerAndBlocks _ _ (paired_inflateInit (s := s) rfl rfl fun _ _ => rfl)
  rw [inflateBody_eq, engine_bind]
  generalize headerAndBlocks (inflateInit s) = r at hbefore
  cases hbefore with
  | ok h => exact endOfStream_checked h.clear
  | raise h => exact fun he => absurd (Stop.raise.inj he) h.1
  | fault => exact nofun

/-- Settles O36: the completion keeps what the body has left in the registers. -/
theorem inflateChecksum : Obligations.InflateChecksum := by
  intro s hg t h hcode
  obtain ⟨e, u, rfl, _, hend⟩ := inflate_next_of_argsGood hg h
  have hbody := inflateBody_checked s
  rcases hend with ⟨rfl, hrun⟩ | ⟨he, hrun⟩
  · rw [hrun] at hbody
    exact hbody
  · rw [hrun] at hbody
    rcases hcode with rfl | rfl
    · simp [InflateCode] at he
    · exact hbody rfl

end Sys2Proof.Machine
end

section
/-! PROOFS. Running INFLATE along a stream that is given (42_inflate.md R92 to R96, R101, R102, R107). First the
reader at a bit of the stream and at a byte boundary, then the pieces of a stream one by one, each as an equation,
then the statements about header errors, a stored block and a fixed-Huffman block of literals. -/

namespace Sys2Proof.Machine

variable {α : Type} {s t : State}

/-! ## Lists in a RAM and bits in the stream -/

theorem holds_append {γ : Type} (m : Memory γ) (a : Nat) (xs ys : List γ) :
    Holds m a (xs ++ ys) ↔ Holds m a xs ∧ Holds m (a + xs.length) ys := by
  induction xs generalizing a with
  | nil => simp [Holds]
  | cons x xs ih =>
    rw [List.cons_append, holds_cons, holds_cons, ih, List.length_cons, and_assoc, Nat.add_assoc, Nat.add_comm 1]

theorem streamHolds_append (mode : BitOrder) (m : Memory Byte) (p : Nat) (xs ys : List Bool) :
    StreamHolds mode m p (xs ++ ys) ↔ StreamHolds mode m p xs ∧ StreamHolds mode m (p + xs.length) ys := by
  constructor
  · intro h
    refine ⟨fun i hi => ?_, fun i hi => ?_⟩
    · have := h i (by simp; omega)
      rwa [List.getElem_append_left hi] at this
    · have := h (xs.length + i) (by simp; omega)
      rw [List.getElem_append_right (Nat.le_add_right _ _)] at this
      simpa [Nat.add_assoc] using this
  · rintro ⟨hx, hy⟩ i hi
    by_cases hlt : i < xs.length
    · rw [List.getElem_append_left hlt]
      exact hx i hlt
    · have hge : xs.length ≤ i := Nat.not_lt.mp hlt
      rw [List.getElem_append_right hge, ← hy (i - xs.length) (by simp at hi; omega)]
      congr 1
      omega

/-- The low n bits of a word, in the order the stream has them (40_bitstream.md R66). -/
def lowBits (n : Nat) (w : Word) : List Bool := (List.range n).map w.getLsbD

@[simp] theorem lowBits_length (n : Nat) (w : Word) : (lowBits n w).length = n := by simp [lowBits]

theorem lsbFirst_lowBits (n : Nat) (w : Word) : lsbFirst (lowBits n w) = w.toNat % 2 ^ n := by
  induction n with
  | zero => simp [lowBits, lsbFirst, Nat.mod_one]
  | succ n ih =>
    have hsucc : lowBits (n + 1) w = lowBits n w ++ [w.getLsbD n] := by simp [lowBits, List.range_succ]
    rw [hsucc, lsbFirst_append, ih, lowBits_length, mod_two_pow_succ]
    rfl

/-- A word of n bytes, the least significant first in the input, stands in the stream bit by bit (40_bitstream.md
R66). -/
theorem streamHolds_word {m : Memory Byte} {k n : Nat} {w : Word}
    (h : ∀ j, j < n → m.read (k + j) = some (byteOf w j)) :
    StreamHolds .deflate m (8 * k) (lowBits (8 * n) w) := by
  intro i hi
  rw [lowBits_length] at hi
  have hbyte := h (i / 8) (by omega)
  have hq : (8 * k + i) / 8 = k + i / 8 := by omega
  have hr : (8 * k + i) % 8 = i % 8 := by omega
  have hi8 : i % 8 < 8 := Nat.mod_lt _ (by decide)
  simp only [streamBit, hq, hr, hbyte, Option.map_some, lowBits, List.getElem_map, List.getElem_range, byteOf,
    BitVec.getLsbD_extractLsb', hi8, decide_true, Bool.true_and, Nat.div_add_mod]

/-- The RAM after the list has been stored from index a on. -/
def Memory.writeAll {γ : Type} (m : Memory γ) (a : Nat) : List γ → Memory γ
  | [] => m
  | v :: vs => Memory.writeAll (m.write a v) (a + 1) vs

theorem memory_read_writeAll_below {γ : Type} (vs : List γ) (m : Memory γ) {a b : Nat} (h : b < a) :
    (Memory.writeAll m a vs).read b = m.read b := by
  induction vs generalizing m a with
  | nil => rfl
  | cons v vs ih => rw [Memory.writeAll, ih _ (by omega), memory_read_write, if_neg (by omega)]

theorem holds_writeAll {γ : Type} (m : Memory γ) (a : Nat) (vs : List γ) : Holds (Memory.writeAll m a vs) a vs := by
  induction vs generalizing m a with
  | nil => exact fun i hi => absurd hi (Nat.not_lt_zero i)
  | cons v vs ih =>
    refine (holds_cons _ _ _ _).mpr ⟨?_, ih _ _⟩
    rw [Memory.writeAll, memory_read_writeAll_below _ _ (Nat.lt_succ_self a), memory_read_write, if_pos rfl]

/-! ## The reader inside the stream -/

/-- The reader with byte k of the input next and no pending bit. -/
def Reader.atByte (k : Nat) : Reader := ⟨.deflate, k, 0, 0⟩

/-- A reader in DEFLATE order inside the input, with bit p of the stream next. -/
def AtBit (p : Nat) (s : State) : Prop :=
  s.bs.mode = .deflate ∧ ReaderGood s.bs ∧ Coherent s ∧ s.bs.bitpos = p ∧ p ≤ 8 * s.inLen.toNat ∧
    s.inLen.toNat ≤ Config.inMax

/-- BS_OFFSET is the byte of the next bit, rounded up (40_bitstream.md R72). -/
theorem AtBit.offset_eq {p : Nat} (h : AtBit p s) : s.bs.offset = (p + 7) / 8 := by
  obtain ⟨hm, ⟨hcnt, _, _, hle, _⟩, _, hpos, _, _⟩ := h
  simp only [hm, BitOrder.unit] at hcnt
  simp only [Reader.bitpos] at hpos
  omega

theorem AtBit.align {p : Nat} (h : AtBit p s) : s.bs.align = .atByte ((p + 7) / 8) := by
  have ho := h.offset_eq
  obtain ⟨hm, hg, _, _, _, _⟩ := h
  rw [align_eq _ hg, hm, ho]
  rfl

/-- At a byte boundary no bit is pending. -/
theorem AtBit.atByte {k : Nat} (h : AtBit (8 * k) s) : s.bs = .atByte k := by
  have halign := h.align
  have ho := h.offset_eq
  obtain ⟨_, ⟨_, _, _, hle, _⟩, _, hpos, _, _⟩ := h
  simp only [Reader.bitpos] at hpos
  rw [align_of_no_bits _ (by omega)] at halign
  rw [halign]
  congr 1
  omega

theorem atBit_of_atByte {k : Nat} (h : s.bs = .atByte k) (hk : k ≤ s.inLen.toNat)
    (hmax : s.inLen.toNat ≤ Config.inMax) : AtBit (8 * k) s := by
  refine ⟨by rw [h]; rfl, ?_, coherent_of_no_bits s (by rw [h]; rfl), by rw [h]; rfl, by omega, hmax⟩
  rw [h]
  refine ⟨Nat.zero_lt_succ 7, nofun, ?_, Nat.zero_le _, Nat.le_trans hk hmax⟩
  simp [AccClean, Reader.atByte]

/-- A read of bits the stream holds (40_bitstream.md R71). -/
theorem bsGet_atBit {p : Nat} {bits : List Bool} (h : AtBit p s) (hn : bits.length ≤ 32)
    (hend : p + bits.length ≤ 8 * s.inLen.toNat) (hb : StreamHolds .deflate s.inRam p bits) :
    ∃ r, bsGet bits.length s = .ok (BitVec.ofNat 32 (lsbFirst bits)) { s with bs := r } ∧
      AtBit (p + bits.length) { s with bs := r } := by
  have ho := h.offset_eq
  obtain ⟨hm, hg, hc, hpos, _, hmax⟩ := h
  have havail := avail_eq s.bs s.inLen.toNat hg (by omega)
  rw [hm, streamEnd, hpos] at havail
  obtain ⟨v, t, hrun, hv, ht, hmode, hpos', hgood, hcoh, _⟩ :=
    bsGet_stream s bits hg hn hmax hc (by omega) (by rwa [hm, hpos])
  rw [hm] at hv
  refine ⟨t.bs, ?_, hmode.trans hm, hgood, ht ▸ hcoh, hpos'.trans (by rw [hpos]), hend, hmax⟩
  rw [← ht, hrun, ← show v.toNat = lsbFirst bits from hv]
  simp

/-- A read of n whole bytes at a byte boundary gives the word they spell and ends at a byte boundary
(40_bitstream.md R69). -/
theorem bsGet_atByte {k : Nat} (n : Nat) {w : Word} (h : s.bs = .atByte k)
    (hmax : s.inLen.toNat ≤ Config.inMax) (hn : n ≤ 4) (hend : k + n ≤ s.inLen.toNat) (hw : w.toNat < 2 ^ (8 * n))
    (hb : ∀ j, j < n → s.inRam.read (k + j) = some (byteOf w j)) :
    bsGet (8 * n) s = .ok w { s with bs := .atByte (k + n) } := by
  obtain ⟨r, hrun, hr⟩ := bsGet_atBit (bits := lowBits (8 * n) w) (atBit_of_atByte h (by omega) hmax)
    (by rw [lowBits_length]; omega) (by rw [lowBits_length]; omega) (streamHolds_word hb)
  rw [lowBits_length, ← Nat.mul_add] at hr
  rw [lowBits_length, lsbFirst_lowBits, Nat.mod_eq_of_lt hw] at hrun
  rw [hrun, show r = .atByte (k + n) from hr.atByte]
  simp

/-! ## The header -/

/-- A byte at a byte boundary (40_bitstream.md R69). -/
theorem bsGet_byte {k : Nat} {b : Byte} (h : s.bs = .atByte k) (hmax : s.inLen.toNat ≤ Config.inMax)
    (hk : k < s.inLen.toNat) (hb : s.inRam.read k = some b) :
    bsGet 8 s = .ok (b.setWidth 32) { s with bs := .atByte (k + 1) } := by
  refine bsGet_atByte 1 h hmax (by decide) hk ?_ fun j hj => ?_
  · simpa using Nat.lt_of_le_of_lt (Nat.mod_le _ _) b.isLt
  · obtain rfl : j = 0 := by omega
    rw [Nat.add_zero, hb]
    congr 1
    ext i hi
    simp [byteOf, hi, show i < 32 by omega]

/-- A read at the end of the input (40_bitstream.md R68). -/
theorem bsGet_end {k : Nat} (h : s.bs = .atByte k) (hk : s.inLen.toNat ≤ k) :
    bsGet 8 s = .error (.raise .fmtInputExhausted) s := by
  have ha : s.bs.avail s.inLen.toNat < 8 := by
    rw [h]
    simp only [Reader.avail, Reader.atByte]
    omega
  rw [bsGet, if_pos ha, raise_run]

/-- The four bytes of a word, most significant first, spell it: each bit of the word is a bit of one of them
(42_inflate.md R93, R107). -/
theorem bigEndian_word (w : Word) :
    (((byteOf w 3).setWidth 32 <<< 24) ||| ((byteOf w 2).setWidth 32 <<< 16) ||| ((byteOf w 1).setWidth 32 <<< 8) |||
      (byteOf w 0).setWidth 32 : Word) = w := by
  apply BitVec.eq_of_getLsbD_eq
  intro i hi
  simp only [byteOf, BitVec.getLsbD_or, BitVec.getLsbD_shiftLeft, BitVec.getLsbD_setWidth, BitVec.getLsbD_extractLsb']
  interval_cases i <;> simp

/-- Four bytes at a byte boundary (42_inflate.md R93, R107). -/
theorem getBE32_atByte {k : Nat} {w : Word} (h : s.bs = .atByte k) (hmax : s.inLen.toNat ≤ Config.inMax)
    (hk : k + 4 ≤ s.inLen.toNat) (hb : Holds s.inRam k (bigEndian w)) :
    getBE32 s = .ok w { s with bs := .atByte (k + 4) } := by
  simp only [bigEndian, holds_cons] at hb
  obtain ⟨h0, h1, h2, h3, _⟩ := hb
  have g0 := bsGet_byte h hmax (by omega) h0
  have g1 := bsGet_byte (s := { s with bs := .atByte (k + 1) }) rfl hmax (by change k + 1 < s.inLen.toNat; omega) h1
  have g2 := bsGet_byte (s := { s with bs := .atByte (k + 1 + 1) }) rfl hmax
    (by change k + 1 + 1 < s.inLen.toNat; omega) h2
  have g3 := bsGet_byte (s := { s with bs := .atByte (k + 1 + 1 + 1) }) rfl hmax
    (by change k + 1 + 1 + 1 < s.inLen.toNat; omega) h3
  simp only [getBE32, engine_bind, g0, g1, g2, g3, engine_pure, bigEndian_word]

/-- A piece that reads a byte first and is bound to find the input exhausted. -/
theorem bsGet_byte_bind_exhausted {k : Nat} {f : Word → Engine α} (h : s.bs = .atByte k)
    (hmax : s.inLen.toNat ≤ Config.inMax) (hk : k ≤ s.inLen.toNat) (hw : Written s.inRam 0 s.inLen.toNat)
    (hf : k < s.inLen.toNat → ∀ v, f v { s with bs := .atByte (k + 1) } =
      .error (.raise .fmtInputExhausted) { s with bs := .atByte s.inLen.toNat }) :
    (bsGet 8 >>= f) s = .error (.raise .fmtInputExhausted) { s with bs := .atByte s.inLen.toNat } := by
  rw [engine_bind]
  rcases Nat.lt_or_eq_of_le hk with hlt | rfl
  · obtain ⟨b, hb⟩ := Option.isSome_iff_exists.mp (hw k (Nat.zero_le _) (by omega))
    rw [bsGet_byte h hmax hlt hb]
    exact hf hlt _
  · rw [bsGet_end h (Nat.le_refl _), ← h]

/-- Four bytes of which the input has not all (42_inflate.md R93). -/
theorem getBE32_exhausted {k : Nat} (h : s.bs = .atByte k) (hmax : s.inLen.toNat ≤ Config.inMax)
    (hk : k ≤ s.inLen.toNat) (hend : s.inLen.toNat < k + 4) (hw : Written s.inRam 0 s.inLen.toNat) :
    getBE32 s = .error (.raise .fmtInputExhausted) { s with bs := .atByte s.inLen.toNat } :=
  bsGet_byte_bind_exhausted h hmax hk hw fun h1 _ => bsGet_byte_bind_exhausted rfl hmax h1 hw fun h2 _ =>
    bsGet_byte_bind_exhausted rfl hmax h2 hw fun h3 _ => bsGet_byte_bind_exhausted rfl hmax h3 hw fun h4 _ =>
      absurd hend (Nat.not_lt.mpr h4)

/-- The state with FDICT set (42_inflate.md R93). -/
def fdictSet (s : State) : State := { s with status := { s.status with fdict := true } }

/-- The preset dictionary's id is recorded once it has been read (42_inflate.md R93). -/
theorem presetDict_of_ok {flg id : Word} (hf : flg.getLsbD 5 = true) (h : getBE32 (fdictSet s) = .ok id t) :
    presetDict flg s = .ok () { t with dictid := id } := by
  unfold fdictSet at h
  simp only [presetDict, if_pos hf, engine_bind, engine_modify, h]

/-- An id that cannot be read is not recorded (42_inflate.md R93). -/
theorem presetDict_of_error {flg : Word} {x : Stop} (hf : flg.getLsbD 5 = true)
    (h : getBE32 (fdictSet s) = .error x t) : presetDict flg s = .error x t := by
  unfold fdictSet at h
  simp only [presetDict, if_pos hf, engine_bind, engine_modify, h]

/-- Without a preset dictionary there is nothing to read (42_inflate.md R93). -/
theorem presetDict_of_clear {flg : Word} (hf : flg.getLsbD 5 = false) : presetDict flg s = .ok () s := by
  rw [presetDict, hf]
  rfl

/-- The state after the two header bytes have been read and recorded (42_inflate.md R92). -/
def headerRead (cmf flg : Byte) (s : State) : State :=
  { s with bs := .atByte 2, zhdr := (flg.setWidth 32 <<< 8) ||| cmf.setWidth 32 }

theorem headerRead_zhdr (cmf flg : Byte) (s : State) :
    (headerRead cmf flg s).zhdr.toNat = 256 * flg.toNat + cmf.toNat := by
  have hflg := flg.isLt
  have hcmf := cmf.isLt
  have hor := Nat.two_pow_add_eq_or_of_lt hcmf flg.toNat
  simp only [headerRead, BitVec.toNat_or, BitVec.toNat_shiftLeft, BitVec.toNat_setWidth, Nat.shiftLeft_eq]
  rw [Nat.mod_eq_of_lt (show flg.toNat < 2 ^ 32 by omega), Nat.mod_eq_of_lt (show cmf.toNat < 2 ^ 32 by omega),
    Nat.mod_eq_of_lt (show flg.toNat * 2 ^ 8 < 2 ^ 32 by omega), Nat.mul_comm flg.toNat, ← hor]

/-- The method is CMF[3:0] (42_inflate.md R92). -/
theorem method_bne_iff (cmf : Byte) :
    ((cmf.setWidth 32 : Word).extractLsb' 0 4 != 8) = true ↔ cmf.toNat % 16 ≠ 8 := by
  have hcmf := cmf.isLt
  have hlow : ((cmf.setWidth 32 : Word).extractLsb' 0 4).toNat = cmf.toNat % 16 := by simp
  rw [bne_iff_ne, Ne, ← hlow, BitVec.toNat_eq]
  rfl

/-- The window is CMF[7:4] (42_inflate.md R92). -/
theorem window_toNat (cmf : Byte) : ((cmf.setWidth 32 : Word).extractLsb' 4 4).toNat = cmf.toNat / 16 := by
  have hcmf := cmf.isLt
  simp
  omega

/-- The header bytes are recorded, then the method is checked, then the window (42_inflate.md R92). -/
theorem zlibHeader_eq {cmf flg : Byte} (h : s.bs = .atByte 0) (h2 : 2 ≤ s.inLen.toNat)
    (hmax : s.inLen.toNat ≤ Config.inMax) (hcmf : s.inRam.read 0 = some cmf) (hflg : s.inRam.read 1 = some flg) :
    zlibHeader s =
      if cmf.toNat % 16 ≠ 8 then .error (.raise .fmtBadMethod) (headerRead cmf flg s)
      else if 7 < cmf.toNat / 16 then .error (.raise .fmtBadWindow) (headerRead cmf flg s)
      else presetDict (flg.setWidth 32) (headerRead cmf flg s) := by
  have g0 := bsGet_byte h hmax (by omega) hcmf
  have g1 := bsGet_byte (s := { s with bs := .atByte (0 + 1) }) rfl hmax (by change 1 < s.inLen.toNat; omega) hflg
  simp only [zlibHeader, engine_bind, g0, g1, engine_modify, failIf_run, method_bne_iff, window_toNat,
    gt_iff_lt, decide_eq_true_eq]
  by_cases hm : cmf.toNat % 16 ≠ 8
  · simp only [if_pos hm]
    rfl
  · by_cases hwin : 7 < cmf.toNat / 16
    · simp only [if_neg hm, if_pos hwin]
      rfl
    · simp only [if_neg hm, if_neg hwin]
      rfl

theorem headerBit_five (flg : Byte) : (flg.setWidth 32 : Word).getLsbD 5 = flg.getLsbD 5 := by simp

/-- A header that is refused ends INFLATE (42_inflate.md R92). -/
theorem inflateBody_of_header {x : Stop} (h : zlibHeader (inflateInit s) = .error x t) :
    inflateBody s = .error x t := by
  simp only [inflateBody_eq, headerAndBlocks, engine_bind, h]

/-- An INFLATE that ends in the header has recorded the two header bytes and, at most, FDICT (42_inflate.md R91 to
R93). -/
theorem endedInHeader_headerRead (cmf flg : Byte) (e : ErrCode) (r : Reader) (status : Status) (s : State)
    (hpres : status.ckpres = false) (hok : status.ckok = false) :
    EndedInHeader cmf flg (inflateDone e { headerRead cmf flg (inflateInit s) with bs := r, status := status }) :=
  ⟨headerRead_zhdr cmf flg s, rfl, rfl, rfl, rfl, rfl, hpres, hok⟩

/-- Settles O35: the two header bytes are read at byte boundaries and their checks come in their order; the id's
four bytes are read one by one until the input ends. -/
theorem inflateHeaderErrors : Obligations.InflateHeaderErrors := by
  intro s cmf flg hg hcmf hflg
  have hg' := hg
  obtain ⟨h2, hmax, _⟩ := hg'
  have hheader := zlibHeader_eq (s := inflateInit s) rfl h2 hmax hcmf hflg
  refine ⟨fun hbad => ?_, fun hgood hdict hshort hw => ?_⟩
  · refine ⟨inflateDone (if cmf.toNat % 16 ≠ 8 then .fmtBadMethod else .fmtBadWindow)
      (headerRead cmf flg (inflateInit s)), exec_inflate_of_raise hg (inflateBody_of_header ?_),
      ⟨rfl, rfl, rfl, rfl, rfl⟩, endedInHeader_headerRead cmf flg _ _ _ s rfl rfl, rfl, rfl⟩
    rw [hheader]
    split
    · rfl
    · next hmethod =>
      rw [if_pos]
      by_contra hwindow
      exact hbad ⟨not_not.mp hmethod, Nat.not_lt.mp hwindow⟩
  · obtain ⟨hmethod, hwindow⟩ := hgood
    rw [if_neg (not_not.mpr hmethod), if_neg (Nat.not_lt.mpr hwindow)] at hheader
    have hid := getBE32_exhausted (k := 2) (s := fdictSet (headerRead cmf flg (inflateInit s))) rfl hmax h2
      (Nat.lt_of_lt_of_le hshort (Nat.le_refl 6)) hw
    exact ⟨_, exec_inflate_of_raise hg
        (inflateBody_of_header (hheader.trans (presetDict_of_error ((headerBit_five flg).trans hdict) hid))),
      ⟨rfl, rfl, rfl, rfl, rfl⟩, endedInHeader_headerRead cmf flg _ _ _ s rfl rfl, rfl, rfl⟩

/-- The state after an accepted header of INFLATE (42_inflate.md R92, R93). -/
def headerRecorded (cmf flg : Byte) (dict : Word) (s : State) : State :=
  { headerRead cmf flg s with
    bs := .atByte (zlibHeaderBytes cmf flg dict).length
    dictid := if flg.getLsbD 5 then dict else 0
    status := { s.status with fdict := flg.getLsbD 5 } }

theorem headerRecorded_recorded (cmf flg : Byte) (dict : Word) (s : State) :
    HeaderRecorded cmf flg dict (headerRecorded cmf flg dict s) := ⟨headerRead_zhdr cmf flg s, rfl, rfl⟩

/-- An accepted header is read whole and recorded (42_inflate.md R92, R93). -/
theorem zlibHeader_accepted {cmf flg : Byte} {dict : Word} (hacc : HeaderAccepted cmf)
    (hmax : s.inLen.toNat ≤ Config.inMax) (hlen : (zlibHeaderBytes cmf flg dict).length ≤ s.inLen.toNat)
    (hb : Holds s.inRam 0 (zlibHeaderBytes cmf flg dict)) :
    zlibHeader (inflateInit s) = .ok () (headerRecorded cmf flg dict (inflateInit s)) := by
  obtain ⟨hmethod, hwindow⟩ := hacc
  obtain ⟨hfixed, hid⟩ := (holds_append _ _ _ _).mp hb
  obtain ⟨hcmf, hflg, _⟩ := by simpa only [holds_cons] using hfixed
  have h2 : 2 ≤ s.inLen.toNat := Nat.le_trans (by simp [zlibHeaderBytes]) hlen
  rw [zlibHeader_eq (s := inflateInit s) rfl h2 hmax hcmf hflg, if_neg (not_not.mpr hmethod),
    if_neg (Nat.not_lt.mpr hwindow)]
  cases hf : flg.getLsbD 5 with
  | false =>
    rw [presetDict_of_clear ((headerBit_five flg).trans hf)]
    simp only [headerRecorded, zlibHeaderBytes, hf]
    rfl
  | true =>
    simp only [zlibHeaderBytes, hf, if_true] at hlen hid
    rw [presetDict_of_ok ((headerBit_five flg).trans hf)
      (getBE32_atByte (k := 2) (s := fdictSet (headerRead cmf flg (inflateInit s))) rfl hmax hlen hid)]
    simp only [headerRecorded, zlibHeaderBytes, hf]
    rfl

/-! ## Blocks -/

/-- A block header of the stream (42_inflate.md R94). -/
theorem blockHeader_atBit {p : Nat} {b0 b1 b2 : Bool} (h : AtBit p s) (hend : p + 3 ≤ 8 * s.inLen.toNat)
    (hb : StreamHolds .deflate s.inRam p [b0, b1, b2]) :
    ∃ r, blockHeader s = .ok (BitVec.ofNat 32 (lsbFirst [b0]), BitVec.ofNat 32 (lsbFirst [b1, b2]))
        { s with bs := r, blkinfo := nextBlkinfo s.blkinfo (BitVec.ofNat 32 (lsbFirst [b0]))
                            (BitVec.ofNat 32 (lsbFirst [b1, b2])) } ∧
      AtBit (p + 3) { s with bs := r } := by
  obtain ⟨hb0, hb12⟩ := (streamHolds_append _ _ p [b0] [b1, b2]).mp hb
  obtain ⟨r, hrun, hr⟩ := bsGet_atBit h (by simp) (Nat.le_trans (Nat.add_le_add_left (by simp) p) hend) hb0
  obtain ⟨r', hrun', hr'⟩ := bsGet_atBit (bits := [b1, b2]) hr (by simp) hend hb12
  refine ⟨r', ?_, hr'⟩
  simp only [List.length_cons, List.length_nil, Nat.zero_add, Nat.reduceAdd] at hrun hrun'
  simp only [blockHeader, engine_bind, hrun, hrun', engine_modify, engine_pure]

/-- BLKINFO of a stream of one block (42_inflate.md R94). -/
theorem blkinfo_stored : nextBlkinfo 0 1 0 = 0x00010004 := by decide

/-- The state after a block that has written `data`: the reader at r, BLKINFO as its header made it (42_inflate.md
R94). -/
def blockWritten (r : Reader) (blkinfo : Word) (data : List Byte) (s : State) : State :=
  { s with
    bs := r, blkinfo := blkinfo, outRam := Memory.writeAll s.outRam s.outPos data, outPos := s.outPos + data.length }

/-- INFLATE of a stream of one block (42_inflate.md R89). -/
theorem inflateBody_of_finalBlock {btype : Word} {u v w : State} (hheader : zlibHeader (inflateInit s) = .ok () u)
    (hblock : blockHeader u = .ok (1, btype) v) (hbody : blockBody btype v = .ok () w) :
    inflateBody s = endOfStream w := by
  simp only [inflateBody_eq, headerAndBlocks, engine_bind, hheader, engine_get, State.turns, blockLoop, hblock, hbody,
    if_true, engine_pure]

/-! ## A stored block -/

/-- The raw copy of written bytes (42_inflate.md R95). -/
theorem storedCopy_eq {k : Nat} (data : List Byte) (h : s.bs = .atByte k) (hb : Holds s.inRam k data) :
    storedCopy data.length s = .ok () { s with
      bs := .atByte (k + data.length), outRam := Memory.writeAll s.outRam s.outPos data,
      outPos := s.outPos + data.length } := by
  induction data generalizing s k with
  | nil => simp [storedCopy, Memory.writeAll, ← h]
  | cons b bs ih =>
    obtain ⟨hhead, htail⟩ := (holds_cons _ _ _ _).mp hb
    have hread : s.inRam.read s.bs.offset = some b := by rw [h]; exact hhead
    have hrest := ih (k := k + 1) (s := { s with
      bs := .atByte (k + 1), outRam := s.outRam.write s.outPos b, outPos := s.outPos + 1 }) rfl htail
    have hnext : { s.bs with offset := s.bs.offset + 1 } = Reader.atByte (k + 1) := by rw [h]; rfl
    simp only [List.length_cons, storedCopy, engine_bind, engine_get, readIn_some s _ b hread, pushOut_run,
      engine_modify, hnext, hrest, Memory.writeAll]
    simp only [Nat.add_assoc, Nat.add_comm 1]

/-- LEN and NLEN of a stored block, low byte first (42_inflate.md R95). -/
def lengthBytes (len : Word) : List Byte :=
  [byteOf len 0, byteOf len 1, byteOf (len ^^^ 0xFFFF) 0, byteOf (len ^^^ 0xFFFF) 1]

/-- A 16-bit half of the length pair at a byte boundary (42_inflate.md R95). -/
theorem bsGet_half {k : Nat} {w : Word} (h : s.bs = .atByte k) (hmax : s.inLen.toNat ≤ Config.inMax)
    (hend : k + 2 ≤ s.inLen.toNat) (hw : w.toNat < 2 ^ 16) (h0 : s.inRam.read k = some (byteOf w 0))
    (h1 : s.inRam.read (k + 1) = some (byteOf w 1)) : bsGet 16 s = .ok w { s with bs := .atByte (k + 2) } :=
  bsGet_atByte 2 h hmax (by decide) hend hw fun j hj => by
    interval_cases j
    · exact h0
    · exact h1

theorem storedChecks_pass {len : Nat} (hin : s.bs.offset + len ≤ s.inLen.toNat)
    (hout : s.outPos + len ≤ s.outCap.toNat) :
    storedChecks len s = .ok () s := by
  have hin' : ¬ s.inLen.toNat - s.bs.offset < len := by omega
  simp [storedChecks, engine_bind, hin', Nat.not_lt.mpr hout]

/-- A stored block of written bytes that fit OUT_CAP, from the byte boundary k that its header leaves (42_inflate.md
R95). -/
theorem storedBlock_eq {k : Nat} (data : List Byte) (h : s.bs.align = .atByte k) (hmax : s.inLen.toNat ≤ Config.inMax)
    (hend : k + 4 + data.length ≤ s.inLen.toNat) (hcap : s.outPos + data.length ≤ s.outCap.toNat)
    (h16 : data.length < 2 ^ 16) (hb : Holds s.inRam k (lengthBytes (BitVec.ofNat 32 data.length) ++ data)) :
    storedBlock s = .ok () { s with
      bs := .atByte (k + 4 + data.length), outRam := Memory.writeAll s.outRam s.outPos data,
      outPos := s.outPos + data.length } := by
  obtain ⟨hlens, hdata⟩ := (holds_append _ _ _ _).mp hb
  obtain ⟨h0, h1, h2, h3, _⟩ := by simpa only [lengthBytes, holds_cons] using hlens
  have hlen : (BitVec.ofNat 32 data.length).toNat = data.length := by
    rw [BitVec.toNat_ofNat, Nat.mod_eq_of_lt (by omega)]
  have hnlen : (BitVec.ofNat 32 data.length ^^^ 0xFFFF : Word).toNat < 2 ^ 16 := by
    rw [BitVec.toNat_xor, hlen]
    exact Nat.xor_lt_two_pow h16 (by decide)
  have g1 := bsGet_half (s := { s with bs := .atByte k }) rfl hmax (by change k + 2 ≤ s.inLen.toNat; omega)
    (hlen.symm ▸ h16) h0 h1
  have g2 := bsGet_half (s := { s with bs := .atByte (k + 2) }) rfl hmax (by change k + 2 + 2 ≤ s.inLen.toNat; omega)
    hnlen h2 h3
  have hchecks := storedChecks_pass (s := { s with bs := .atByte (k + 2 + 2) }) hend hcap
  have hcopy := storedCopy_eq (s := { s with bs := .atByte (k + 2 + 2) }) data rfl hdata
  simp only [storedBlock, engine_bind, bsAlign_run, h, g1, g2, bne_self_eq_false, failIf_false, hlen, hchecks, hcopy]

/-- The bytes of one final stored block: its header, the length pair, the data (42_inflate.md R94, R95). -/
def storedBlockBytes (data : List Byte) : List Byte := [0x01] ++ (lengthBytes (BitVec.ofNat 32 data.length) ++ data)

theorem storedBlockBytes_length (data : List Byte) : (storedBlockBytes data).length = 5 + data.length := by
  simp only [storedBlockBytes, lengthBytes, List.length_append, List.length_cons, List.length_nil]
  omega

/-- The stream of one stored block, piece by piece (42_inflate.md R92 to R95, R107). -/
theorem storedStream_eq (cmf flg : Byte) (dict : Word) (data : List Byte) (adler : Word) :
    storedStream cmf flg dict data adler =
      zlibHeaderBytes cmf flg dict ++ (storedBlockBytes data ++ bigEndian adler) := by
  simp [storedStream, storedBlockBytes, lengthBytes]

/-- BFINAL = 1, BTYPE = 0, low bit first (42_inflate.md R94). -/
theorem streamHolds_storedHeader {m : Memory Byte} {k : Nat} (h : m.read k = some 0x01) :
    StreamHolds .deflate m (8 * k) [true, false, false] := by
  have hbyte : StreamHolds .deflate m (8 * k) (lowBits 8 1) := streamHolds_word (n := 1) fun j hj => by
    obtain rfl : j = 0 := by omega
    rw [Nat.add_zero, h]
    rfl
  exact ((streamHolds_append _ _ _ _ _).mp (show StreamHolds .deflate m (8 * k)
    ([true, false, false] ++ [false, false, false, false, false]) from hbyte)).1

/-- The end of a stream whose output is `data` and whose trailer is its checksum (42_inflate.md R107). -/
theorem endOfStream_trailer {k : Nat} {data : List Byte} (h : s.bs = .atByte k) (hmax : s.inLen.toNat ≤ Config.inMax)
    (hk : k + 4 ≤ s.inLen.toNat) (hl : data.length = s.outPos) (hout : Holds s.outRam 0 data)
    (hb : Holds s.inRam k (bigEndian (adler32 1 data))) :
    endOfStream s = .ok () (trailerMatched (adler32 1 data) { checksummed data s with bs := .atByte (k + 4) }) := by
  have halign : s.bs.align = .atByte k := by rw [h]; exact align_of_no_bits _ rfl
  have hread := getBE32_atByte (s := checksummed data s) halign hmax hk hb
  have hfour : 4 ≤ s.inLen.toNat - s.bs.offset := by
    rw [h]
    change 4 ≤ s.inLen.toNat - k
    omega
  rw [endOfStream_eq hl hout, if_pos hfour, checkTrailer_eq hread]
  exact if_pos rfl

/-- The stored block of a stream, from its header at byte k to the byte after its data (42_inflate.md R94, R95). -/
theorem storedBlock_stream {k : Nat} {data : List Byte} (h : s.bs = .atByte k) (hmax : s.inLen.toNat ≤ Config.inMax)
    (hend : k + 5 + data.length ≤ s.inLen.toNat) (hcap : s.outPos + data.length ≤ s.outCap.toNat)
    (hb : Holds s.inRam k (storedBlockBytes data)) :
    ∃ t, blockHeader s = .ok (1, 0) t ∧ blockBody 0 t =
      .ok () (blockWritten (.atByte (k + 5 + data.length)) (nextBlkinfo s.blkinfo 1 0) data s) := by
  obtain ⟨hheader, hstored⟩ := (holds_append _ _ _ _).mp hb
  obtain ⟨r, hrun, hr⟩ := blockHeader_atBit (atBit_of_atByte h (by omega) hmax) (by omega)
    (streamHolds_storedHeader ((holds_cons _ _ _ _).mp hheader).1)
  have halign : r.align = .atByte (k + 1) := by
    rw [hr.align]
    congr 1
    omega
  have h16 : data.length < 2 ^ 16 := by
    have hinMax : Config.inMax = 65536 := rfl
    omega
  have hbody := storedBlock_eq (s := { s with bs := r, blkinfo := nextBlkinfo s.blkinfo 1 0 }) data halign hmax
    (by change k + 1 + 4 + data.length ≤ s.inLen.toNat; omega) hcap h16 hstored
  exact ⟨_, hrun, hbody⟩

/-- Settles O37: the header, the stored block and the trailer stand one after the other. -/
theorem inflateStoredBlock : Obligations.InflateStoredBlock := by
  intro s cmf flg dict data hacc hlen hmax hcap hout hb
  rw [storedStream_eq] at hlen hb
  obtain ⟨hheader, hb⟩ := (holds_append _ _ _ _).mp hb
  obtain ⟨hblock, htrailer⟩ := (holds_append _ _ _ _).mp hb
  have hword : (bigEndian (adler32 1 data)).length = 4 := rfl
  rw [List.length_append, List.length_append, storedBlockBytes_length, hword] at hlen
  rw [Nat.zero_add] at hblock
  rw [Nat.zero_add, storedBlockBytes_length, ← Nat.add_assoc] at htrailer
  have hrun := zlibHeader_accepted hacc hmax (by omega) hheader
  obtain ⟨t, hblk, hbody⟩ := storedBlock_stream (s := headerRecorded cmf flg dict (inflateInit s)) rfl hmax
    (Nat.le_trans (by omega) (Nat.le_of_eq hlen.symm)) ((Nat.zero_add _).symm ▸ hcap) hblock
  have hend := (inflateBody_of_finalBlock hrun hblk hbody).trans
    (endOfStream_trailer rfl hmax (Nat.le_trans (by omega) (Nat.le_of_eq hlen.symm)) (Nat.zero_add _).symm
      (holds_writeAll _ _ _) htrailer)
  refine ⟨_, exec_inflate_of_ok ⟨by omega, hmax, hout⟩ hend, ⟨rfl, rfl, rfl, rfl, ?_⟩, Nat.zero_add _,
    holds_writeAll _ _ _, headerRecorded_recorded cmf flg dict (inflateInit s), ?_, rfl, rfl, blkinfo_stored, rfl, rfl⟩
  · exact congrArg (BitVec.ofNat 32) (Nat.zero_add data.length)
  · exact congrArg Reader.atByte (show _ = s.inLen.toNat by omega)

end Sys2Proof.Machine
end

section
/-! PROOFS. INFLATE of a fixed-Huffman block of literals (42_inflate.md R96, R101, R102): the fixed codes in closed
form, the symbol loop along them, and the statement. -/

namespace Sys2Proof.Machine

variable {s t : State}

/-! ## The fixed codes -/

/-- The fixed lit/len lengths are a valid set (42_inflate.md R96). -/
theorem fixLit_valid : ValidLengths fixLit 15 := by
  refine ⟨(lenTooLong_eq_false fixLit 15).mpr fixLit_le, (oversubscribed_eq_false_iff_kraftSum fixLit_le).mpr ?_⟩
  simp [kraftSum, fixLit, -List.reduceReplicate]

theorem fixDist_valid : ValidLengths fixDist 15 := ⟨by decide, by decide⟩

/-- The first codes of the fixed lit/len lengths (41_huffman.md R81, 42_inflate.md R96). -/
theorem firstCode_fixLit : firstCode fixLit 7 = 0 ∧ firstCode fixLit 8 = 0x30 ∧ firstCode fixLit 9 = 0x190 := by
  simp [firstCode, blCount, fixLit, List.count_replicate, -List.reduceReplicate]

/-- The code of symbol j of a run of n symbols of length l (41_huffman.md R81). -/
theorem isCode_of_run (xs ys : List Nat) {n l j : Nat} (hj : j < n) (h0 : l ≠ 0) (h16 : l ≤ 16) :
    IsCode (xs ++ (List.replicate n l ++ ys)) (xs.length + j) l
      (firstCode (xs ++ (List.replicate n l ++ ys)) l + (xs.count l + j)) := by
  have hget : (xs ++ (List.replicate n l ++ ys))[xs.length + j]? = some l := by
    rw [List.getElem?_append_right (Nat.le_add_right _ _), Nat.add_sub_cancel_left,
      List.getElem?_append_left (by simpa using hj)]
    simp [hj]
  have hcount : ((xs ++ (List.replicate n l ++ ys)).take (xs.length + j)).count l = xs.count l + j := by
    rw [List.take_length_add_append, List.take_append_of_le_length (by simpa using Nat.le_of_lt hj),
      List.take_replicate, List.count_append, List.count_replicate_self, Nat.min_eq_left (Nat.le_of_lt hj)]
  exact ⟨hget, h0, hcount ▸ codes_get _ _ l hget h0 h16⟩

/-- The code of a literal below 144 (42_inflate.md R96). -/
theorem isCode_fixLit_low {b : Nat} (h : b < 144) : IsCode fixLit b 8 (0x30 + b) := by
  have hrun := isCode_of_run [] (List.replicate 112 9 ++ (List.replicate 24 7 ++ List.replicate 8 8)) (l := 8) h
    (by decide) (by decide)
  have hlens : [] ++ (List.replicate 144 8 ++ (List.replicate 112 9 ++ (List.replicate 24 7 ++ List.replicate 8 8)))
      = fixLit := by simp only [fixLit, List.nil_append, List.append_assoc]
  rw [hlens, firstCode_fixLit.2.1] at hrun
  simpa using hrun

/-- The code of a literal from 144 on (42_inflate.md R96). -/
theorem isCode_fixLit_high {b : Nat} (h : 144 ≤ b) (h' : b < 256) : IsCode fixLit b 9 (0x190 + (b - 144)) := by
  have hrun := isCode_of_run (List.replicate 144 8) (List.replicate 24 7 ++ List.replicate 8 8) (n := 112) (l := 9)
    (j := b - 144) (by omega) (by decide) (by decide)
  have hlens : List.replicate 144 8 ++ (List.replicate 112 9 ++ (List.replicate 24 7 ++ List.replicate 8 8))
      = fixLit := by simp only [fixLit, List.append_assoc]
  rw [hlens, firstCode_fixLit.2.2, List.length_replicate, Nat.add_sub_cancel' h, List.count_replicate] at hrun
  simpa using hrun

/-- The code of the end-of-block symbol (42_inflate.md R96, R101). -/
theorem isCode_fixLit_end : IsCode fixLit 256 7 0 := by
  have hrun := isCode_of_run (List.replicate 144 8 ++ List.replicate 112 9) (List.replicate 8 8) (n := 24) (l := 7)
    (j := 0) (by decide) (by decide) (by decide)
  have hlens : List.replicate 144 8 ++ List.replicate 112 9 ++ (List.replicate 24 7 ++ List.replicate 8 8)
      = fixLit := by simp only [fixLit, List.append_assoc]
  rw [hlens, firstCode_fixLit.1, List.length_append, List.length_replicate, List.length_replicate, List.count_append,
    List.count_replicate, List.count_replicate] at hrun
  simpa using hrun

/-- The code of a literal as a fixed-Huffman block has it (42_inflate.md R96, R102). -/
def literalBits (b : Byte) : List Bool :=
  if b.toNat < 144 then codeBits 8 (0x30 + b.toNat) else codeBits 9 (0x190 + (b.toNat - 144))

theorem literalBits_code (b : Byte) : ∃ l c, literalBits b = codeBits l c ∧ IsCode fixLit b.toNat l c := by
  unfold literalBits
  split
  · next h => exact ⟨_, _, rfl, isCode_fixLit_low h⟩
  · next h => exact ⟨_, _, rfl, isCode_fixLit_high (Nat.not_lt.mp h) b.isLt⟩

/-- The literals' codes and the code of the end-of-block symbol (42_inflate.md R101). -/
def symbolBits (data : List Byte) : List Bool := data.flatMap literalBits ++ codeBits 7 0

theorem symbolBits_cons (b : Byte) (data : List Byte) : symbolBits (b :: data) = literalBits b ++ symbolBits data := by
  simp [symbolBits]

theorem fixedLiteralBits_eq (data : List Byte) : fixedLiteralBits data = [true, true, false] ++ symbolBits data := by
  simp only [fixedLiteralBits, symbolBits, List.append_assoc]
  rfl

/-! ## The symbol loop -/

/-- HufDecode with T0 the fixed lit/len tree along a symbol's code (41_huffman.md R85). -/
theorem hufDecode_fixLit {p sym l c : Nat} (h : AtBit p s) (ht : s.trees.t0 = .built fixLit 15)
    (hcode : IsCode fixLit sym l c) (hend : p + l ≤ 8 * s.inLen.toNat)
    (hb : StreamHolds .deflate s.inRam p (codeBits l c)) :
    ∃ r, hufDecode .t0 s = .ok sym { s with bs := r } ∧ AtBit (p + l) { s with bs := r } := by
  have ho := h.offset_eq
  obtain ⟨hm, hg, hc, hpos, hp, hmax⟩ := h
  have hreadable : Readable s l := Or.inr ⟨by omega, by rw [hm, hpos]; exact hend⟩
  obtain ⟨u, hrun, hu, hmode, hpos', hgood, hcoh⟩ := hufDecode_code (k := .t0) ht fixLit_valid (by decide)
    hcode hmax hg hc hreadable (by rwa [hm, hpos])
  exact ⟨u.bs, hu ▸ hrun, hmode.trans hm, hgood, hu ▸ hcoh, hpos'.trans (by rw [hpos]), hend, hmax⟩

/-- A turn of the symbol loop that decodes a literal with room for it (42_inflate.md R101, R102). -/
theorem symbolLoop_literal {sym : Nat} (fuel : Nat) (hsym : sym < 256) (h : hufDecode .t0 s = .ok sym t)
    (hcap : t.outPos < t.outCap.toNat) :
    symbolLoop (fuel + 1) s =
      symbolLoop fuel { t with outRam := t.outRam.write t.outPos (BitVec.ofNat 8 sym), outPos := t.outPos + 1 } := by
  simp [symbolLoop, engine_bind, h, hsym, literal, Nat.not_le.mpr hcap]

/-- The turn of the symbol loop that decodes the end-of-block symbol (42_inflate.md R101). -/
theorem symbolLoop_end (fuel : Nat) (h : hufDecode .t0 s = .ok 256 t) : symbolLoop (fuel + 1) s = .ok () t := by
  simp [symbolLoop, engine_bind, h]

/-- The symbol loop along literals and the end of the block (42_inflate.md R101, R102). -/
theorem symbolLoop_literals (data : List Byte) {p fuel : Nat} (h : AtBit p s) (ht : s.trees.t0 = .built fixLit 15)
    (hend : p + (symbolBits data).length ≤ 8 * s.inLen.toNat) (hcap : s.outPos + data.length ≤ s.outCap.toNat)
    (hfuel : data.length < fuel) (hb : StreamHolds .deflate s.inRam p (symbolBits data)) :
    ∃ r, symbolLoop fuel s = .ok () (blockWritten r s.blkinfo data s) ∧
      AtBit (p + (symbolBits data).length) { s with bs := r } := by
  induction data generalizing s p fuel with
  | nil =>
    obtain ⟨fuel, rfl⟩ := Nat.exists_eq_succ_of_ne_zero (Nat.ne_zero_of_lt hfuel)
    obtain ⟨r, hrun, hr⟩ := hufDecode_fixLit h ht isCode_fixLit_end hend hb
    exact ⟨r, symbolLoop_end fuel hrun, hr⟩
  | cons b data ih =>
    obtain ⟨fuel, rfl⟩ := Nat.exists_eq_succ_of_ne_zero (Nat.ne_zero_of_lt hfuel)
    obtain ⟨l, c, hbits, hcode⟩ := literalBits_code b
    rw [symbolBits_cons, hbits] at hend hb ⊢
    rw [List.length_append, codeBits_length, ← Nat.add_assoc] at hend ⊢
    rw [List.length_cons] at hcap hfuel
    obtain ⟨hhead, htail⟩ := (streamHolds_append _ _ _ _ _).mp hb
    rw [codeBits_length] at htail
    obtain ⟨r, hrun, hr⟩ := hufDecode_fixLit h ht hcode (by omega) hhead
    obtain ⟨r', hrest, hr'⟩ := ih (s := { s with bs := r, outRam := s.outRam.write s.outPos b, outPos := s.outPos + 1 })
      hr ht hend (by change s.outPos + 1 + data.length ≤ s.outCap.toNat; omega) (Nat.lt_of_succ_lt_succ hfuel) htail
    refine ⟨r', ?_, hr'⟩
    rw [Nat.succ_eq_add_one, symbolLoop_literal fuel b.isLt hrun (by change s.outPos < s.outCap.toNat; omega)]
    simp only [BitVec.ofNat_toNat, BitVec.setWidth_eq, hrest]
    simp only [blockWritten, Memory.writeAll, List.length_cons, Nat.add_assoc, Nat.add_comm 1]

/-! ## The block -/

/-- The slots of a fixed-Huffman block (42_inflate.md R96). -/
def fixedTrees (t : Trees) : Trees := { t with t0 := .built fixLit 15, t1 := .built fixDist 15 }

theorem fixedBlock_eq (s : State) : fixedBlock s = blockSymbols { s with trees := fixedTrees s.trees } := by
  obtain ⟨hlit, hlit'⟩ := fixLit_valid
  obtain ⟨hdist, hdist'⟩ := fixDist_valid
  simp only [fixedBlock, engine_bind, hufBuild_run, hlit, hlit', hdist, hdist']
  rfl

/-- BLKINFO of a stream of one block (42_inflate.md R94). -/
theorem blkinfo_fixed : nextBlkinfo 0 1 1 = 0x00010005 := by decide

/-- A code is at least one bit long, so the bits of the literals bound their number. -/
theorem length_le_symbolBits (data : List Byte) : data.length ≤ (symbolBits data).length := by
  induction data with
  | nil => exact Nat.zero_le _
  | cons b data ih =>
    obtain ⟨l, c, hbits, hcode⟩ := literalBits_code b
    have hl := Nat.pos_of_ne_zero hcode.present
    rw [symbolBits_cons, hbits, List.length_append, codeBits_length, List.length_cons]
    omega

/-- The fixed-Huffman block of literals of a stream, from its header at byte k to the end of its bits (42_inflate.md
R94, R96, R101). -/
theorem fixedBlock_stream {k : Nat} {data : List Byte} (h : s.bs = .atByte k) (hmax : s.inLen.toNat ≤ Config.inMax)
    (hend : 8 * k + (fixedLiteralBits data).length ≤ 8 * s.inLen.toNat)
    (hcap : s.outPos + data.length ≤ s.outCap.toNat)
    (hb : StreamHolds .deflate s.inRam (8 * k) (fixedLiteralBits data)) :
    ∃ t r, blockHeader s = .ok (1, 1) t ∧
      blockBody 1 t =
        .ok () (blockWritten r (nextBlkinfo s.blkinfo 1 1) data { s with trees := fixedTrees s.trees }) ∧
      AtBit (8 * k + (fixedLiteralBits data).length) { s with bs := r } := by
  rw [fixedLiteralBits_eq] at hend hb ⊢
  rw [List.length_append, ← Nat.add_assoc] at hend ⊢
  obtain ⟨hheader, hsymbols⟩ := (streamHolds_append _ _ _ _ _).mp hb
  have hk : k ≤ s.inLen.toNat := by omega
  have hlength := length_le_symbolBits data
  have hmark : [true, true, false].length = 3 := rfl
  obtain ⟨r, hrun, hr⟩ := blockHeader_atBit (atBit_of_atByte h hk hmax) (by omega) hheader
  obtain ⟨r', hloop, hr'⟩ := symbolLoop_literals data
    (s := { s with bs := r, blkinfo := nextBlkinfo s.blkinfo 1 1, trees := fixedTrees s.trees })
    (fuel := 8 * s.inLen.toNat + 1) hr rfl hend hcap (by omega) hsymbols
  exact ⟨_, r', hrun, (fixedBlock_eq _).trans hloop, hr'⟩

/-- The end of a stream whose output is `data`, with less than four bytes left (42_inflate.md R107). -/
theorem endOfStream_bare {data : List Byte} (hk : s.inLen.toNat < s.bs.offset + 4) (hl : data.length = s.outPos)
    (hout : Holds s.outRam 0 data) : endOfStream s = .ok () (checksummed data s) := by
  rw [endOfStream_eq hl hout, if_neg (by omega)]

/-- Settles O38: the header, then the block's symbols one after the other; its last bit is in the last byte of the
input. -/
theorem inflateFixedLiterals : Obligations.InflateFixedLiterals := by
  intro s cmf flg dict data hacc header hlen hmax hcap hout hheader hbits
  have hrun := zlibHeader_accepted hacc hmax (Nat.le_trans (Nat.le_add_right _ _) (Nat.le_of_eq hlen.symm)) hheader
  obtain ⟨t, r, hblk, hbody, hr⟩ := fixedBlock_stream (s := headerRecorded cmf flg dict (inflateInit s)) rfl hmax
    (by change 8 * header.length + _ ≤ 8 * s.inLen.toNat; omega) ((Nat.zero_add _).symm ▸ hcap) hbits
  have hoffset : r.offset = s.inLen.toNat := hr.offset_eq.trans (by change (8 * header.length + _ + 7) / 8 = _; omega)
  have halign : r.align = .atByte s.inLen.toNat :=
    hr.align.trans (congrArg Reader.atByte (hr.offset_eq.symm.trans hoffset))
  have hend := (inflateBody_of_finalBlock hrun hblk hbody).trans
    (endOfStream_bare (data := data) (by change s.inLen.toNat < r.offset + 4; omega) (Nat.zero_add _).symm
      (holds_writeAll _ _ _))
  refine ⟨_, exec_inflate_of_ok ⟨?_, hmax, hout⟩ hend, ⟨rfl, rfl, rfl, rfl, ?_⟩, Nat.zero_add _,
    holds_writeAll _ _ _, headerRecorded_recorded cmf flg dict (inflateInit s), halign, rfl, rfl, rfl, rfl,
    blkinfo_fixed⟩
  · have htwo : 2 ≤ header.length := by simp [header, zlibHeaderBytes]
    omega
  · exact congrArg (BitVec.ofNat 32) (Nat.zero_add data.length)

end Sys2Proof.Machine
end

section
/-! PROOFS. The statements of 43_checksum_and_control.md. Where the sums of Adler-32 are reduced does not matter, for every
step of theirs keeps congruence modulo 65521; the chaining and the reduction schedule both follow from that. -/

namespace Sys2Proof.Machine

/-! ## The sums -/

theorem adlerSums_cons (b : Byte) (bytes : List Byte) (lower upper : Nat) :
    adlerSums (b :: bytes) lower upper = adlerSums bytes (lower + b.toNat) (upper + (lower + b.toNat)) := rfl

/-- The sums run on over a concatenation (43_checksum_and_control.md R110). -/
theorem adlerSums_append (xs ys : List Byte) (lower upper : Nat) :
    adlerSums (xs ++ ys) lower upper = adlerSums ys (adlerSums xs lower upper).1 (adlerSums xs lower upper).2 := by
  induction xs generalizing lower upper with
  | nil => rfl
  | cons b xs ih => rw [List.cons_append, adlerSums_cons, adlerSums_cons, ih]

/-- Each byte adds at most 255 to the lower sum. -/
theorem adlerSums_lower_le (bytes : List Byte) (lower upper : Nat) :
    (adlerSums bytes lower upper).1 ≤ lower + 255 * bytes.length := by
  induction bytes generalizing lower upper with
  | nil => exact Nat.le_refl lower
  | cons b bytes ih =>
    have hb : b.toNat < 256 := b.isLt
    have hsum := ih (lower + b.toNat) (upper + (lower + b.toNat))
    rw [adlerSums_cons, List.length_cons]
    omega

/-- The upper sum adds up the lower ones: over n bytes at most n·lower + 255·n·(n+1)/2 (43_checksum_and_control.md R111). -/
theorem adlerSums_upper_le (bytes : List Byte) (lower upper : Nat) :
    2 * (adlerSums bytes lower upper).2 ≤
      2 * upper + 2 * (bytes.length * lower) + 255 * (bytes.length * (bytes.length + 1)) := by
  induction bytes generalizing lower upper with
  | nil => simp [adlerSums]
  | cons b bytes ih =>
    have hb : b.toNat ≤ 255 := Nat.le_of_lt_succ b.isLt
    rw [adlerSums_cons, List.length_cons]
    calc 2 * (adlerSums bytes (lower + b.toNat) (upper + (lower + b.toNat))).2
        ≤ 2 * (upper + (lower + b.toNat)) + 2 * (bytes.length * (lower + b.toNat))
            + 255 * (bytes.length * (bytes.length + 1)) := ih _ _
      _ = 2 * upper + 2 * ((bytes.length + 1) * lower) + 2 * ((bytes.length + 1) * b.toNat)
            + 255 * (bytes.length * (bytes.length + 1)) := by ring
      _ ≤ 2 * upper + 2 * ((bytes.length + 1) * lower) + 2 * ((bytes.length + 1) * 255)
            + 255 * (bytes.length * (bytes.length + 1)) := by gcongr
      _ = 2 * upper + 2 * ((bytes.length + 1) * lower)
            + 255 * ((bytes.length + 1) * (bytes.length + 1 + 1)) := by ring

/-! ## Sums modulo 65521 -/

/-- Two pairs of sums that are congruent modulo 65521, and so pack to one checksum. -/
def SumsModEq (p q : Nat × Nat) : Prop := p.1 ≡ q.1 [MOD adlerBase] ∧ p.2 ≡ q.2 [MOD adlerBase]

theorem SumsModEq.refl (p : Nat × Nat) : SumsModEq p p := ⟨rfl, rfl⟩

theorem SumsModEq.trans {p q r : Nat × Nat} (h : SumsModEq p q) (k : SumsModEq q r) : SumsModEq p r :=
  ⟨h.1.trans k.1, h.2.trans k.2⟩

theorem sumsModEq_reduced (p : Nat × Nat) : SumsModEq (p.1 % adlerBase, p.2 % adlerBase) p :=
  ⟨Nat.mod_modEq _ _, Nat.mod_modEq _ _⟩

/-- The checksum is one of the sums modulo 65521 (43_checksum_and_control.md R110). -/
theorem adlerPack_congr {p q : Nat × Nat} (h : SumsModEq p q) : adlerPack p = adlerPack q := by
  obtain ⟨hlower, hupper⟩ := h
  rw [adlerPack, adlerPack, hlower, hupper]

/-- Adding the bytes keeps the congruence. -/
theorem adlerSums_congr (bytes : List Byte) {p q : Nat × Nat} (h : SumsModEq p q) :
    SumsModEq (adlerSums bytes p.1 p.2) (adlerSums bytes q.1 q.2) := by
  induction bytes generalizing p q with
  | nil => exact h
  | cons b bytes ih =>
    obtain ⟨hlower, hupper⟩ := h
    have hlower' := hlower.add_right b.toNat
    exact ih (p := (_, _)) (q := (_, _)) ⟨hlower', hupper.add hlower'⟩

/-- The schedule's sums are the exact ones modulo 65521, wherever in a block they start (43_checksum_and_control.md R111). -/
theorem adlerSumsBlocked_modEq (block k : Nat) (bytes : List Byte) (lower upper : Nat) :
    SumsModEq (adlerSumsBlocked block k bytes lower upper) (adlerSums bytes lower upper) := by
  induction bytes generalizing k lower upper with
  | nil => exact .refl _
  | cons b bytes ih =>
    rw [adlerSums_cons, adlerSumsBlocked]
    split
    · exact (ih _ _ _).trans (adlerSums_congr bytes (sumsModEq_reduced (_, _)))
    · exact ih _ _ _

/-! ## The checksum as the next seed -/

/-- A reduced sum fits 16 bits (43_checksum_and_control.md R110). -/
theorem mod_adlerBase_lt (n : Nat) : n % adlerBase < 2 ^ 16 := Nat.lt_trans (Nat.mod_lt n (by decide)) (by decide)

/-- The checksum is the two reduced sums side by side (43_checksum_and_control.md R110). -/
theorem adlerPack_toNat (p : Nat × Nat) :
    (adlerPack p).toNat = p.1 % adlerBase + 2 ^ 16 * (p.2 % adlerBase) := by
  have hlower := mod_adlerBase_lt p.1
  have hupper := mod_adlerBase_lt p.2
  rw [adlerPack, BitVec.toNat_or, ofNat_shiftLeft_toNat (by omega), BitVec.toNat_ofNat,
    Nat.mod_eq_of_lt (hlower.trans (by decide)), Nat.lor_comm, or_shiftLeft_eq_add _ (by omega)]

/-- A seed that is a checksum starts the sums where that checksum's were, reduced (43_checksum_and_control.md R112). -/
theorem adlerPack_halves (p : Nat × Nat) :
    ((adlerPack p).extractLsb' 0 16).toNat = p.1 % adlerBase ∧
      ((adlerPack p).extractLsb' 16 16).toNat = p.2 % adlerBase := by
  have hlower := mod_adlerBase_lt p.1
  have hupper := mod_adlerBase_lt p.2
  change field (adlerPack p) 0 16 = _ ∧ field (adlerPack p) 16 16 = _
  rw [field_eq_div_mod, field_eq_div_mod, adlerPack_toNat]
  omega

/-- Settles O29: the second run starts at the first one's sums reduced, where the concatenation runs on from them exact. -/
theorem adlerChains : Obligations.AdlerChains := by
  intro seed xs ys
  obtain ⟨hlower, hupper⟩ := adlerPack_halves
    (adlerSums xs (seed.extractLsb' 0 16).toNat (seed.extractLsb' 16 16).toNat)
  rw [adler32, adler32, hlower, hupper, adler32, adlerSums_append]
  exact adlerPack_congr (adlerSums_congr ys (sumsModEq_reduced _))

/-- Settles O30: the bounds at 5552 bytes, and the schedule's congruence with the exact sums. -/
theorem adlerReductionSchedule : Obligations.AdlerReductionSchedule := by
  refine ⟨fun bytes lower upper hlen hl hu => ⟨?_, ?_⟩, fun block bytes seed _ => ?_⟩
  · have hsum := adlerSums_lower_le bytes lower upper
    omega
  · have hsum := adlerSums_upper_le bytes lower upper
    have hlinear : bytes.length * lower ≤ 5552 * 65535 := Nat.mul_le_mul hlen (Nat.le_of_lt_succ hl)
    have hsquare : bytes.length * (bytes.length + 1) ≤ 5552 * 5553 := Nat.mul_le_mul hlen (Nat.succ_le_succ hlen)
    omega
  · exact adlerPack_congr (adlerSumsBlocked_modEq block 0 bytes _ _)

/-! ## ADLER32 -/

/-- Settles O28: past the check of IN_LEN the command reads the bytes that IN holds. -/
theorem adlerOfTheInput : Obligations.AdlerOfTheInput := by
  intro s
  constructor
  · intro bytes hl hlen hbytes
    have hread : inList 0 s.inLen.toNat s = .ok bytes s := hlen ▸ inList_holds s bytes 0 hbytes
    exact runCommand_ok _ _ _ _ (by simp [engine_bind, engine_map, checkInLen_run s hl, hread])
  · intro hl
    exact runCommand_raise _ _ _ _ (by simp [engine_bind, checkInLen, hl])

/-! ## NOP -/

/-- STATUS after a success with no other bit set: DONE alone (10_state.md R18). -/
theorem completed_ok_statusWord {s : State} (result : Word) (hovr : s.status.ovr = false)
    (hckpres : s.status.ckpres = false) (hckok : s.status.ckok = false) (hfdict : s.status.fdict = false) :
    (completed .ok result s).statusWord = 0x00000002 := by
  simp only [State.statusWord, State.busy, completed, hovr, hckpres, hckok, hfdict]
  decide

/-- Of the words with OP 0 only NOP's own selects a row (30_encoding.md R58, R59). -/
theorem selects_eq_false_of_op_zero {w : Word} (hop : field w 0 4 = 0) (hw : w ≠ 0) :
    ∀ r ∈ opcodeMap, r.selects w = false := by
  intro r hr
  rw [Bool.eq_false_iff]
  intro hsel
  obtain ⟨hrow, -⟩ := (selects_iff hr w).mp hsel
  obtain ⟨i, -, hi, -, hword⟩ := exists_decode_of_selects hr hsel
  have hzero : opOf i = 0 := by rw [hi, ← hrow, hop]
  cases i with
  | nop => exact hw hword.symm
  | _ => cases hzero

/-- Settles O15: NOP is the completion itself, and a word with OP 0 and a further 1 selects no row. -/
theorem nopCompletes : Obligations.NopCompletes := by
  constructor
  · intro s
    have hirq : (completed .ok 0 s).irq = s.ctrl.ie := complete_irq .ok 0 s
    exact ⟨_, rfl, rfl, hirq, fun hie hovr hckpres hckok hfdict =>
      ⟨completed_ok_statusWord 0 hovr hckpres hckok hfdict, hirq.trans hie⟩⟩
  · intro s w hop hw hcmd hturn
    exact illegalWordChangesNothing s w hcmd hturn (selects_eq_false_of_op_zero hop hw)

end Sys2Proof.Machine
end

section
/-! PROOFS. The statements of 60_exceptions.md. A command that is taken ends with its one completion and touches nothing the
host alone writes (R115): from that follow what is left of STATUS and IRQ, and which of the steps reach OVR (R122). -/

namespace Sys2Proof.Machine

open Host (Outcome)

/-! ## The one completion of a command -/

@[simp] theorem completed_errcode (e : ErrCode) (v : Word) (u : State) : (completed e v u).status.errcode = e := rfl

@[simp] theorem completed_irq (e : ErrCode) (v : Word) (u : State) : (completed e v u).irq = u.ctrl.ie :=
  complete_irq e v u

theorem HostSideSame.refl (s : State) : HostSideSame s s := ⟨rfl, rfl, rfl, rfl, rfl, rfl, rfl, rfl, rfl, rfl, rfl, rfl⟩

theorem HostSideSame.ctrl {s t : State} (h : HostSideSame s t) : t.ctrl = s.ctrl := h.1

theorem HostSideSame.ovr {s t : State} (h : HostSideSame s t) : t.status.ovr = s.status.ovr := by
  obtain ⟨_, _, _, _, _, _, hovr, _⟩ := h
  exact hovr

/-- A completion reaches neither OVR nor anything else of the host's side (10_state.md R18, 20_memory.md R49). -/
theorem HostSideSame.completed {s u : State} (h : HostSideSame s u) (e : ErrCode) (v : Word) :
    HostSideSame s (completed e v u) := h

/-- Every command that is taken ends with one completion, of a state that has left the host's side alone (60_exceptions.md
R115, 20_memory.md R49). -/
theorem exec_completes {i : Instr} {s t : State} (h : exec i s = .next t) :
    ∃ e v u, HostSideSame s u ∧ t = completed e v u := by
  by_cases hi : i = .inflate
  · subst hi
    rcases inflate_next s t h with ⟨_, rfl⟩ | ⟨_, e, u, rfl, hf, _⟩
    · exact ⟨_, _, s, .refl s, rfl⟩
    · have hu : HostSideSame s u := hf.hostSideSame
      exact ⟨e, _, { u with trees := ⟨.cleared, .cleared, .cleared, u.trees.t3⟩ }, hu, rfl⟩
  · obtain ⟨e, v, ⟨bs, trees, adler, _, rfl⟩, _⟩ := exec_plain i s t hi h
    exact ⟨e, v, { s with bs := bs, trees := trees, adlerCalc := adler }, .refl s, rfl⟩

/-- Settles O10: the completion writes BUSY, DONE, ERR and ERRCODE, and the command has left the host's side alone. -/
theorem commandsComplete : Obligations.CommandsComplete := by
  intro i s t h
  obtain ⟨e, v, u, hu, rfl⟩ := exec_completes h
  exact ⟨rfl, rfl, rfl, rfl, hu.completed e v⟩

/-! ## The codes of each command -/

/-- The codes of BS_GET and BS_SKIP (40_bitstream.md R75, R76). -/
theorem readCommand_errcode {n : Nat} {k : Word → Word} {s t : State} (h : readCommand n k s = .next t) :
    t.status.errcode ∈ [ErrCode.ok, .argNRange, .argLenRange, .fmtInputExhausted] := by
  rcases getBits_next n k s t h with ⟨_, _, v, u, _, rfl⟩ | ⟨_, rfl⟩ | ⟨_, _, rfl⟩ | ⟨_, _, _, rfl⟩
  all_goals simp

/-- The codes of TREE_BUILD (41_huffman.md R82, R84). -/
theorem treeBuild_errcode {k : Slot} {count maxlen : Nat} {s t : State} (h : exec (.treeBuild k count maxlen) s = .next t) :
    t.status.errcode ∈ [ErrCode.ok, .argTreeParam, .fmtLenTooLong, .fmtOversubscribed] := by
  rcases treeBuild_next k count maxlen s t h with ⟨_, rfl⟩ | ⟨_, lens, _, _, ⟨_, rfl⟩ | ⟨_, _, rfl⟩ | ⟨_, rfl⟩⟩
  all_goals simp

/-- The codes of TREE_DECODE (41_huffman.md R85, R87). -/
theorem treeDecode_errcode {k : Slot} {s t : State} (h : exec (.treeDecode k) s = .next t) :
    t.status.errcode ∈ [ErrCode.ok, .argTreeInvalid, .argLenRange, .fmtInputExhausted, .fmtInvalidCode] := by
  rcases treeDecode_next k s t h with
    ⟨_, rfl⟩ | ⟨_, _, rfl⟩ | ⟨_, _, ⟨sym, u, _, rfl⟩ | ⟨e, u, _, rfl | rfl, rfl⟩⟩
  all_goals simp

/-- The codes of ADLER32 (43_checksum_and_control.md R112). -/
theorem adler32_errcode {s t : State} (h : exec .adler32 s = .next t) :
    t.status.errcode ∈ [ErrCode.ok, .argLenRange] := by
  rcases adler32_next s t h with ⟨_, rfl⟩ | ⟨_, bytes, _, _, rfl⟩
  all_goals simp

/-- The codes INFLATE never ends with: another command's argument codes, and FMT_LEN_TOO_LONG, since no code length it reads
passes the maximum it builds with (42_inflate.md R89, R100). -/
theorem inflate_errcode {s t : State} (h : exec .inflate s = .next t) :
    t.status.errcode ∉ [ErrCode.argIllegalCmd, .argNRange, .argTreeParam, .argTreeInvalid, .fmtLenTooLong] := by
  rcases inflate_next s t h with ⟨_, rfl⟩ | ⟨_, e, u, rfl, _, _, ⟨rfl, _⟩ | ⟨he, _⟩⟩
  · simp
  · simp
  · simp only [InflateCode, List.mem_cons, not_or] at he
    simp [he]

/-- Settles O12: each command by everything its completion can be. -/
theorem commandsRaiseOnlyTheirCodes : Obligations.CommandsRaiseOnlyTheirCodes := by
  intro i s t h
  cases i with
  | nop =>
    obtain rfl : completed .ok 0 s = t := Outcome.next.inj h
    rfl
  | bsInit =>
    obtain rfl : completed .ok 0 { s with bs := Reader.start s.cmdMode } = t := Outcome.next.inj h
    rfl
  | bsAlign =>
    obtain rfl : completed .ok 0 { s with bs := s.bs.align } = t := Outcome.next.inj h
    rfl
  | bsGet n => exact readCommand_errcode (exec_bsGet n s ▸ h)
  | bsSkip n => exact readCommand_errcode (exec_bsSkip n s ▸ h)
  | treeBuild k count maxlen => exact treeBuild_errcode h
  | treeDecode k => exact treeDecode_errcode h
  | adler32 => exact adler32_errcode h
  | inflate => exact inflate_errcode h

/-! ## OVR -/

/-- The engine's step never reaches OVR: a command leaves the host's side alone, and so does the completion of an illegal
word (10_state.md R18). -/
theorem engineStep_ovr {w : Word} {s t : State} (h : engineStep w s = .next t) : t.status.ovr = s.status.ovr := by
  rcases engineStep_next w s t h with ⟨i, _, hx⟩ | ⟨_, rfl⟩
  · obtain ⟨e, v, u, hu, rfl⟩ := exec_completes hx
    exact hu.ovr
  · rfl

/-- Of the host's actions only the reset input and a STATUS write with bit 3 set clear OVR (10_state.md R18). -/
theorem hostAction_keeps_ovr {a : HostAction} {s t : State} (hs : s.status.ovr = true) (h : hostAction a s = .next t) :
    t.status.ovr = true ∨ a = .reset ∨ ∃ w : Word, w.getLsbD 3 = true ∧ a = .write .w32 0x00000C w := by
  cases a with
  | reset => exact Or.inr (Or.inl rfl)
  | read w addr =>
    rcases hostRead_next w addr s t h with ⟨v, rfl⟩ | ⟨_, v, rfl⟩
    all_goals exact Or.inl hs
  | write w addr v =>
    rcases hostWrite_next w addr v s t h with rfl | rfl | ⟨_, rfl⟩ | ⟨_, rfl⟩ | ⟨rfl, rfl, rfl⟩ | ⟨_, _, _, _, rfl⟩ |
      ⟨_, _, _, rfl⟩ | ⟨_, _, rfl⟩ | ⟨_, _, rfl⟩
    case inr.inr.inr.inr.inl =>
      cases hv : v.getLsbD 3 with
      | true => exact Or.inr (Or.inr ⟨v, hv, rfl⟩)
      | false => exact Or.inl (by simp only [Status.writeOneToClear, hs, hv, Bool.not_false, Bool.and_self])
    case inr.inr.inl => exact Or.inl rfl
    all_goals exact Or.inl hs

/-- Settles O49: the CMD write of a BUSY block, then an idle step, the engine's step and a host action one by one. -/
theorem cmdWriteWhileBusyIsRefused : Obligations.CmdWriteWhileBusyIsRefused := by
  constructor
  · intro s w hb
    rw [hostWrite_register s 0x000008 w (by decide) (by decide)]
    exact if_pos hb
  · intro s t hs h
    rcases step_next s t h with ⟨_, _, rfl⟩ | ⟨w, _, _, hw⟩ | ⟨a, rest, n, hhost, _, ha⟩
    · exact Or.inl hs
    · exact Or.inl ((engineStep_ovr hw).trans hs)
    · have hkeep := hostAction_keeps_ovr (s := { s with host := rest, wait := n }) hs ha
      simpa [hhost] using hkeep

/-! ## The idle block -/

/-- Settles O7: with no command accepted the step looks at the host's list alone. -/
theorem idleStep : Obligations.IdleStep := by
  intro s hidle
  refine ⟨fun hnone => ?_, fun a rest hhost => ?_⟩
  · simp [step, hidle, hnone]
  · simp [step, hidle, hhost]

/-! ## IRQ -/

theorem whenNext_of_next {s : State} {o : Outcome State Fault Refusal} {P : State → Prop} (h : o = .next s) (hs : P s) :
    WhenNext o P := by
  rintro t rfl
  obtain rfl := Outcome.next.inj h
  exact hs

/-- Settles O52: DONE is 1 after a completion and 0 after an acceptance and a reset; a STATUS write clears it, a CTRL write
sets IE. -/
theorem irqFollowsDone : Obligations.IrqFollowsDone := by
  refine ⟨fun i s t h => ?_, fun s v => ⟨?_, ?_, fun hb => ?_, ?_⟩⟩
  · obtain ⟨e, w, u, hu, rfl⟩ := exec_completes h
    rw [completed_irq, hu.ctrl]
  · refine whenNext_of_next (hostWrite_register s 0x00000C v (by decide) (by decide)) ?_
    exact (Bool.and_assoc s.ctrl.ie s.status.done (!v.getLsbD 1)).symm
  · exact whenNext_of_next (hostWrite_register s 0x000004 v (by decide) (by decide)) rfl
  · refine whenNext_of_next (s := accept v s) ?_ (Bool.and_false s.ctrl.ie)
    rw [hostWrite_register s 0x000008 v (by decide) (by decide)]
    exact if_neg (by simp [hb])
  · exact whenNext_of_next (s := hostReset s) rfl rfl

end Sys2Proof.Machine
end

section
/-! PROOFS. The statements of 70_reset_and_hazards.md about the reset input (R129 to R131) and progress (R133): the
engine's turn comes, the step then runs the decoded command, and INFLATE ends on every written input. -/

namespace Sys2Proof.Machine

open Host (Outcome)

variable {s t : State}

/-! ## Reset and the engine's turn -/

/-- Settles O54: the reset input is taken as hostReset, which rebuilds the state from the reset values. -/
theorem resetInput : Obligations.ResetInput := fun _ => rfl

/-- The engine's step of a word that decodes is its command's (30_encoding.md R62). -/
theorem engineStep_of_decode {w : Word} {i : Instr} (s : State) (h : decode w = .ok i) : engineStep w s = exec i s := by
  simp only [engineStep, h]

/-- Settles O5: at the engine's turn the step is the engine's, and that of the decoded command. -/
theorem stepRunsDecodedCommand : Obligations.StepRunsDecodedCommand := by
  intro s w i hcmd hturn hdec _
  rw [step_engine s w hcmd hturn, engineStep_of_decode s hdec]

/-! ## A host that polls -/

/-- What a polling host does: a 32-bit read of STATUS (60_exceptions.md R123). -/
def statusPoll : HostAction := .read .w32 0x00000C

/-- A poll answers STATUS, at any time (20_memory.md R48, R52). -/
theorem hostAction_statusPoll (s : State) : hostAction statusPoll s = .next { s with rdata := s.statusWord } :=
  hostRead_register s 0x00000C (by decide) (by decide) (Or.inr rfl)

/-- A poll made before the engine's turn brings it nearer (70_reset_and_hazards.md R133; log 2). -/
theorem step_statusPoll {w : Word} {rest : List HostAction} {n : Nat} (hcmd : s.cmd = some w)
    (hhost : s.host = statusPoll :: rest) (hwait : s.wait = n + 1) :
    step s = .next { s with host := rest, wait := n, rdata := s.statusWord } := by
  have hstep : step s = hostAction statusPoll { s with host := rest, wait := n } := by
    simp only [step, hcmd, hhost, hwait]
  exact hstep.trans (hostAction_statusPoll _)

theorem run_succ_of_next {k : Nat} (h : step s = .next t) :
    Host.Core.run Sys2Proof.core (k + 1) s = Host.Core.run Sys2Proof.core k t := by
  have hcore : Sys2Proof.core.step s = .next t := h
  simp only [Host.Core.run, hcore]

/-- Settles O9, by induction on the polls ahead: none ahead or none to wait for is the engine's turn, and otherwise the
next poll is one step nearer to it. -/
theorem pollingReachesTheEngine : Obligations.PollingReachesTheEngine := by
  intro s w k hcmd hhost
  induction k generalizing s with
  | zero => exact ⟨s, by rw [Nat.min_zero]; rfl, Or.inr hhost, rfl⟩
  | succ k ih =>
    cases hwait : s.wait with
    | zero => exact ⟨s, by rw [Nat.zero_min]; rfl, Or.inl hwait, rfl⟩
    | succ n =>
      have hstep := step_statusPoll hcmd hhost hwait
      obtain ⟨t, hrun, hturn, ht⟩ :=
        ih { s with host := List.replicate k statusPoll, wait := n, rdata := s.statusWord } hcmd rfl
      exact ⟨t, by rw [Nat.succ_min_succ, run_succ_of_next hstep]; exact hrun, hturn, ht⟩

/-! ## INFLATE ends -/

/-- A written input has no byte whose read would fault (20_memory.md R49). -/
theorem not_inputFault {f : Fault} (hin : Written s.inRam 0 s.inLen.toNat) : ¬ InputFault s f := by
  rintro ⟨i, _, hi, hnone⟩
  have hsome := hin i (Nat.zero_le i) (by omega)
  rw [hnone] at hsome
  exact absurd hsome (by decide)

/-- Past its argument checks and on a written input INFLATE completes, from a state inside the stream: its body ends
before the loops' bounds, so the one fault left to it is an unwritten byte of the input (70_reset_and_hazards.md R133;
log 11). -/
theorem exec_inflate_completes (hg : InflateArgsGood s) (hin : Written s.inRam 0 s.inLen.toNat) :
    ∃ e u, exec .inflate s = .next (inflateDone e u) ∧ EngineFrame (inflateInit s) u ∧ Going u := by
  have hends := inflateBody_ends s hg.2.1
  cases hr : inflateBody s with
  | ok a u =>
    rw [hr] at hends
    obtain ⟨_, hframe, hgoing, _⟩ := hends
    exact ⟨.ok, u, exec_inflate_of_ok hg hr, hframe, hgoing⟩
  | error x u =>
    rw [hr] at hends
    cases x with
    | raise e =>
      obtain ⟨_, hframe, hgoing⟩ := hends
      exact ⟨e, u, exec_inflate_of_raise hg hr, hframe, hgoing⟩
    | fault f => exact absurd hends (not_inputFault (s := inflateInit s) hin)

/-- Settles O32: the state INFLATE completes from is inside the stream and has kept the frame. -/
theorem inflateAlwaysEnds : Obligations.InflateAlwaysEnds := by
  intro s hg hin
  obtain ⟨e, u, hrun, hframe, hmode, _, hoffset, _, hwritten⟩ := exec_inflate_completes hg hin
  have hcap : u.outPos ≤ max 0 s.outCap.toNat := hframe.cap
  have hlen : u.inLen = s.inLen := hframe.inLen
  exact ⟨_, hrun, rfl, rfl, rfl, by rwa [Nat.zero_max] at hcap, hwritten, hmode, hlen ▸ hoffset⟩

end Sys2Proof.Machine
end

section
/-! PROOFS. What a command does not see (70_reset_and_hazards.md R135, R136, R139): a byte of IN that the reader has
passed, and CTRL as it stands while the command runs. Each is a relation between two states that the pieces of a command
carry from their start to their end; the reader's pieces carry both relations by one proof. -/

namespace Sys2Proof.Machine

open Host (Outcome)

variable {α β : Type} {s t : State} {R : State → State → Prop}

/-! ## Pieces that carry a relation -/

/-- Runs of the piece from two related states end the same way in related states, or the first of them with a fault. -/
def Respects (R : State → State → Prop) (p : Engine α) : Prop :=
  ∀ s t, R s t → SameEnd R (fun _ => R) (p s) (p t)

theorem Respects.bind {p : Engine α} {f : α → Engine β} (hp : Respects R p) (hf : ∀ a, Respects R (f a)) :
    Respects R (p >>= f) := fun s t h => (hp s t h).bind fun a u v _ huv => hf a u v huv

theorem Respects.ite {c : Prop} [Decidable c] {p q : Engine α} (hp : Respects R p) (hq : Respects R q) :
    Respects R (if c then p else q) := by
  split
  · exact hp
  · exact hq

theorem respects_pure (a : α) : Respects R (pure a : Engine α) := fun _ _ h => .ok h

theorem respects_raise (e : ErrCode) : Respects R (raise e : Engine α) := fun _ _ h => .raise h

theorem respects_stopFault (f : Fault) : Respects R (stopFault f : Engine α) := fun _ _ _ => .fault

theorem respects_failIf (c : Bool) (e : ErrCode) : Respects R (failIf c e) := by
  intro s t h
  cases c with
  | false => exact .ok h
  | true => exact .raise h

theorem respects_modify (g : State → State) (h : ∀ s t, R s t → R (g s) (g t)) :
    Respects R (modify g : Engine Unit) :=
  fun s t hst => .ok (h s t hst)

/-- A piece that starts by looking at the state, when it finds the same in related states. -/
theorem Respects.get {f : State → Engine α} (hf : ∀ s t, R s t → f t = f s) (h : ∀ s, Respects R (f s)) :
    Respects R (get >>= f) := by
  intro s t hst
  rw [engine_get_bind, engine_get_bind, hf s t hst]
  exact h s s t hst

theorem SameEnd.of_ok {E : ErrCode → State → State → Prop} {a : α} {r : EStateM.Result Stop State α}
    (h : SameEnd R E (.ok a s) r) : ∃ t, r = .ok a t ∧ R s t := by
  cases h with
  | ok h => exact ⟨_, rfl, h⟩

theorem SameEnd.of_raise {E : ErrCode → State → State → Prop} {e : ErrCode} {r : EStateM.Result Stop State α}
    (h : SameEnd R E (.error (.raise e) s) r) : ∃ t, r = .error (.raise e) t ∧ E e s t := by
  cases h with
  | raise h => exact ⟨_, rfl, h⟩

/-- A command made of such a piece completes from related states with one code and RESULT (60_exceptions.md R115,
R116). -/
theorem Respects.runCommand {p : Engine Word} {u : State} (hp : Respects R p) (hst : R s t)
    (h : runCommand p s = .next u) :
    ∃ e v s' t', R s' t' ∧ u = completed e v s' ∧ Machine.runCommand p t = .next (completed e v t') := by
  have hend := hp s t hst
  rcases runCommand_next p s u h with ⟨v, s', hrun, rfl⟩ | ⟨e, s', hrun, rfl⟩
  · rw [hrun] at hend
    obtain ⟨t', hrun', hst'⟩ := hend.of_ok
    exact ⟨.ok, v, s', t', hst', rfl, runCommand_ok p t t' v hrun'⟩
  · rw [hrun] at hend
    obtain ⟨t', hrun', hst'⟩ := hend.of_raise
    exact ⟨e, 0, s', t', hst', rfl, runCommand_raise p t t' e hrun'⟩

/-! ## The reader's pieces -/

/-- Related states have the same reader and IN_LEN and the same bytes of IN from BS_OFFSET on, and stay related when
both readers advance alike. -/
structure ReaderAgrees (R : State → State → Prop) : Prop where
  bs : ∀ {s t}, R s t → t.bs = s.bs
  inLen : ∀ {s t}, R s t → t.inLen = s.inLen
  input : ∀ {s t i}, R s t → s.bs.offset ≤ i → t.inRam.read i = s.inRam.read i
  advance : ∀ {s t} (r : Reader), R s t → s.bs.offset ≤ r.offset → R { s with bs := r } { t with bs := r }

section
variable (hR : ReaderAgrees R)
include hR

theorem ReaderAgrees.update (g : Reader → Reader) (hg : ∀ r, r.offset ≤ (g r).offset) (h : R s t) :
    R { s with bs := g s.bs } { t with bs := g t.bs } := by
  rw [hR.bs h]
  exact hR.advance _ h (hg s.bs)

/-- Reading a byte that the reader has not passed (20_memory.md R49). -/
theorem ReaderAgrees.readIn {i : Nat} (h : R s t) (hi : s.bs.offset ≤ i) :
    SameEnd (fun u v => u = s ∧ R u v) (fun _ => R) (readIn i s) (readIn i t) := by
  simp only [Machine.readIn, hR.input h hi]
  cases s.inRam.read i with
  | none => exact .fault
  | some b => exact .ok ⟨rfl, h⟩

/-- A turn of the refill reads at BS_OFFSET and above it, and advances BS_OFFSET (40_bitstream.md R69, R70). -/
theorem ReaderAgrees.refillOne : Respects R refillOne := by
  intro s t h
  rw [Machine.refillOne, engine_get_bind, engine_get_bind, hR.bs h]
  cases s.bs.mode with
  | deflate =>
    refine (hR.readIn h (Nat.le_refl _)).bind fun b u v _ ⟨_, huv⟩ => ?_
    exact .ok (hR.update (fun r => r.loadByte b) (fun r => Nat.le_add_right r.offset 1) huv)
  | lzx =>
    refine (hR.readIn h (Nat.le_refl _)).bind fun lo u v _ ⟨hu, huv⟩ => ?_
    subst hu
    refine (hR.readIn huv (Nat.le_succ _)).bind fun hi u' v' _ ⟨_, huv'⟩ => ?_
    exact .ok (hR.update (fun r => r.loadWord lo hi) (fun r => Nat.le_add_right r.offset 2) huv')

theorem ReaderAgrees.refill (n fuel : Nat) : Respects R (refill n fuel) := by
  induction fuel with
  | zero => exact respects_pure ()
  | succ fuel ih =>
    refine .get (fun s t h => by rw [hR.bs h]) fun s => ?_
    exact .ite (hR.refillOne.bind fun _ => ih) (respects_pure ())

theorem ReaderAgrees.consume (n : Nat) : Respects R (consume n) := by
  intro s t h
  simp only [Machine.consume, hR.bs h]
  exact .ok (hR.advance _ h (Nat.le_refl _))

/-- BsGet (40_bitstream.md R68). -/
theorem ReaderAgrees.bsGet (n : Nat) : Respects R (bsGet n) := by
  intro s t h
  simp only [Machine.bsGet, hR.bs h, hR.inLen h]
  split
  · exact .raise h
  · split
    · exact .ok h
    · exact ((hR.refill n n).bind fun _ => hR.consume n) s t h

theorem ReaderAgrees.bsAlign : Respects R bsAlign :=
  fun _ _ h => .ok (hR.update Reader.align (fun r => Nat.le_of_eq (align_offset r).symm) h)

theorem ReaderAgrees.checkInLen : Respects R checkInLen := by
  intro s t h
  simp only [Machine.checkInLen, hR.inLen h]
  exact respects_failIf _ _ s t h

/-- The checks and the read of BS_GET and BS_SKIP (40_bitstream.md R75, R76). -/
theorem ReaderAgrees.getBits (n : Nat) : Respects R (getBits n) :=
  (respects_failIf _ _).bind fun _ => hR.checkInLen.bind fun _ => hR.bsGet n

end

/-! ## A byte of IN that the reader has passed -/

/-- t is s with the contents of IN replaced by m, which differ below BS_OFFSET only. -/
def StaleReplaced (m : Memory Byte) (s t : State) : Prop :=
  t = { s with inRam := m } ∧ ∀ i, s.bs.offset ≤ i → m.read i = s.inRam.read i

theorem staleReplaced_readerAgrees (m : Memory Byte) : ReaderAgrees (StaleReplaced m) where
  bs := by rintro s t ⟨rfl, _⟩; rfl
  inLen := by rintro s t ⟨rfl, _⟩; rfl
  input := by rintro s t i ⟨rfl, hm⟩ hi; exact hm i hi
  advance := by rintro s t r ⟨rfl, hm⟩ hr; exact ⟨rfl, fun i hi => hm i (Nat.le_trans hr hi)⟩

/-- Settles O21: a write below BS_OFFSET replaces IN below BS_OFFSET only, and the read of BS_GET carries that to its
end. -/
theorem staleAccumulator : Obligations.StaleAccumulator := by
  intro s t n a b ha h
  have hst : StaleReplaced (s.inRam.write a b) s { s with inRam := s.inRam.write a b } :=
    ⟨rfl, fun i hi => by rw [memory_read_write, if_neg (by omega)]⟩
  obtain ⟨e, v, s', t', ⟨rfl, _⟩, rfl, hrun⟩ := ((staleReplaced_readerAgrees _).getBits n).runCommand hst h
  exact hrun

/-! ## CTRL -/

/-- s with other contents of CTRL and another CTRL.MODE taken at the acceptance of the command in progress. -/
def State.withModes (s : State) (c : Ctrl) (m : BitOrder) : State := { s with ctrl := c, cmdMode := m }

/-- t is s but for what CTRL holds and for the CTRL.MODE of the acceptance. -/
def ModesReplaced (c : Ctrl) (m : BitOrder) (s t : State) : Prop := t = s.withModes c m

theorem modesReplaced_readerAgrees (c : Ctrl) (m : BitOrder) : ReaderAgrees (ModesReplaced c m) where
  bs := by rintro s t rfl; rfl
  inLen := by rintro s t rfl; rfl
  input := by rintro s t i rfl _; rfl
  advance := by rintro s t r rfl _; rfl

/-- The piece sees neither CTRL nor the CTRL.MODE of the acceptance: c and m in their place change nothing else. -/
abbrev ModeBlind (c : Ctrl) (m : BitOrder) (p : Engine α) : Prop := Respects (ModesReplaced c m) p

variable {c : Ctrl} {m : BitOrder}

theorem modeBlind_modify {g : State → State} (hg : ∀ s : State, g (s.withModes c m) = (g s).withModes c m) :
    ModeBlind c m (modify g : Engine Unit) :=
  respects_modify g (by rintro s t rfl; exact hg s)

theorem modeBlind_get {f : State → Engine α} (hf : ∀ s : State, f (s.withModes c m) = f s)
    (h : ∀ s, ModeBlind c m (f s)) : ModeBlind c m (get >>= f) :=
  .get (by rintro s t rfl; exact hf s) h

/-! ### Reading and writing the state -/

theorem modeBlind_readIn (i : Nat) : ModeBlind c m (readIn i) := by
  rintro s t rfl
  simp only [readIn, State.withModes]
  cases s.inRam.read i with
  | none => exact .fault
  | some b => exact .ok rfl

theorem modeBlind_readOut (i : Nat) : ModeBlind c m (readOut i) := by
  rintro s t rfl
  simp only [readOut, State.withModes]
  cases s.outRam.read i with
  | none => exact .fault
  | some b => exact .ok rfl

theorem modeBlind_readClen (i : Nat) : ModeBlind c m (readClen i) := by
  rintro s t rfl
  simp only [readClen, State.withModes]
  cases s.clen.read i with
  | none => exact .fault
  | some l => exact .ok rfl

theorem modeBlind_pushOut (b : Byte) : ModeBlind c m (pushOut b) := by
  rintro s t rfl
  exact .ok rfl

theorem modeBlind_writeSlot (k : Slot) (v : TreeSlot) : ModeBlind c m (writeSlot k v) := by
  rintro s t rfl
  exact .ok rfl

theorem modeBlind_inList (i n : Nat) : ModeBlind c m (inList i n) := by
  induction n generalizing i with
  | zero => exact respects_pure []
  | succ n ih => exact (modeBlind_readIn i).bind fun _ => (ih (i + 1)).bind fun _ => respects_pure _

theorem modeBlind_outList (i n : Nat) : ModeBlind c m (outList i n) := by
  induction n generalizing i with
  | zero => exact respects_pure []
  | succ n ih => exact (modeBlind_readOut i).bind fun _ => (ih (i + 1)).bind fun _ => respects_pure _

theorem modeBlind_clenList (i n : Nat) : ModeBlind c m (clenList i n) := by
  induction n generalizing i with
  | zero => exact respects_pure []
  | succ n ih => exact (modeBlind_readClen i).bind fun _ => (ih (i + 1)).bind fun _ => respects_pure _

theorem modeBlind_checkInLen : ModeBlind c m checkInLen := (modesReplaced_readerAgrees c m).checkInLen

theorem modeBlind_bsGet (n : Nat) : ModeBlind c m (bsGet n) := (modesReplaced_readerAgrees c m).bsGet n

theorem modeBlind_bsAlign : ModeBlind c m bsAlign := (modesReplaced_readerAgrees c m).bsAlign

/-! ### The Huffman unit -/

theorem modeBlind_hufBuild (k : Slot) (lens : List Nat) (maxlen : Nat) :
    ModeBlind c m (hufBuild k lens maxlen) :=
  (modeBlind_writeSlot k _).bind fun _ => (respects_failIf _ _).bind fun _ => (respects_failIf _ _).bind fun _ =>
    modeBlind_writeSlot k _

theorem modeBlind_hufWalk (book : List (Nat × Nat)) (fuel code l : Nat) :
    ModeBlind c m (hufWalk book fuel code l) := by
  induction fuel generalizing code l with
  | zero => exact respects_raise _
  | succ fuel ih =>
    refine (modeBlind_bsGet 1).bind fun b => ?_
    cases symbolOf book (l + 1) (2 * code + b.toNat) with
    | some sym => exact respects_pure sym
    | none => exact ih _ _

theorem modeBlind_hufDecode (k : Slot) : ModeBlind c m (hufDecode k) := by
  rintro s t rfl
  exact modeBlind_hufWalk (s.trees.get k).book (s.trees.get k).lmax 0 0 s _ rfl

theorem modeBlind_checkValid (k : Slot) : ModeBlind c m (checkValid k) := by
  rintro s t rfl
  exact respects_failIf (!(s.trees.get k).valid) _ s _ rfl

/-! ### The header of a stream and of a block (42_inflate.md R92 to R94) -/

theorem modeBlind_getBE32 : ModeBlind c m getBE32 :=
  (modeBlind_bsGet 8).bind fun _ => (modeBlind_bsGet 8).bind fun _ => (modeBlind_bsGet 8).bind fun _ =>
    (modeBlind_bsGet 8).bind fun _ => respects_pure _

theorem modeBlind_presetDict (flg : Word) : ModeBlind c m (presetDict flg) :=
  .ite ((modeBlind_modify fun _ => rfl).bind fun _ => modeBlind_getBE32.bind fun _ => modeBlind_modify fun _ => rfl)
    (respects_pure ())

theorem modeBlind_zlibHeader : ModeBlind c m zlibHeader :=
  (modeBlind_bsGet 8).bind fun _ => (modeBlind_bsGet 8).bind fun flg => (modeBlind_modify fun _ => rfl).bind fun _ =>
    (respects_failIf _ _).bind fun _ => (respects_failIf _ _).bind fun _ => modeBlind_presetDict flg

theorem modeBlind_blockHeader : ModeBlind c m blockHeader :=
  (modeBlind_bsGet 1).bind fun _ => (modeBlind_bsGet 2).bind fun _ => (modeBlind_modify fun _ => rfl).bind fun _ =>
    respects_pure _

/-! ### Stored blocks (42_inflate.md R95) -/

theorem modeBlind_storedCopy (n : Nat) : ModeBlind c m (storedCopy n) := by
  induction n with
  | zero => exact respects_pure ()
  | succ n ih =>
    exact modeBlind_get (fun _ => rfl) fun _ => (modeBlind_readIn _).bind fun b => (modeBlind_pushOut b).bind fun _ =>
      (modeBlind_modify fun _ => rfl).bind fun _ => ih

theorem modeBlind_storedChecks (len : Nat) : ModeBlind c m (storedChecks len) :=
  modeBlind_get (fun _ => rfl) fun _ => (respects_failIf _ _).bind fun _ => respects_failIf _ _

theorem modeBlind_storedBlock : ModeBlind c m storedBlock :=
  modeBlind_bsAlign.bind fun _ => (modeBlind_bsGet 16).bind fun _ => (modeBlind_bsGet 16).bind fun _ =>
    (respects_failIf _ _).bind fun _ => (modeBlind_storedChecks _).bind fun _ => modeBlind_storedCopy _

/-! ### Symbols (42_inflate.md R101 to R105) -/

theorem modeBlind_literal (sym : Nat) : ModeBlind c m (literal sym) :=
  modeBlind_get (fun _ => rfl) fun _ => (respects_failIf _ _).bind fun _ => modeBlind_pushOut _

theorem modeBlind_matchLength (sym : Nat) : ModeBlind c m (matchLength sym) :=
  (modeBlind_bsGet _).bind fun _ => respects_pure _

theorem modeBlind_matchDistance : ModeBlind c m matchDistance :=
  (modeBlind_hufDecode .t1).bind fun _ => (respects_failIf _ _).bind fun _ => (modeBlind_bsGet _).bind fun _ =>
    respects_pure _

theorem modeBlind_matchChecks (len dist : Nat) : ModeBlind c m (matchChecks len dist) :=
  modeBlind_get (fun _ => rfl) fun _ => (respects_failIf _ _).bind fun _ => respects_failIf _ _

theorem modeBlind_matchCopy (dist n : Nat) : ModeBlind c m (matchCopy dist n) := by
  induction n with
  | zero => exact respects_pure ()
  | succ n ih =>
    exact modeBlind_get (fun _ => rfl) fun _ => (modeBlind_readOut _).bind fun b => (modeBlind_pushOut b).bind fun _ =>
      ih

theorem modeBlind_backReference (sym : Nat) : ModeBlind c m (backReference sym) :=
  (modeBlind_matchLength sym).bind fun len => modeBlind_matchDistance.bind fun dist =>
    (modeBlind_matchChecks len dist).bind fun _ => modeBlind_matchCopy dist len

theorem modeBlind_symbolLoop (fuel : Nat) : ModeBlind c m (symbolLoop fuel) := by
  induction fuel with
  | zero => exact respects_stopFault _
  | succ fuel ih =>
    exact (modeBlind_hufDecode .t0).bind fun sym =>
      .ite ((modeBlind_literal sym).bind fun _ => ih)
        (.ite (respects_pure ()) (.ite ((modeBlind_backReference sym).bind fun _ => ih) (respects_raise _)))

theorem modeBlind_blockSymbols : ModeBlind c m blockSymbols := by
  rintro s t rfl
  exact modeBlind_symbolLoop s.turns s _ rfl

/-! ### Huffman blocks (42_inflate.md R96 to R100) -/

theorem modeBlind_fixedBlock : ModeBlind c m fixedBlock :=
  (modeBlind_hufBuild _ _ _).bind fun _ => (modeBlind_hufBuild _ _ _).bind fun _ => modeBlind_blockSymbols

theorem modeBlind_preLengths (order pl : List Nat) : ModeBlind c m (preLengths order pl) := by
  induction order generalizing pl with
  | nil => exact respects_pure pl
  | cons o order ih => exact (modeBlind_bsGet 3).bind fun _ => ih _

theorem modeBlind_repeatLength (total : Nat) (cl : List Nat) (r v : Nat) :
    ModeBlind c m (repeatLength total cl r v) :=
  (respects_failIf _ _).bind fun _ => respects_pure _

theorem modeBlind_codeLengthStep (total : Nat) (cl : List Nat) : ModeBlind c m (codeLengthStep total cl) :=
  (modeBlind_hufDecode .t2).bind fun _ =>
    .ite (respects_pure _)
      (.ite ((respects_failIf _ _).bind fun _ => (modeBlind_bsGet 2).bind fun _ => modeBlind_repeatLength _ _ _ _)
        (.ite ((modeBlind_bsGet 3).bind fun _ => modeBlind_repeatLength _ _ _ _)
          ((modeBlind_bsGet 7).bind fun _ => modeBlind_repeatLength _ _ _ _)))

theorem modeBlind_codeLengths (total fuel : Nat) (cl : List Nat) :
    ModeBlind c m (codeLengths total fuel cl) := by
  induction fuel generalizing cl with
  | zero => exact respects_pure cl
  | succ fuel ih => exact .ite ((modeBlind_codeLengthStep total cl).bind fun _ => ih _) (respects_pure cl)

theorem modeBlind_dynamicCounts : ModeBlind c m dynamicCounts :=
  (modeBlind_bsGet 5).bind fun _ => (modeBlind_bsGet 5).bind fun _ => (modeBlind_bsGet 4).bind fun _ =>
    (respects_failIf _ _).bind fun _ => (respects_failIf _ _).bind fun _ => respects_pure _

theorem modeBlind_dynamicBlock : ModeBlind c m dynamicBlock :=
  modeBlind_dynamicCounts.bind fun _ => (modeBlind_preLengths _ _).bind fun _ =>
    (modeBlind_hufBuild _ _ _).bind fun _ => (modeBlind_codeLengths _ _ _).bind fun _ =>
      (respects_failIf _ _).bind fun _ => (modeBlind_hufBuild _ _ _).bind fun _ =>
        (modeBlind_hufBuild _ _ _).bind fun _ => modeBlind_blockSymbols

/-! ### The whole of INFLATE (42_inflate.md R89, R91, R107) -/

theorem modeBlind_blockBody (btype : Word) : ModeBlind c m (blockBody btype) := by
  unfold blockBody
  split
  · exact modeBlind_storedBlock
  · exact modeBlind_fixedBlock
  · exact modeBlind_dynamicBlock
  · exact respects_raise _

theorem modeBlind_blockLoop (fuel : Nat) : ModeBlind c m (blockLoop fuel) := by
  induction fuel with
  | zero => exact respects_stopFault _
  | succ fuel ih =>
    exact modeBlind_blockHeader.bind fun h => (modeBlind_blockBody h.2).bind fun _ => .ite (respects_pure ()) ih

theorem modeBlind_checkTrailer : ModeBlind c m checkTrailer :=
  modeBlind_getBE32.bind fun _ => (modeBlind_modify fun _ => rfl).bind fun _ => modeBlind_get (fun _ => rfl) fun _ =>
    (respects_failIf _ _).bind fun _ => modeBlind_modify fun _ => rfl

theorem modeBlind_endOfStream : ModeBlind c m endOfStream :=
  modeBlind_bsAlign.bind fun _ => modeBlind_get (fun _ => rfl) fun _ => (modeBlind_outList _ _).bind fun _ =>
    (modeBlind_modify fun _ => rfl).bind fun _ => .ite modeBlind_checkTrailer (respects_pure ())

theorem modeBlind_inflateBody : ModeBlind c m inflateBody :=
  (modeBlind_modify fun _ => rfl).bind fun _ => modeBlind_zlibHeader.bind fun _ => modeBlind_get (fun _ => rfl) fun _ =>
    (modeBlind_blockLoop _).bind fun _ => modeBlind_endOfStream

/-! ### The commands -/

/-- A command that is runCommand of a blind piece is blind. -/
theorem runCommand_withModes {p : Engine Word} (hp : ModeBlind c m p) (h : runCommand p s = .next t) :
    runCommand p (s.withModes c m) = .next (t.withModes c m) := by
  obtain ⟨e, v, u, _, rfl, rfl, hrun⟩ := hp.runCommand (t := s.withModes c m) rfl h
  exact hrun

theorem execInflate_withModes (h : execInflate s = .next t) :
    execInflate (s.withModes c m) = .next (t.withModes c m) := by
  rcases inflate_next s t h with ⟨hbad, rfl⟩ | ⟨hg, e, u, rfl, _, _, hend⟩
  · have hbad' : inflateArgsBad (s.withModes c m) = true := hbad
    rw [execInflate, if_pos hbad']
    rfl
  · have hg' : InflateArgsGood (s.withModes c m) := hg
    have hsame := modeBlind_inflateBody (c := c) (m := m) s _ rfl
    rcases hend with ⟨rfl, hrun⟩ | ⟨_, hrun⟩
    · rw [hrun] at hsame
      obtain ⟨_, hrun', rfl⟩ := hsame.of_ok
      exact exec_inflate_of_ok hg' hrun'
    · rw [hrun] at hsame
      obtain ⟨_, hrun', rfl⟩ := hsame.of_raise
      exact exec_inflate_of_raise hg' hrun'

/-- A command other than BS_INIT sees neither CTRL nor the CTRL.MODE of its acceptance (70_reset_and_hazards.md R135,
R139). -/
theorem exec_withModes {i : Instr} (hi : i ≠ .bsInit) (h : exec i s = .next t) :
    exec i (s.withModes c m) = .next (t.withModes c m) := by
  have hgetBits := (modesReplaced_readerAgrees c m).getBits
  cases i with
  | nop =>
    obtain rfl := Outcome.next.inj h
    rfl
  | bsInit => exact absurd rfl hi
  | bsAlign =>
    obtain rfl := Outcome.next.inj h
    rfl
  | bsGet n => exact runCommand_withModes (hgetBits n) h
  | bsSkip n => exact runCommand_withModes ((hgetBits n).bind fun _ => respects_pure 0) h
  | treeBuild k count maxlen =>
    exact runCommand_withModes ((respects_failIf _ _).bind fun _ => (modeBlind_clenList 0 count).bind fun lens =>
      (modeBlind_hufBuild k lens maxlen).bind fun _ => respects_pure 0) h
  | treeDecode k =>
    exact runCommand_withModes ((modeBlind_checkValid k).bind fun _ => modeBlind_checkInLen.bind fun _ =>
      (modeBlind_hufDecode k).bind fun _ => respects_pure _) h
  | inflate => exact execInflate_withModes h
  | adler32 =>
    exact runCommand_withModes (modeBlind_checkInLen.bind fun _ => (modeBlind_inList 0 s.inLen.toNat).bind fun bytes =>
      (modeBlind_modify fun _ => rfl).bind fun _ => respects_pure (adler32 s.arg bytes)) h

theorem HostSideSame.cmdMode (h : HostSideSame s t) : t.cmdMode = s.cmdMode := by
  obtain ⟨_, _, _, _, _, _, _, _, _, _, _, hmode⟩ := h
  exact hmode

theorem withModes_same_cmdMode (h : HostSideSame s t) (c : Ctrl) : t.withModes c s.cmdMode = { t with ctrl := c } := by
  rw [← h.cmdMode]
  rfl

theorem withModes_same_ctrl (h : HostSideSame s t) (m : BitOrder) : t.withModes s.ctrl m = { t with cmdMode := m } := by
  rw [← h.ctrl]
  rfl

/-- Settles O14: BS_INIT reads the CTRL.MODE of its acceptance alone, and the other commands neither that nor CTRL; no
command writes either of them. -/
theorem onlyBsInitReadsCtrl : Obligations.OnlyBsInitReadsCtrl := by
  intro i s t h
  obtain ⟨e, v, u, hu, ht⟩ := exec_completes h
  have hhost : HostSideSame s t := ht ▸ hu.completed e v
  refine ⟨fun c => ?_, fun hi m => ?_⟩
  · by_cases hi : i = .bsInit
    · subst hi
      obtain rfl := Outcome.next.inj h
      rfl
    · exact (exec_withModes hi h).trans (congrArg Outcome.next (withModes_same_cmdMode hhost c))
  · exact (exec_withModes hi h).trans (congrArg Outcome.next (withModes_same_ctrl hhost m))

end Sys2Proof.Machine
end
